-- ==== Sys2Proof/Word.lean ====
section
/-! DEFINITION. The word types of the machine (spec/00_scope.md R7, spec/10_state.md R20 to R25).
Bit vectors stand where the spec speaks of bits: bytes, addresses, elements, register numbers of an
encoding. A vector register is a row of eight 64-bit elements. -/

namespace Sys2Proof

/-- A byte of memory or of an instruction (R50). -/
abbrev Byte := BitVec 8

/-- A 64-bit linear or effective address; sums wrap modulo 2^64 (R50, R57). -/
abbrev Addr := BitVec 64

/-- One element of a vector: a 64-bit IEEE 754 binary64 bit pattern (R121). -/
abbrev E64 := BitVec 64

/-- A general-register number, 0 to 15 (R20). -/
abbrev Gpr := BitVec 4

/-- A vector-register number, 0 to 31 (R23, R97). -/
abbrev VReg := BitVec 5

/-- An opmask-register number, 0 to 7 (R25). -/
abbrev OpmaskNum := BitVec 3

/-- A vector register at its full width: element `i` is bits `64*i+63 : 64*i` (R7, R23), so `XMM`
is elements 0 and 1, `YMM` elements 0 to 3, `ZMM` all eight (R24). -/
abbrev Lanes := Vector E64 8

/-- The 512 bits of a vector register as one word, element 7 highest (R7). -/
def Lanes.bits (v : Lanes) : BitVec 512 :=
  v[7] ++ v[6] ++ v[5] ++ v[4] ++ v[3] ++ v[2] ++ v[1] ++ v[0]

end Sys2Proof
end

