-- ==== Sys2Proof/Syntax.lean ====
section
/-! DEFINITION. The instructions: one constructor per row of spec/opcode_table.json (spec/30_encoding.md R102,
rows 1 to 18), and their operands (R80 to R101). Register numbers are the true numbers (R82, R87, R96, R97), not the
inverted bits of the encoding. Encoding bits the spec calls ignored (R107) are not part of the syntax. -/

namespace Sys2Proof

/-- The legacy prefixes that can stand before a VEX or EVEX prefix (R85). -/
inductive LegacyPrefix where
  /-- `26H`, ignored in 64-bit mode (R60). -/
  | es
  /-- `2EH`, ignored in 64-bit mode (R60). -/
  | cs
  /-- `36H`, ignored in 64-bit mode (R60). -/
  | ss
  /-- `3EH`, ignored in 64-bit mode (R60). -/
  | ds
  /-- `64H`, adds `FSbase` (R60). -/
  | fs
  /-- `65H`, adds `GSbase` (R60). -/
  | gs
  /-- `67H`, 32-bit address size (R59). -/
  | addr32
  /-- `F0H`, not allowed: `#UD` (R85). -/
  | lock
  /-- `66H`, not allowed: `#UD` (R85). -/
  | opSize
  /-- `F2H`, not allowed: `#UD` (R85). -/
  | repne
  /-- `F3H`, not allowed: `#UD` (R85). -/
  | rep
  /-- `40H` to `4FH`, with its four low bits; not allowed: `#UD` (R85). -/
  | rex (wrxb : BitVec 4)
  deriving DecidableEq, Repr

/-- The displacement of a memory operand, as encoded (R94): an 8-bit one is not yet scaled. -/
inductive Disp where
  | none
  | disp8 (d : BitVec 8)
  | disp32 (d : BitVec 32)
  deriving DecidableEq, Repr

/-- The addressing forms of a memory operand (R57, R92, R93). -/
inductive MemOperand where
  /-- No SIB byte: base register plus displacement. -/
  | based (base : Gpr) (disp : Disp)
  /-- `mod = 00b`, `rm = 101b`: relative to the next instruction (R58). -/
  | ripRel (disp : BitVec 32)
  /-- SIB byte with a base register; index number `0100b` means no index. -/
  | sib (scale : BitVec 2) (index : Gpr) (base : Gpr) (disp : Disp)
  /-- SIB byte with `mod = 00b` and `base = 101b`: no base register. -/
  | sibNoBase (scale : BitVec 2) (index : Gpr) (disp : BitVec 32)
  deriving DecidableEq, Repr

/-- The third source of a VEX form: a register 0 to 15, or memory of the full vector length (R96). -/
inductive VexSrc3 where
  | reg (r : BitVec 4)
  | mem (m : MemOperand)
  deriving DecidableEq, Repr

/-- The third source of an EVEX form without embedded rounding (R90, R91): a register 0 to 31, memory of
the full vector length (`EVEX.b = 0`), or one 64-bit memory element broadcast (`EVEX.b = 1`). -/
inductive EvexSrc3 where
  | reg (r : VReg)
  | full (m : MemOperand)
  | bcast (m : MemOperand)
  deriving DecidableEq, Repr

/-- The write mask of an EVEX form (R89): `EVEX.aaa` and `EVEX.z`; number 0 names no mask. -/
structure Masking where
  aaa : OpmaskNum
  z : Bool
  deriving DecidableEq, Repr

/-- The four rounding modes (R29). -/
inductive RoundingMode where
  /-- To nearest, ties to even. -/
  | rn
  /-- Toward minus infinity. -/
  | rd
  /-- Toward plus infinity. -/
  | ru
  /-- Toward zero. -/
  | rz
  deriving DecidableEq, Repr

/-- The mnemonic: which operands are the factors and which the addend (R12, R84). -/
inductive Kind where
  | k132
  | k213
  | k231
  deriving DecidableEq, Repr

/-- The two vector lengths of the VEX forms (R81). -/
inductive VexLen where
  | v128
  | v256
  deriving DecidableEq, Repr

/-- The three vector lengths of the EVEX forms (R88). -/
inductive EvexLen where
  | v128
  | v256
  | v512
  deriving DecidableEq, Repr

/-- The instructions, row by row of R102. -/
inductive Instr where
  /-- Row 1, R150. -/
  | vfmadd132pdVex128 (pfx : List LegacyPrefix) (dest src2 : BitVec 4) (src3 : VexSrc3)
  /-- Row 2, R151. -/
  | vfmadd213pdVex128 (pfx : List LegacyPrefix) (dest src2 : BitVec 4) (src3 : VexSrc3)
  /-- Row 3, R152. -/
  | vfmadd231pdVex128 (pfx : List LegacyPrefix) (dest src2 : BitVec 4) (src3 : VexSrc3)
  /-- Row 4, R153. -/
  | vfmadd132pdVex256 (pfx : List LegacyPrefix) (dest src2 : BitVec 4) (src3 : VexSrc3)
  /-- Row 5, R154. -/
  | vfmadd213pdVex256 (pfx : List LegacyPrefix) (dest src2 : BitVec 4) (src3 : VexSrc3)
  /-- Row 6, R155. -/
  | vfmadd231pdVex256 (pfx : List LegacyPrefix) (dest src2 : BitVec 4) (src3 : VexSrc3)
  /-- Row 7, R166. -/
  | vfmadd132pdEvex128 (pfx : List LegacyPrefix) (mask : Masking) (dest src2 : VReg) (src3 : EvexSrc3)
  /-- Row 8, R167. -/
  | vfmadd213pdEvex128 (pfx : List LegacyPrefix) (mask : Masking) (dest src2 : VReg) (src3 : EvexSrc3)
  /-- Row 9, R168. -/
  | vfmadd231pdEvex128 (pfx : List LegacyPrefix) (mask : Masking) (dest src2 : VReg) (src3 : EvexSrc3)
  /-- Row 10, R169. -/
  | vfmadd132pdEvex256 (pfx : List LegacyPrefix) (mask : Masking) (dest src2 : VReg) (src3 : EvexSrc3)
  /-- Row 11, R170. -/
  | vfmadd213pdEvex256 (pfx : List LegacyPrefix) (mask : Masking) (dest src2 : VReg) (src3 : EvexSrc3)
  /-- Row 12, R171. -/
  | vfmadd231pdEvex256 (pfx : List LegacyPrefix) (mask : Masking) (dest src2 : VReg) (src3 : EvexSrc3)
  /-- Row 13, R172. -/
  | vfmadd132pdEvex512 (pfx : List LegacyPrefix) (mask : Masking) (dest src2 : VReg) (src3 : EvexSrc3)
  /-- Row 14, R173. -/
  | vfmadd213pdEvex512 (pfx : List LegacyPrefix) (mask : Masking) (dest src2 : VReg) (src3 : EvexSrc3)
  /-- Row 15, R174. -/
  | vfmadd231pdEvex512 (pfx : List LegacyPrefix) (mask : Masking) (dest src2 : VReg) (src3 : EvexSrc3)
  /-- Row 16, R172 with R163: embedded rounding. -/
  | vfmadd132pdEvex512Er (pfx : List LegacyPrefix) (rc : RoundingMode) (mask : Masking) (dest src2 src3 : VReg)
  /-- Row 17, R173 with R163: embedded rounding. -/
  | vfmadd213pdEvex512Er (pfx : List LegacyPrefix) (rc : RoundingMode) (mask : Masking) (dest src2 src3 : VReg)
  /-- Row 18, R174 with R163: embedded rounding. -/
  | vfmadd231pdEvex512Er (pfx : List LegacyPrefix) (rc : RoundingMode) (mask : Masking) (dest src2 src3 : VReg)
  deriving DecidableEq, Repr

end Sys2Proof
end

