-- ==== Sys2Proof/Config.lean ====
section
/-! DEFINITION. What an implementation fixes (spec/00_scope.md R6) and the free values the spec leaves open.

The parameters of R6 are "arguments of the step function and do not change during a run" (R41). The step
takes one argument, the state, so they travel in it as the plain record `Config` (notes/assumptions/1.md),
which no step changes. `Translate` is the table `State.xlat` (notes/assumptions/2.md) and `AlignCheck` is
computed from the registers that R53 names. The constants with no body are free values: nothing can be
proved of their value. -/

namespace Sys2Proof

/-- `LAW`, the implemented linear-address width: 48 or 57 bits (R6, R60). -/
inductive LinearWidth where
  | bits48
  | bits57
  deriving DecidableEq, Repr

/-- The number of significant address bits (R60). -/
def LinearWidth.width : LinearWidth → Nat
  | .bits48 => 48
  | .bits57 => 57

/-- `NaNPick` (R128, U1): which NaN operand is propagated when several operands are NaNs. -/
inductive NaNRule where
  /-- The recommended instance of R128: the first NaN in the order `x`, `y`, `z`. -/
  | firstOperand
  /-- Any instance: the choice is the free value `Config.nanPick`. -/
  | anyOperand
  deriving DecidableEq, Repr

/-- `fma64` (R6, D28): which per-element function the machine computes with. -/
inductive FmaRule where
  /-- The recommended instance `FMA` of spec/40_fma_numerics.md. -/
  | recommended
  /-- Any instance: the function is the free value `Config.fmaInstance`. -/
  | anyInstance
  deriving DecidableEq, Repr

namespace Machine

/-- Exceptions detected on the operands (R120). -/
structure PreFlags where
  ie : Bool
  de : Bool
  deriving DecidableEq, Repr, Inhabited

/-- Exceptions detected on the result (R120). -/
structure PostFlags where
  oe : Bool
  ue : Bool
  pe : Bool
  deriving DecidableEq, Repr, Inhabited

/-- The triple that `fma64` returns (R120). -/
structure FmaResult where
  res : E64
  pre : PreFlags
  post : PostFlags
  deriving DecidableEq, Repr, Inhabited

/-- What `fma64` takes beside its operands (R120): the rounding mode, `DAZ`, `FTZ`, `OM`, `UM`, and the NaN rule. -/
structure FpControl where
  rc : RoundingMode
  daz : Bool
  ftz : Bool
  om : Bool
  um : Bool
  nanRule : NaNRule
  deriving DecidableEq, Repr

end Machine

/-- The parameters of R6 that are plain values. -/
structure Config where
  /-- CPUID flag `FMA` (R34). -/
  hasFMA : Bool
  /-- CPUID flag `AVX512F` (R34); it also fixes `MAX_VL` and `NVEC` (R6, R23). -/
  hasAVX512F : Bool
  /-- CPUID flag `AVX512VL` (R34). -/
  hasAVX512VL : Bool
  /-- `KW`: opmask registers are 64 bits wide when true, 16 when false (R25). -/
  wideOpmask : Bool
  /-- `LAW` (R60). -/
  law : LinearWidth
  /-- `FaultSuppression` (R56, D11). -/
  faultSuppression : Bool
  /-- `NaNPick` (R128, D9). -/
  nanRule : NaNRule
  /-- `fma64` (R120, R141, D28). -/
  fmaRule : FmaRule
  /-- `EndAddr` (R224, D15); `none` when the host has named no end of the run. -/
  endAddr : Option Addr
  deriving DecidableEq, Repr

/-- `MAX_VL`, in bits (R6, D7). -/
def Config.maxVL (c : Config) : Nat := if c.hasAVX512F then 512 else 256

/-- `NVEC`, the number of vector registers (R6, R23). -/
def Config.nvec (c : Config) : Nat := if c.hasAVX512F then 32 else 16

/-- `KW`, the width of an opmask register in bits (R6, R25). -/
def Config.kw (c : Config) : Nat := if c.wideOpmask then 64 else 16

/-- Free value (U1, R128): the operand `NaNRule.anyOperand` propagates, as a function of the three
operands; used only where it names a NaN. notes/assumptions/5.md -/
opaque Config.nanPick (x y z : E64) : Fin 3

/-- Free value (U9, R60): whether a non-canonical access at this linear address, under an ignored segment
override that names or hides the stack segment, reports `#SS(0)` (true) or `#GP(0)` (false).
notes/assumptions/6.md -/
opaque Config.overriddenStackIsSS (la : Addr) : Bool

/-- Free value (R6, R141, D28): the per-element function that `FmaRule.anyInstance` stands for. Nothing is known of it; a proof
that needs a property of R141 takes it as a hypothesis. notes/assumptions/7.md -/
opaque Config.fmaInstance (p : Machine.FpControl) (x y z : E64) : Machine.FmaResult

end Sys2Proof
end

