-- ==== Sys2Proof/Decode.lean ====
section
/-! DEFINITION. Decoding and encoding (spec/30_encoding.md R80 to R107). `decode` is total on any list of bytes and
rejects by name; `encode` writes the bytes of an instruction from the same encoding tables; `opcodeTable`
is R102 as mask and match. -/

namespace Sys2Proof

/-! ## Fields shared by both directions -/

/-- `RC`, the two-bit encoding of a rounding mode (R29), used by `MXCSR.RC` and `EVEX.RC` alike. -/
def roundingOfBits (b : BitVec 2) : RoundingMode :=
  if b = 0b00#2 then .rn else if b = 0b01#2 then .rd else if b = 0b10#2 then .ru else .rz

/-- The inverse of `roundingOfBits` (R29). -/
def roundingBits : RoundingMode → BitVec 2
  | .rn => 0b00#2
  | .rd => 0b01#2
  | .ru => 0b10#2
  | .rz => 0b11#2

/-- The opcode bytes of the three mnemonics (R84). -/
def kindOfOpcode (b : Byte) : Option Kind :=
  if b = 0x98#8 then some .k132 else if b = 0xA8#8 then some .k213 else if b = 0xB8#8 then some .k231 else none

/-- The opcode byte of a mnemonic (R84). -/
def opcodeOfKind : Kind → Byte
  | .k132 => 0x98#8
  | .k213 => 0xA8#8
  | .k231 => 0xB8#8

/-- The legacy prefix a byte stands for, if it is one (R85). -/
def prefixOfByte (b : Byte) : Option LegacyPrefix :=
  if b = 0x26#8 then some .es
  else if b = 0x2E#8 then some .cs
  else if b = 0x36#8 then some .ss
  else if b = 0x3E#8 then some .ds
  else if b = 0x64#8 then some .fs
  else if b = 0x65#8 then some .gs
  else if b = 0x67#8 then some .addr32
  else if b = 0xF0#8 then some .lock
  else if b = 0x66#8 then some .opSize
  else if b = 0xF2#8 then some .repne
  else if b = 0xF3#8 then some .rep
  else if b.extractLsb' 4 4 = 0x4#4 then some (.rex (b.extractLsb' 0 4))
  else none

/-- The byte of a legacy prefix (R85). -/
def byteOfPrefix : LegacyPrefix → Byte
  | .es => 0x26#8
  | .cs => 0x2E#8
  | .ss => 0x36#8
  | .ds => 0x3E#8
  | .fs => 0x64#8
  | .gs => 0x65#8
  | .addr32 => 0x67#8
  | .lock => 0xF0#8
  | .opSize => 0x66#8
  | .repne => 0xF2#8
  | .rep => 0xF3#8
  | .rex wrxb => 0x4#4 ++ wrxb

/-- The prefixes that make an instruction of the family raise `#UD` (R85). -/
def forbiddenPrefix : LegacyPrefix → Bool
  | .lock | .opSize | .repne | .rep | .rex _ => true
  | .es | .cs | .ss | .ds | .fs | .gs | .addr32 => false

/-- The leading legacy prefixes of a byte string, and what follows them (R85, R95). -/
def splitPrefixes : List Byte → List LegacyPrefix × List Byte
  | [] => ([], [])
  | b :: rest =>
    match prefixOfByte b with
    | none => ([], b :: rest)
    | some p => (p :: (splitPrefixes rest).1, (splitPrefixes rest).2)

/-- The constructor of a VEX row: mnemonic and `VEX.L` (R102, rows 1 to 6). -/
def mkVex : Kind → VexLen → List LegacyPrefix → BitVec 4 → BitVec 4 → VexSrc3 → Instr
  | .k132, .v128 => .vfmadd132pdVex128
  | .k213, .v128 => .vfmadd213pdVex128
  | .k231, .v128 => .vfmadd231pdVex128
  | .k132, .v256 => .vfmadd132pdVex256
  | .k213, .v256 => .vfmadd213pdVex256
  | .k231, .v256 => .vfmadd231pdVex256

/-- The constructor of an EVEX row without embedded rounding: mnemonic and length (R102, rows 7 to 15). -/
def mkEvex : Kind → EvexLen → List LegacyPrefix → Masking → VReg → VReg → EvexSrc3 → Instr
  | .k132, .v128 => .vfmadd132pdEvex128
  | .k213, .v128 => .vfmadd213pdEvex128
  | .k231, .v128 => .vfmadd231pdEvex128
  | .k132, .v256 => .vfmadd132pdEvex256
  | .k213, .v256 => .vfmadd213pdEvex256
  | .k231, .v256 => .vfmadd231pdEvex256
  | .k132, .v512 => .vfmadd132pdEvex512
  | .k213, .v512 => .vfmadd213pdEvex512
  | .k231, .v512 => .vfmadd231pdEvex512

/-- The constructor of an embedded-rounding row (R102, rows 16 to 18). -/
def mkEr : Kind → List LegacyPrefix → RoundingMode → Masking → VReg → VReg → VReg → Instr
  | .k132 => .vfmadd132pdEvex512Er
  | .k213 => .vfmadd213pdEvex512Er
  | .k231 => .vfmadd231pdEvex512Er

/-! ## Decoding -/

/-- What a byte string is. -/
inductive Decoded where
  /-- An instruction: the bytes match a row of R102. -/
  | instr (i : Instr)
  /-- An illegal encoding inside the family's space, `#UD`: reserved EVEX bits (R103) or `L'L = 11b` outside
  the embedded-rounding register form (R104). -/
  | reserved
  /-- Not an instruction of this family (R106). -/
  | outside
  /-- The byte string ends before the instruction does. -/
  | truncated
  deriving DecidableEq, Repr

/-- A 32-bit displacement, least significant byte first (R94). -/
def disp32At : List Byte → Option (BitVec 32)
  | b0 :: b1 :: b2 :: b3 :: _ => some (b3 ++ b2 ++ b1 ++ b0)
  | _ => none

/-- The displacement that `ModRM.mod` announces (R94); `none` when the bytes end too early. -/
def dispAt (md : BitVec 2) (rest : List Byte) : Option Disp :=
  if md = 0b01#2 then
    match rest with
    | d :: _ => some (.disp8 d)
    | [] => none
  else if md = 0b10#2 then (disp32At rest).map .disp32
  else some .none

/-- The memory operand that follows a ModRM byte with `mod != 11b` (R57, R92 to R94, R98); `x` and `b` are the true
extension bits of the prefix. -/
def memAt (x b : BitVec 1) (md : BitVec 2) (rm : BitVec 3) (rest : List Byte) : Option MemOperand :=
  if rm = 0b100#3 then
    match rest with
    | [] => none
    | sib :: rest =>
      let scale : BitVec 2 := sib.extractLsb' 6 2
      let index : Gpr := x ++ sib.extractLsb' 3 3
      let base : BitVec 3 := sib.extractLsb' 0 3
      if md = 0b00#2 ∧ base = 0b101#3 then (disp32At rest).map (.sibNoBase scale index)
      else (dispAt md rest).map (.sib scale index (b ++ base))
  else if md = 0b00#2 ∧ rm = 0b101#3 then (disp32At rest).map .ripRel
  else (dispAt md rest).map (.based (b ++ rm))

/-- ModRM and what follows it of a VEX form, byte 1 and byte 2 of the prefix given (R81, R82, R96). -/
def vexOperands (pfx : List LegacyPrefix) (k : Kind) (b1 b2 modrm : Byte) (rest : List Byte) : Decoded :=
  let r : BitVec 1 := ~~~ b1.extractLsb' 7 1
  let x : BitVec 1 := ~~~ b1.extractLsb' 6 1
  let b : BitVec 1 := ~~~ b1.extractLsb' 5 1
  let w : VexLen := if b2.extractLsb' 2 1 = 0#1 then .v128 else .v256
  let dest : BitVec 4 := r ++ modrm.extractLsb' 3 3
  let src2 : BitVec 4 := ~~~ b2.extractLsb' 3 4
  let md : BitVec 2 := modrm.extractLsb' 6 2
  let rm : BitVec 3 := modrm.extractLsb' 0 3
  if md = 0b11#2 then .instr (mkVex k w pfx dest src2 (.reg (b ++ rm)))
  else
    match memAt x b md rm rest with
    | none => .truncated
    | some m => .instr (mkVex k w pfx dest src2 (.mem m))

/-- The bytes after the escape `C4H` (R81): opcode map `0F 38`, `W1`, `pp = 01b`, or not this family (R106). -/
def decodeVex (pfx : List LegacyPrefix) : List Byte → Decoded
  | [] => .truncated
  | b1 :: r1 =>
    if b1.extractLsb' 0 5 ≠ 0b00010#5 then .outside
    else
      match r1 with
      | [] => .truncated
      | b2 :: r2 =>
        if b2.extractLsb' 7 1 ≠ 1#1 ∨ b2.extractLsb' 0 2 ≠ 0b01#2 then .outside
        else
          match r2 with
          | [] => .truncated
          | op :: r3 =>
            match kindOfOpcode op with
            | none => .outside
            | some k =>
              match r3 with
              | [] => .truncated
              | modrm :: r4 => vexOperands pfx k b1 b2 modrm r4

/-- The vector length of `EVEX.L'L`; `11b` is reserved (R88). -/
def evexLenOfBits (b : BitVec 2) : Option EvexLen :=
  if b = 0b00#2 then some .v128 else if b = 0b01#2 then some .v256 else if b = 0b10#2 then some .v512 else none

/-- `EVEX.L'L` of a vector length (R88). -/
def evexLenBits : EvexLen → BitVec 2
  | .v128 => 0b00#2
  | .v256 => 0b01#2
  | .v512 => 0b10#2

/-- The instruction of an EVEX prefix with no reserved bit set (R88 to R91, R97, R102): the embedded-rounding
rows come first; `L'L = 11b` in any other form is `#UD` (R104). -/
def evexInstr (pfx : List LegacyPrefix) (k : Kind) (p2 : Byte) (dest src2 : VReg)
    (src3 : VReg ⊕ MemOperand) : Decoded :=
  let ll : BitVec 2 := p2.extractLsb' 5 2
  let bc : Bool := p2.extractLsb' 4 1 = 1#1
  let mask : Masking := ⟨p2.extractLsb' 0 3, p2.extractLsb' 7 1 = 1#1⟩
  match src3, bc with
  | .inl r, true => .instr (mkEr k pfx (roundingOfBits ll) mask dest src2 r)
  | .inl r, false =>
    match evexLenOfBits ll with
    | none => .reserved
    | some w => .instr (mkEvex k w pfx mask dest src2 (.reg r))
  | .inr m, true =>
    match evexLenOfBits ll with
    | none => .reserved
    | some w => .instr (mkEvex k w pfx mask dest src2 (.bcast m))
  | .inr m, false =>
    match evexLenOfBits ll with
    | none => .reserved
    | some w => .instr (mkEvex k w pfx mask dest src2 (.full m))

/-- ModRM and what follows it of an EVEX form, the payload bytes given (R86, R87, R97). A reserved bit makes the
whole instruction `#UD` (R103), once all its bytes are there (R201: fetch faults come first). -/
def evexOperands (pfx : List LegacyPrefix) (k : Kind) (p0 p1 p2 modrm : Byte) (rest : List Byte) : Decoded :=
  let r : BitVec 1 := ~~~ p0.extractLsb' 7 1
  let x : BitVec 1 := ~~~ p0.extractLsb' 6 1
  let b : BitVec 1 := ~~~ p0.extractLsb' 5 1
  let r' : BitVec 1 := ~~~ p0.extractLsb' 4 1
  let v' : BitVec 1 := ~~~ p2.extractLsb' 3 1
  let dest : VReg := r' ++ r ++ modrm.extractLsb' 3 3
  let src2 : VReg := v' ++ ~~~ p1.extractLsb' 3 4
  let md : BitVec 2 := modrm.extractLsb' 6 2
  let rm : BitVec 3 := modrm.extractLsb' 0 3
  let reservedBits : Bool := p0.extractLsb' 2 2 ≠ 0b00#2 ∨ p1.extractLsb' 2 1 ≠ 1#1
  let finish (src3 : VReg ⊕ MemOperand) : Decoded :=
    if reservedBits then .reserved else evexInstr pfx k p2 dest src2 src3
  if md = 0b11#2 then finish (.inl (x ++ b ++ rm))
  else
    match memAt x b md rm rest with
    | none => .truncated
    | some m => finish (.inr m)

/-- The bytes after the escape `62H` (R86): opcode map `0F 38`, `W1`, `pp = 01b`, or not this family (R106). -/
def decodeEvex (pfx : List LegacyPrefix) : List Byte → Decoded
  | [] => .truncated
  | p0 :: r0 =>
    if p0.extractLsb' 0 2 ≠ 0b10#2 then .outside
    else
      match r0 with
      | [] => .truncated
      | p1 :: r1 =>
        if p1.extractLsb' 7 1 ≠ 1#1 ∨ p1.extractLsb' 0 2 ≠ 0b01#2 then .outside
        else
          match r1 with
          | [] => .truncated
          | p2 :: r2 =>
            match r2 with
            | [] => .truncated
            | op :: r3 =>
              match kindOfOpcode op with
              | none => .outside
              | some k =>
                match r3 with
                | [] => .truncated
                | modrm :: r4 => evexOperands pfx k p0 p1 p2 modrm r4

/-- What follows the legacy prefixes: `C4H` is VEX, `62H` is EVEX, anything else is not this family (R95, R226). -/
def decodeBody (pfx : List LegacyPrefix) : List Byte → Decoded
  | [] => .truncated
  | b :: rest =>
    if b = 0xC4#8 then decodeVex pfx rest
    else if b = 0x62#8 then decodeEvex pfx rest
    else .outside

/-- The instruction at the head of a byte string, in ascending address order (R80, R226). -/
def decode (bytes : List Byte) : Decoded :=
  decodeBody (splitPrefixes bytes).1 (splitPrefixes bytes).2

/-! ## Lengths and encoding -/

/-- Bytes of a displacement (R95). -/
def Disp.size : Disp → Nat
  | .none => 0
  | .disp8 _ => 1
  | .disp32 _ => 4

/-- Bytes that follow ModRM: SIB and displacement (R95). -/
def MemOperand.tailSize : MemOperand → Nat
  | .based _ d => d.size
  | .ripRel _ => 4
  | .sib _ _ _ d => 1 + d.size
  | .sibNoBase _ _ _ => 5

/-- Length in bytes of a VEX form, legacy prefixes included (R95). -/
def vexSize (pfx : List LegacyPrefix) (src3 : VexSrc3) : Nat :=
  pfx.length + 3 + 2 + match src3 with
    | .reg _ => 0
    | .mem m => m.tailSize

/-- Length in bytes of an EVEX form, legacy prefixes included (R95). -/
def evexSize (pfx : List LegacyPrefix) (src3 : EvexSrc3) : Nat :=
  pfx.length + 4 + 2 + match src3 with
    | .reg _ => 0
    | .full m => m.tailSize
    | .bcast m => m.tailSize

/-- Length in bytes of an instruction (R95). -/
def Instr.size : Instr → Nat
  | .vfmadd132pdVex128 pfx _ _ r => vexSize pfx r
  | .vfmadd213pdVex128 pfx _ _ r => vexSize pfx r
  | .vfmadd231pdVex128 pfx _ _ r => vexSize pfx r
  | .vfmadd132pdVex256 pfx _ _ r => vexSize pfx r
  | .vfmadd213pdVex256 pfx _ _ r => vexSize pfx r
  | .vfmadd231pdVex256 pfx _ _ r => vexSize pfx r
  | .vfmadd132pdEvex128 pfx _ _ _ r => evexSize pfx r
  | .vfmadd213pdEvex128 pfx _ _ _ r => evexSize pfx r
  | .vfmadd231pdEvex128 pfx _ _ _ r => evexSize pfx r
  | .vfmadd132pdEvex256 pfx _ _ _ r => evexSize pfx r
  | .vfmadd213pdEvex256 pfx _ _ _ r => evexSize pfx r
  | .vfmadd231pdEvex256 pfx _ _ _ r => evexSize pfx r
  | .vfmadd132pdEvex512 pfx _ _ _ r => evexSize pfx r
  | .vfmadd213pdEvex512 pfx _ _ _ r => evexSize pfx r
  | .vfmadd231pdEvex512 pfx _ _ _ r => evexSize pfx r
  | .vfmadd132pdEvex512Er pfx _ _ _ _ r => evexSize pfx (.reg r)
  | .vfmadd213pdEvex512Er pfx _ _ _ _ r => evexSize pfx (.reg r)
  | .vfmadd231pdEvex512Er pfx _ _ _ _ r => evexSize pfx (.reg r)

/-- Bit 3 of a four-bit register number: its extension bit (R82). -/
def extBit (r : BitVec 4) : BitVec 1 := r.extractLsb' 3 1

/-- The three low bits of a four-bit register number (R92). -/
def lowBits (r : BitVec 4) : BitVec 3 := r.extractLsb' 0 3

/-- `ModRM.mod` of a displacement (R92). -/
def modOfDisp : Disp → BitVec 2
  | .none => 0b00#2
  | .disp8 _ => 0b01#2
  | .disp32 _ => 0b10#2

/-- A 32-bit displacement as bytes, least significant first (R94). -/
def bytesOf32 (d : BitVec 32) : List Byte :=
  [d.extractLsb' 0 8, d.extractLsb' 8 8, d.extractLsb' 16 8, d.extractLsb' 24 8]

/-- The bytes of a displacement (R94). -/
def dispBytes : Disp → List Byte
  | .none => []
  | .disp8 d => [d]
  | .disp32 d => bytesOf32 d

/-- The fields a memory operand sets: true `X` and `B`, `mod`, `rm`, and the bytes after ModRM (R92 to R94, R98).
Extension bits that a form ignores (R107) are 0, stored as 1. -/
structure MemFields where
  x : BitVec 1
  b : BitVec 1
  md : BitVec 2
  rm : BitVec 3
  tail : List Byte
  deriving DecidableEq, Repr

/-- The encoding of a memory operand (R57, R92 to R94, R98). -/
def memFields : MemOperand → MemFields
  | .based base d => ⟨0#1, extBit base, modOfDisp d, lowBits base, dispBytes d⟩
  | .ripRel d => ⟨0#1, 0#1, 0b00#2, 0b101#3, bytesOf32 d⟩
  | .sib scale index base d =>
    ⟨extBit index, extBit base, modOfDisp d, 0b100#3, (scale ++ lowBits index ++ lowBits base) :: dispBytes d⟩
  | .sibNoBase scale index d =>
    ⟨extBit index, 0#1, 0b00#2, 0b100#3, (scale ++ lowBits index ++ 0b101#3) :: bytesOf32 d⟩

/-- The fields of a register operand with a four-bit number: `X` is ignored (R96, R107). -/
def regFields (r : BitVec 4) : MemFields := ⟨0#1, extBit r, 0b11#2, lowBits r, []⟩

/-- The fields of a register operand with a five-bit number: `X` is bit 4 (R97). -/
def regFields5 (r : VReg) : MemFields := ⟨r.extractLsb' 4 1, r.extractLsb' 3 1, 0b11#2, r.extractLsb' 0 3, []⟩

/-- The bytes of a VEX form (R81, R96). -/
def encodeVex (k : Kind) (w : VexLen) (pfx : List LegacyPrefix) (dest src2 : BitVec 4) (src3 : VexSrc3) : List Byte :=
  let f := match src3 with
    | .reg r => regFields r
    | .mem m => memFields m
  let l : BitVec 1 := match w with
    | .v128 => 0#1
    | .v256 => 1#1
  pfx.map byteOfPrefix ++
    [0xC4#8, ~~~ extBit dest ++ ~~~ f.x ++ ~~~ f.b ++ 0b00010#5, 1#1 ++ ~~~ src2 ++ l ++ 0b01#2,
      opcodeOfKind k, f.md ++ lowBits dest ++ f.rm] ++ f.tail

/-- The bytes of an EVEX form, `L'L` and `b` given (R86, R97). -/
def encodeEvexFields (k : Kind) (ll : BitVec 2) (b : BitVec 1) (pfx : List LegacyPrefix) (mask : Masking)
    (dest src2 : VReg) (f : MemFields) : List Byte :=
  pfx.map byteOfPrefix ++
    [0x62#8,
      ~~~ dest.extractLsb' 3 1 ++ ~~~ f.x ++ ~~~ f.b ++ ~~~ dest.extractLsb' 4 1 ++ 0b00#2 ++ 0b10#2,
      1#1 ++ ~~~ src2.extractLsb' 0 4 ++ 1#1 ++ 0b01#2,
      BitVec.ofBool mask.z ++ ll ++ b ++ ~~~ src2.extractLsb' 4 1 ++ mask.aaa,
      opcodeOfKind k, f.md ++ dest.extractLsb' 0 3 ++ f.rm] ++ f.tail

/-- The bytes of an EVEX form without embedded rounding (R88, R90, R97). -/
def encodeEvex (k : Kind) (w : EvexLen) (pfx : List LegacyPrefix) (mask : Masking) (dest src2 : VReg)
    (src3 : EvexSrc3) : List Byte :=
  match src3 with
  | .reg r => encodeEvexFields k (evexLenBits w) 0#1 pfx mask dest src2 (regFields5 r)
  | .full m => encodeEvexFields k (evexLenBits w) 0#1 pfx mask dest src2 (memFields m)
  | .bcast m => encodeEvexFields k (evexLenBits w) 1#1 pfx mask dest src2 (memFields m)

/-- The bytes of an embedded-rounding form: `b = 1`, `mod = 11b`, `RC` in place of `L'L` (R91). -/
def encodeEr (k : Kind) (pfx : List LegacyPrefix) (rc : RoundingMode) (mask : Masking) (dest src2 src3 : VReg) :
    List Byte :=
  encodeEvexFields k (roundingBits rc) 1#1 pfx mask dest src2 (regFields5 src3)

/-- The bytes of an instruction, in ascending address order (R80, R102). -/
def encode : Instr → List Byte
  | .vfmadd132pdVex128 pfx d v r => encodeVex .k132 .v128 pfx d v r
  | .vfmadd213pdVex128 pfx d v r => encodeVex .k213 .v128 pfx d v r
  | .vfmadd231pdVex128 pfx d v r => encodeVex .k231 .v128 pfx d v r
  | .vfmadd132pdVex256 pfx d v r => encodeVex .k132 .v256 pfx d v r
  | .vfmadd213pdVex256 pfx d v r => encodeVex .k213 .v256 pfx d v r
  | .vfmadd231pdVex256 pfx d v r => encodeVex .k231 .v256 pfx d v r
  | .vfmadd132pdEvex128 pfx m d v r => encodeEvex .k132 .v128 pfx m d v r
  | .vfmadd213pdEvex128 pfx m d v r => encodeEvex .k213 .v128 pfx m d v r
  | .vfmadd231pdEvex128 pfx m d v r => encodeEvex .k231 .v128 pfx m d v r
  | .vfmadd132pdEvex256 pfx m d v r => encodeEvex .k132 .v256 pfx m d v r
  | .vfmadd213pdEvex256 pfx m d v r => encodeEvex .k213 .v256 pfx m d v r
  | .vfmadd231pdEvex256 pfx m d v r => encodeEvex .k231 .v256 pfx m d v r
  | .vfmadd132pdEvex512 pfx m d v r => encodeEvex .k132 .v512 pfx m d v r
  | .vfmadd213pdEvex512 pfx m d v r => encodeEvex .k213 .v512 pfx m d v r
  | .vfmadd231pdEvex512 pfx m d v r => encodeEvex .k231 .v512 pfx m d v r
  | .vfmadd132pdEvex512Er pfx rc m d v r => encodeEr .k132 pfx rc m d v r
  | .vfmadd213pdEvex512Er pfx rc m d v r => encodeEr .k213 pfx rc m d v r
  | .vfmadd231pdEvex512Er pfx rc m d v r => encodeEr .k231 pfx rc m d v r

/-! ## The opcode table of R102 -/

/-- A row of the opcode table: its number, and its fixed bits as match and mask over the first `width` bytes after
the legacy prefixes, the first byte most significant. -/
structure OpcodeRow where
  row : Nat
  width : Nat
  pattern : Nat
  mask : Nat
  deriving DecidableEq, Repr

/-- R102 in decoding order: the embedded-rounding rows 16 to 18 stand before rows 7 to 15. -/
def opcodeTable : List OpcodeRow :=
  [⟨1, 5, 0xC402819800, 0xFF1F87FF00⟩, ⟨2, 5, 0xC40281A800, 0xFF1F87FF00⟩, ⟨3, 5, 0xC40281B800, 0xFF1F87FF00⟩,
   ⟨4, 5, 0xC402859800, 0xFF1F87FF00⟩, ⟨5, 5, 0xC40285A800, 0xFF1F87FF00⟩, ⟨6, 5, 0xC40285B800, 0xFF1F87FF00⟩,
   ⟨16, 6, 0x6202851098C0, 0xFF0F8710FFC0⟩, ⟨17, 6, 0x62028510A8C0, 0xFF0F8710FFC0⟩,
   ⟨18, 6, 0x62028510B8C0, 0xFF0F8710FFC0⟩,
   ⟨7, 6, 0x620285009800, 0xFF0F8760FF00⟩, ⟨8, 6, 0x62028500A800, 0xFF0F8760FF00⟩,
   ⟨9, 6, 0x62028500B800, 0xFF0F8760FF00⟩, ⟨10, 6, 0x620285209800, 0xFF0F8760FF00⟩,
   ⟨11, 6, 0x62028520A800, 0xFF0F8760FF00⟩, ⟨12, 6, 0x62028520B800, 0xFF0F8760FF00⟩,
   ⟨13, 6, 0x620285409800, 0xFF0F8760FF00⟩, ⟨14, 6, 0x62028540A800, 0xFF0F8760FF00⟩,
   ⟨15, 6, 0x62028540B800, 0xFF0F8760FF00⟩]

/-- The bytes as one number, the first byte most significant. -/
def bytesAsNumber (bytes : List Byte) : Nat :=
  bytes.foldl (fun n b => n * 256 + b.toNat) 0

/-- Whether the fixed bits of a row stand at the head of the bytes (R102). -/
def OpcodeRow.matchesBytes (r : OpcodeRow) (bytes : List Byte) : Bool :=
  r.width ≤ bytes.length ∧ Nat.land (bytesAsNumber (bytes.take r.width)) r.mask = r.pattern

/-- The first matching row, in decoding order (R102). -/
def firstRow (bytes : List Byte) : Option Nat :=
  (opcodeTable.find? (fun r => r.matchesBytes bytes)).map OpcodeRow.row

/-- The row number of an instruction in R102. -/
def Instr.row : Instr → Nat
  | .vfmadd132pdVex128 .. => 1
  | .vfmadd213pdVex128 .. => 2
  | .vfmadd231pdVex128 .. => 3
  | .vfmadd132pdVex256 .. => 4
  | .vfmadd213pdVex256 .. => 5
  | .vfmadd231pdVex256 .. => 6
  | .vfmadd132pdEvex128 .. => 7
  | .vfmadd213pdEvex128 .. => 8
  | .vfmadd231pdEvex128 .. => 9
  | .vfmadd132pdEvex256 .. => 10
  | .vfmadd213pdEvex256 .. => 11
  | .vfmadd231pdEvex256 .. => 12
  | .vfmadd132pdEvex512 .. => 13
  | .vfmadd213pdEvex512 .. => 14
  | .vfmadd231pdEvex512 .. => 15
  | .vfmadd132pdEvex512Er .. => 16
  | .vfmadd213pdEvex512Er .. => 17
  | .vfmadd231pdEvex512Er .. => 18

/-! ## The host's table words -/

/-- The longest instruction, in bytes (R80). -/
def maxInstrBytes : Nat := 15

/-- An instruction given as a number whose bit 0 is the least significant bit of its first byte, as the bytes the
hardware stores, the bits above `nbits` zero. -/
def tableBytes (nbits w : Nat) : List Byte :=
  (List.range maxInstrBytes).map (fun k => BitVec.ofNat 8 ((w % 2 ^ nbits) / 2 ^ (8 * k)))

/-- The instruction the decoder reads from a word of spec/opcode_table.json, numbered as the host numbers it. -/
def decodeTableWord (nbits w : Nat) : Option Instr :=
  match decode (tableBytes nbits w) with
  | .instr i => some i
  | .reserved | .outside | .truncated => none

end Sys2Proof
end

