-- ==== Sys2Proof/Machine/Fma.lean ====
section
/-! DEFINITION. The per-element fused multiply-add `FMA` (spec/40_fma_numerics.md R120 to R138). Finite operands are
computed exactly in integers, in units of `2^-2148` (R131), and rounded once. -/

namespace Sys2Proof.Machine

/-! ## Format and classes (R121, R122) -/

/-- The sign bit. -/
def signOf (w : E64) : Bool := w.getLsbD 63

/-- The biased exponent, bits 62:52. -/
def expOf (w : E64) : Nat := (w.extractLsb' 52 11).toNat

/-- The fraction, bits 51:0. -/
def fracOf (w : E64) : Nat := (w.extractLsb' 0 52).toNat

/-- The classes of R122. -/
inductive FpClass where
  | zero
  | denormal
  | normal
  | infinity
  | snan
  | qnan
  deriving DecidableEq, Repr

/-- The class of an element (R122). -/
def classOf (w : E64) : FpClass :=
  if expOf w = 0 then (if fracOf w = 0 then .zero else .denormal)
  else if expOf w = 2047 then
    (if fracOf w = 0 then .infinity else if w.getLsbD 51 then .qnan else .snan)
  else .normal

/-- A NaN, signalling or quiet. -/
def isNaN (w : E64) : Bool := classOf w == .snan || classOf w == .qnan

/-- A zero, denormal or normal: `val w` is a real number (R122). -/
def isFinite (w : E64) : Bool := classOf w == .zero || classOf w == .denormal || classOf w == .normal

/-- A zero, infinity or other element from a sign bit and the other 63 bits. -/
def withSign (neg : Bool) (low : BitVec 63) : E64 := BitVec.ofBool neg ++ low

/-- The zero of a sign (R122). -/
def zeroE (neg : Bool) : E64 := withSign neg 0#63

/-- The infinity of a sign (R122). -/
def infE (neg : Bool) : E64 := withSign neg 0x7FF0000000000000#63

/-- `MAXD`, the largest finite magnitude, of a sign (R122). -/
def maxE (neg : Bool) : E64 := withSign neg 0x7FEFFFFFFFFFFFFF#63

/-- The QNaN floating-point indefinite (R127). -/
def indefinite : E64 := 0xFFF8000000000000#64

/-- `quiet`: bit 51 set (R122). -/
def quiet (w : E64) : E64 := w ||| 0x0008000000000000#64

/-- `|val w| * 2^1074` of a finite element (R122). -/
def magUnits (w : E64) : Nat :=
  if expOf w = 0 then fracOf w else (2 ^ 52 + fracOf w) * 2 ^ (expOf w - 1)

/-- `val w * 2^1074` of a finite element (R122). -/
def valUnits (w : E64) : Int := if signOf w then -(magUnits w : Int) else (magUnits w : Int)

/-- `E * 2^2148` for finite operands, `E = val x * val y + val z` (R131). -/
def exactUnits (x y z : E64) : Int := valUnits x * valUnits y + valUnits z * 2 ^ 1074

/-! ## Results -/

/-- No exception on the result. -/
def PostFlags.clear : PostFlags := ⟨false, false, false⟩

/-! ## Operands (R123 to R130) -/

/-- Denormals-are-zero on one operand (R123). -/
def dazOperand (daz : Bool) (w : E64) : E64 :=
  if daz && classOf w == .denormal then zeroE (signOf w) else w

/-- The first NaN in the order `x`, `y`, `z` (R128). -/
def firstNaN (x y z : E64) : E64 := if isNaN x then x else if isNaN y then y else z

/-- `NaNPick` (R128): by the rule; a free choice that does not name a NaN falls back to the first NaN, so the
value is always one of the arguments that is a NaN. -/
def nanPick (rule : NaNRule) (x y z : E64) : E64 :=
  match rule with
  | .firstOperand => firstNaN x y z
  | .anyOperand =>
    let pick : E64 := if Config.nanPick x y z = 0 then x else if Config.nanPick x y z = 1 then y else z
    if isNaN pick then pick else firstNaN x y z

/-- The sign of the product (R126, R130, R132). -/
def productSign (x y : E64) : Bool := signOf x ^^ signOf y

/-- `inf * 0` in either order (R126 a). -/
def infTimesZero (x y : E64) : Bool :=
  (classOf x == .infinity && classOf y == .zero) || (classOf x == .zero && classOf y == .infinity)

/-- `inf - inf`: an infinite product against an infinite addend of the other sign (R126 b). -/
def infMinusInf (x y z : E64) : Bool :=
  (classOf x == .infinity || classOf y == .infinity) && classOf z == .infinity && productSign x y != signOf z

/-- The invalid operation on operands that are not NaNs (R126). -/
def invalidOp (x y z : E64) : Bool := infTimesZero x y || infMinusInf x y z

/-- Some operand is a denormal (R129). -/
def someDenormal (x y z : E64) : Bool :=
  classOf x == .denormal || classOf y == .denormal || classOf z == .denormal

/-! ## Rounding (R132 to R137) -/

/-- Whether rounding takes the candidate of larger magnitude, `rem` being the nonzero distance from the smaller one
in units of which the candidates lie `2^g` apart (R133). -/
def roundsAway (rc : RoundingMode) (neg odd : Bool) (g rem : Nat) : Bool :=
  match rc with
  | .rn => decide (2 ^ g < 2 * rem) || (decide (2 * rem = 2 ^ g) && odd)
  | .rd => neg
  | .ru => !neg
  | .rz => false

/-- The rounding of a magnitude `a` to a multiple of `2^g`, as that multiple's index (R133). -/
def roundIndex (rc : RoundingMode) (neg : Bool) (g a : Nat) : Nat :=
  let lo := a / 2 ^ g
  let rem := a % 2 ^ g
  if rem ≠ 0 && roundsAway rc neg (lo % 2 == 1) g rem then lo + 1 else lo

/-- The rounding of a magnitude to a multiple of `2^g` (R133). -/
def roundMag (rc : RoundingMode) (neg : Bool) (g a : Nat) : Nat := roundIndex rc neg g a * 2 ^ g

/-- `|Ru| * 2^2148`: 53 significant bits, unbounded exponent range (R133). -/
def roundUnbounded (rc : RoundingMode) (neg : Bool) (a : Nat) : Nat := roundMag rc neg (Nat.log2 a - 52) a

/-- `|Rd| * 2^2148`: the rounding to a multiple of `2^-1074` (R135 c). -/
def roundDenormal (rc : RoundingMode) (neg : Bool) (a : Nat) : Nat := roundMag rc neg 1074 a

/-- `2^1024 * 2^2148`: a rounded magnitude at or above it overflows (R134). -/
def overflowUnits : Nat := 2 ^ 3172

/-- `2^-1022 * 2^2148`: a rounded magnitude below it is tiny (R135). -/
def tinyUnits : Nat := 2 ^ 1126

/-- The masked result of an overflow (R134). -/
def overflowResult (rc : RoundingMode) (neg : Bool) : E64 :=
  match rc with
  | .rn => infE neg
  | .rd => if neg then infE true else maxE false
  | .ru => if neg then maxE true else infE false
  | .rz => maxE neg

/-- The binary64 encoding of a magnitude `u * 2^-2148` with 53 significant bits in the normal range (R122, R137). -/
def encodeNormal (neg : Bool) (u : Nat) : E64 :=
  withSign neg (BitVec.ofNat 63 ((Nat.log2 u - 1126) * 2 ^ 52 + u / 2 ^ (Nat.log2 u - 52)))

/-- The binary64 encoding of a multiple of `2^-1074` not above `2^-1022` (R122, R135 c). -/
def encodeDenormal (neg : Bool) (u : Nat) : E64 := withSign neg (BitVec.ofNat 63 (u / 2 ^ 1074))

/-- The sign of an exact zero (R132): `sp` is the product's sign, `sz` the addend's. -/
def exactZeroSign (rc : RoundingMode) (sp sz : Bool) : Bool :=
  if sp = sz then sp else decide (rc = .rd)

/-- The result and the exceptions of a nonzero exact value `±a * 2^-2148` (R133 to R137). With the exception unmasked
the result is not used. -/
def roundNonzero (p : FpControl) (neg : Bool) (a : Nat) : E64 × PostFlags :=
  let ru := roundUnbounded p.rc neg a
  if overflowUnits ≤ ru then
    (overflowResult p.rc neg, ⟨true, false, p.om || decide (ru ≠ a)⟩)
  else if ru < tinyUnits then
    let rd := roundDenormal p.rc neg a
    if !p.um then (encodeDenormal neg rd, ⟨false, true, decide (ru ≠ a)⟩)
    else if p.ftz then (zeroE neg, ⟨false, true, true⟩)
    else (encodeDenormal neg rd, ⟨false, decide (rd ≠ a), decide (rd ≠ a)⟩)
  else (encodeNormal neg ru, ⟨false, false, decide (ru ≠ a)⟩)

/-- The result and the exceptions for finite operands (R131 to R137). -/
def fmaFinite (p : FpControl) (x y z : E64) : E64 × PostFlags :=
  let e := exactUnits x y z
  if e = 0 then (zeroE (exactZeroSign p.rc (productSign x y) (signOf z)), .clear)
  else roundNonzero p (decide (e < 0)) e.natAbs

/-- The cases of R124 in their order, after denormals-are-zero (R123). -/
def fmaCases (p : FpControl) (x y z : E64) : FmaResult :=
  if isNaN x || isNaN y || isNaN z then
    ⟨quiet (nanPick p.nanRule x y z),
      ⟨classOf x == .snan || classOf y == .snan || classOf z == .snan, false⟩, .clear⟩
  else if invalidOp x y z then ⟨indefinite, ⟨true, false⟩, .clear⟩
  else if classOf x == .infinity || classOf y == .infinity then
    ⟨infE (productSign x y), ⟨false, someDenormal x y z⟩, .clear⟩
  else if classOf z == .infinity then ⟨z, ⟨false, someDenormal x y z⟩, .clear⟩
  else ⟨(fmaFinite p x y z).1, ⟨false, someDenormal x y z⟩, (fmaFinite p x y z).2⟩

/-- `FMA(x, y, z, rc, daz, ftz, om, um)` (R120): `x*y + z` with one rounding. -/
def fma64 (p : FpControl) (x y z : E64) : FmaResult :=
  fmaCases p (dazOperand p.daz x) (dazOperand p.daz y) (dazOperand p.daz z)

/-- The parameter `fma64` of R6: the recommended instance, or any (D28). -/
def elementFma (rule : FmaRule) (p : FpControl) (x y z : E64) : FmaResult :=
  match rule with
  | .recommended => fma64 p x y z
  | .anyInstance => Config.fmaInstance p x y z

/-- The order of the operands by mnemonic (R146, R160): `a` is `DEST`, `b` is `SRC2`, `c` is `SRC3`. -/
def fmaLane (kind : Kind) (rule : FmaRule) (p : FpControl) (a b c : E64) : FmaResult :=
  match kind with
  | .k132 => elementFma rule p a c b
  | .k213 => elementFma rule p b a c
  | .k231 => elementFma rule p b c a

end Sys2Proof.Machine
end

