-- ==== Sys2Proof/Machine/State.lean ====
section
/-! DEFINITION. The machine's state as plain data (spec/10_state.md R20 to R41), the exceptions, faults and refusals
(spec/60_exceptions.md R190, R200, spec/70_reset_and_hazards.md R226), and the state after reset (R38). -/

namespace Sys2Proof.Machine

/-- The operating mode: the parameter `Mode` of R6 with the modes R5 and R108 name. -/
inductive Mode where
  /-- 64-bit mode, the one mode the spec gives rules for (R6, R108). -/
  | mode64
  /-- 32-bit compatibility mode (R2, R108). -/
  | compatibility
  /-- Legacy protected mode (R108, U14). -/
  | protected32
  /-- Real-address mode, the mode after reset (R38, R220). -/
  | realAddress
  /-- Virtual-8086 mode (R108). -/
  | virtual8086
  /-- System-management mode (R5, U14). -/
  | systemManagement
  deriving DecidableEq, Repr

/-- The two kinds of access the family performs (R61). -/
inductive Access where
  | dataRead
  | fetch
  deriving DecidableEq, Repr

/-- What the translation says of one linear byte address (R61). -/
inductive XlatOutcome where
  /-- Ordinary memory: the byte is at this storage address. -/
  | storage (start : Nat)
  /-- A page fault with this error code (R61, R198), held as 32 bits: PRESUMED, notes/assumptions/28.md -/
  | pageFault (code : BitVec 32)
  /-- Device memory, outside the model (R55, R209, U11). -/
  | device
  deriving DecidableEq, Repr

/-- One line of the translation table: the linear addresses `base` to `base + size - 1`, for one access kind or for
both, for one privilege level or for all. `storage` names the storage address of the first of them. -/
structure XlatRule where
  base : Nat
  size : Nat
  access : Option Access
  level : Option (BitVec 2)
  outcome : XlatOutcome
  deriving DecidableEq, Repr

/-- Memory: address and byte pairs in one canonical form (`Memory.wf` in Machine/Ops.lean). -/
abbrev Memory := List Host.Cell

/-- The exceptions of the family (R190). Each is raised through `Machine.raise`, which ends the run (R203). -/
inductive Exn where
  /-- `#UD`, vector 6: the conditions of R192 and R194, the encodings of R103 to R105, and an unmasked SIMD
  floating-point exception with `CR4.OSXMMEXCPT = 0` (R197). Safe: the spec's own. -/
  | invalidOpcode
  /-- `#NM`, vector 7: `CR0.TS = 1` (R195). Safe: the spec's own. -/
  | deviceNotAvailable
  /-- `#SS(0)`, vector 12: a non-canonical address in the stack segment (R198). Safe: the spec's own. -/
  | stackSegment
  /-- `#GP(0)`, vector 13: a non-canonical address in another segment, or an instruction longer than 15 bytes
  (R198). Safe: the spec's own. -/
  | generalProtection
  /-- `#PF`, vector 14, with the translation's error code and the faulting linear address (R198). Safe: the spec's
  own, but for the width of the code, 32 bits: PRESUMED, notes/assumptions/28.md -/
  | pageFault (code : BitVec 32) (address : Addr)
  /-- `#AC(0)`, vector 17: a misaligned broadcast read with alignment checking on (R199). Safe: the spec's own. -/
  | alignmentCheck
  /-- `#XM`, vector 19: an unmasked SIMD floating-point exception (R196). Safe: the spec's own. -/
  | simdFloatingPoint
  deriving DecidableEq, Repr

/-- The machine: the state tuple of spec/10_state.md and the registers its rules R31 to R36 name. -/
structure State where
  /-- General registers 0 to 15 (R20). -/
  x : Vector (BitVec 64) 16
  /-- `RIP` (R21). -/
  pc : Addr
  /-- `RFLAGS` (R22). -/
  rflags : BitVec 64
  /-- Vector registers 0 to 31, 512 bits each (R23, R24). -/
  zmm : Vector Lanes 32
  /-- Opmask registers `k0` to `k7` (R25). -/
  k : Vector (BitVec 64) 8
  /-- `MXCSR` (R26). -/
  mxcsr : BitVec 32
  /-- `CR0` (R31). -/
  cr0 : BitVec 64
  /-- `CR4` (R32). -/
  cr4 : BitVec 64
  /-- `XCR0` (R33). -/
  xcr0 : BitVec 64
  /-- `FSbase` (R35). -/
  fsBase : Addr
  /-- `GSbase` (R35). -/
  gsBase : Addr
  /-- The base of `CS`, which only a mode other than 64-bit mode adds to `pc` (R35, R38). -/
  csBase : Addr
  /-- `CPL` (R36). -/
  cpl : BitVec 2
  /-- The operating mode (R6, R108). -/
  mode : Mode
  /-- `Translate` as a table, first matching line wins (R61). -/
  xlat : List XlatRule
  /-- Memory (R50). -/
  mem : Memory
  /-- `none`, or the exception that ended the run (spec/10_state.md's tuple, R203). -/
  fault : Option Exn
  /-- The parameters of R6; no step changes them (R41). -/
  cfg : Config
  deriving DecidableEq, Repr

/-- Why a step ends with a fault. -/
inductive Fault where
  /-- The terminal outcome `Fault(vector, errorcode?, address?, state)` of R200 and R203: raised by an instruction
  or its fetch through `Machine.raise`, and answered again by a step of a state that has already faulted. The state
  is the machine at the fault (R202). Safe: hardware raises the same exception. -/
  | exception (e : Exn) (atFault : State)
  deriving DecidableEq, Repr

/-- Why a step is refused: the spec gives no behaviour (R226). -/
inductive Refusal where
  /-- The instruction has no meaning yet; only exec's arms could raise it, and none does. Safe: the model stops. -/
  | notModelled (mnemonic : String)
  /-- Raised by `Machine.launch` when a step is taken outside 64-bit mode (R6, R108, D25, U14), and by `Machine.admission` when
  an instruction is run in compatibility, 32-bit protected and system-management mode, for which the spec
  gives no rules (R108, D25, U14). Safe: the model stops. -/
  | modeNotAdmitted
  /-- Raised by `Machine.admission` when bits 31:16 of `MXCSR` are not 0 (R26, U7). Safe: the model stops. -/
  | reservedMxcsr
  /-- Raised by `Machine.admission` when `RFLAGS.TF = 1`: single-stepping raises `#DB`, which the spec leaves out (R211, R222 L7).
  Safe: the model stops. -/
  | singleStep
  /-- Raised by the fetch: the bytes at the instruction pointer are not an instruction of this family (R106, U10).
  Safe: the model stops. -/
  | outsideFamily
  /-- Raised by a fetch or a read that reaches device memory (R55, R209, U11). Safe: the model stops. -/
  | deviceMemory
  /-- Raised by the step when `pc = EndAddr`: the run has ended in this state and no step is taken (R224, R226).
  Safe: the model stops. -/
  | runEnded (final : State)
  deriving DecidableEq, Repr

/-- The translation table at reset: paging is off, so a linear address is the storage address
(R38: the first fetch is at physical `FFFFFFF0H`). notes/assumptions/2.md -/
def identityXlat : List XlatRule :=
  [{ base := 0, size := 2 ^ 64, access := none, level := none, outcome := .storage 0 }]

/-- The parameters of the machine after reset: the recommended values of R6 and D9, D11, with every feature present
and `LAW = 48` as in spec/95_test_vectors.md. notes/assumptions/1.md -/
def resetConfig : Config :=
  { hasFMA := true, hasAVX512F := true, hasAVX512VL := true, wideOpmask := true, law := .bits48,
    faultSuppression := true, nanRule := .firstOperand, fmaRule := .recommended, endAddr := none }

/-- The machine right after reset (R38, R220). -/
def State.reset : State :=
  { x := Vector.replicate 16 0#64
    pc := 0xFFF0#64
    rflags := 0x2#64
    zmm := Vector.replicate 32 (Vector.replicate 8 0#64)
    k := Vector.replicate 8 0#64
    mxcsr := 0x1F80#32
    cr0 := 0x60000010#64
    cr4 := 0#64
    xcr0 := 1#64
    fsBase := 0#64
    gsBase := 0#64
    csBase := 0xFFFF0000#64
    cpl := 0#2
    mode := .realAddress
    xlat := identityXlat
    mem := []
    fault := none
    cfg := resetConfig }

end Sys2Proof.Machine
end

