-- ==== Sys2Proof/Machine/Ops.lean ====
section
/-! DEFINITION. The named operations over registers and memory, translation and the checks of a read, and raising an
exception (spec/10_state.md R20 to R36, spec/20_memory.md R50 to R62, spec/60_exceptions.md R190, R195 to R204). -/

namespace Sys2Proof.Machine

/-! ## Registers -/

/-- Read general register `r` (R8, R20). -/
def readGpr (s : State) (r : Gpr) : BitVec 64 := s.x[r.toNat]'(r.isLt)

/-- Read vector register `r` at its full width (R8, R23). -/
def readZmm (s : State) (r : VReg) : Lanes := s.zmm[r.toNat]'(r.isLt)

/-- Write vector register `r` at its full width (R24). -/
def writeZmm (s : State) (r : VReg) (v : Lanes) : State :=
  { s with zmm := s.zmm.set r.toNat v r.isLt }

/-- Read opmask register `r` (R25). -/
def readK (s : State) (r : OpmaskNum) : BitVec 64 := s.k[r.toNat]'(r.isLt)

/-- Element `j` of a vector register; an element past the register is 0 (R7). -/
def lane (v : Lanes) (j : Nat) : E64 := if h : j < 8 then v[j] else 0#64

/-- A vector register from its elements (R7). -/
def ofLanes (f : Nat → E64) : Lanes := Vector.ofFn (fun i : Fin 8 => f i.val)

/-- `CR0.TS`, bit 3 (R31). -/
def taskSwitched (s : State) : Bool := s.cr0.getLsbD 3

/-- `CR0.AM`, bit 18 (R31). -/
def alignMask (s : State) : Bool := s.cr0.getLsbD 18

/-- `CR4.OSXSAVE`, bit 18 (R32). -/
def osxsave (s : State) : Bool := s.cr4.getLsbD 18

/-- `CR4.OSXMMEXCPT`, bit 10 (R32). -/
def osxmmexcpt (s : State) : Bool := s.cr4.getLsbD 10

/-- `XCR0[2:1] = 11b`: the SSE and AVX state are enabled (R33). -/
def avxEnabled (s : State) : Bool := s.xcr0.getLsbD 1 && s.xcr0.getLsbD 2

/-- `XCR0[7:5] = 111b`: the opmask, `ZMM_Hi256` and `Hi16_ZMM` state are enabled (R33). -/
def avx512Enabled (s : State) : Bool := s.xcr0.getLsbD 5 && s.xcr0.getLsbD 6 && s.xcr0.getLsbD 7

/-- `RFLAGS.AC`, bit 18 (R22). -/
def flagAC (s : State) : Bool := s.rflags.getLsbD 18

/-- `RFLAGS.TF` (R211, R222 L7), which the spec names without a place: bit 8, as in the x86 family. PRESUMED,
notes/assumptions/27.md -/
def flagTF (s : State) : Bool := s.rflags.getLsbD 8

/-- `AlignCheck` (R53): `CR0.AM = 1`, `RFLAGS.AC = 1` and `CPL = 3`. -/
def alignCheck (s : State) : Bool := alignMask s && flagAC s && s.cpl == 3#2

/-! ## Memory -/

/-- What an address that memory does not list reads as. notes/assumptions/3.md -/
def unlistedByte : Byte := 0#8

/-- The byte at a storage address (R50). -/
def Memory.read : Memory → Nat → Byte
  | [], _ => unlistedByte
  | (b, v) :: rest, a => if a = b then v else Memory.read rest a

/-- Write one byte, keeping the canonical form (R9: no instruction of the family writes memory; loading a program
does). -/
def Memory.write : Memory → Nat → Byte → Memory
  | [], a, v => if v = unlistedByte then [] else [(a, v)]
  | (b, w) :: rest, a, v =>
    if a < b then (if v = unlistedByte then (b, w) :: rest else (a, v) :: (b, w) :: rest)
    else if a = b then (if v = unlistedByte then rest else (a, v) :: rest)
    else (b, w) :: Memory.write rest a v

/-- Write consecutive bytes, the first at `a` (R9, R51). -/
def Memory.writeBytes : Memory → Nat → List Byte → Memory
  | m, _, [] => m
  | m, a, v :: vs => Memory.writeBytes (Memory.write m a v) (a + 1) vs

/-- The canonical form above an address: rising addresses, no entry equal to what an unlisted address reads as. -/
def Memory.wfFrom : Nat → Memory → Bool
  | _, [] => true
  | lo, (a, v) :: rest => decide (lo ≤ a) && v != unlistedByte && Memory.wfFrom (a + 1) rest

/-- The canonical form of memory: equal memories are equal lists. -/
def Memory.wf (m : Memory) : Bool := Memory.wfFrom 0 m

/-! ## Addresses, translation and reads -/

/-- `a` is canonical: its bits 63 down to `LAW-1` are all equal (R60). -/
def canonical (w : LinearWidth) (a : Addr) : Bool := (a.setWidth w.width).signExtend 64 == a

/-- A line of the translation table applies to this access (R61). -/
def XlatRule.applies (r : XlatRule) (acc : Access) (cpl : BitVec 2) (a : Addr) : Bool :=
  decide (r.base ≤ a.toNat) && decide (a.toNat < r.base + r.size) &&
    (r.access == none || r.access == some acc) && (r.level == none || r.level == some cpl)

/-- The error code of a page that is not present (R198): bit 2 for a user-mode access, bit 4 (`I/D`) for an
instruction fetch. notes/assumptions/2.md; the width: notes/assumptions/28.md -/
def notPresentCode (acc : Access) (cpl : BitVec 2) : BitVec 32 :=
  (if cpl = 3#2 then 0x4#32 else 0#32) ||| (if acc = .fetch then 0x10#32 else 0#32)

/-- `Translate` for one byte address (R61): the first line that applies, else not present. -/
def translate (s : State) (acc : Access) (a : Addr) : XlatOutcome :=
  match s.xlat.find? (fun r => r.applies acc s.cpl a) with
  | none => .pageFault (notPresentCode acc s.cpl)
  | some r =>
    match r.outcome with
    | .storage start => .storage (start + (a.toNat - r.base))
    | .pageFault code => .pageFault code
    | .device => .device

/-- Why a read or a fetch does not deliver its bytes. -/
inductive ReadStop where
  /-- An exception (R198, R199). -/
  | exn (e : Exn)
  /-- Device memory (U11). -/
  | device
  deriving DecidableEq, Repr

/-- The byte at a linear address, where the translation finds storage (R61); the checks of `readStop` come first. -/
def peekByte (s : State) (a : Addr) : Byte :=
  match translate s .dataRead a with
  | .storage p => Memory.read s.mem p
  | .pageFault _ => 0#8
  | .device => 0#8

/-- Eight bytes as an element, little-endian (R51). -/
def peek64 (s : State) (a : Addr) : E64 :=
  peekByte s (a + 7#64) ++ peekByte s (a + 6#64) ++ peekByte s (a + 5#64) ++ peekByte s (a + 4#64) ++
    peekByte s (a + 3#64) ++ peekByte s (a + 2#64) ++ peekByte s (a + 1#64) ++ peekByte s a

/-- The linear address `o` bytes after `la` (R51, R57: sums wrap). -/
def byteAddr (la : Addr) (o : Nat) : Addr := la + BitVec.ofNat 64 o

/-- What the translation of one accessed byte stops with, if it stops (R61, R62). -/
def byteStop (s : State) (a : Addr) : Option ReadStop :=
  match translate s .dataRead a with
  | .storage _ => none
  | .pageFault code => some (.exn (.pageFault code a))
  | .device => some .device

/-- The accessed byte offsets in the order of their addresses, which sums modulo 2^64 give (R57, R61 b): offsets listed in rising
order, those past the top of the address space first. -/
def addressOrder (la : Addr) (offs : List Nat) : List Nat :=
  offs.filter (fun o => decide (2 ^ 64 ≤ la.toNat + o)) ++ offs.filter (fun o => !decide (2 ^ 64 ≤ la.toNat + o))

/-- The checks of `MemRead` over the accessed byte offsets, in the order of R62 and R201: non-canonical (the given
exception), alignment where it applies, then translation, lowest faulting byte address first (R61 b). -/
def readStop (s : State) (nonCanonical : Exn) (aligned8 : Bool) (la : Addr) (offs : List Nat) : Option ReadStop :=
  if offs.any (fun o => !canonical s.cfg.law (byteAddr la o)) then some (.exn nonCanonical)
  else if aligned8 && alignCheck s && !offs.isEmpty && la.extractLsb' 0 3 != 0#3 then some (.exn .alignmentCheck)
  else (addressOrder la offs).findSome? (fun o => byteStop s (byteAddr la o))

/-- The byte offsets of one element of a full-vector operand (R51). -/
def elementOffsets (j : Nat) : List Nat := (List.range 8).map (fun b => 8 * j + b)

/-- The byte offsets a full-vector read accesses (R54, R56): those of the active elements under
`FaultSuppression`, else all. -/
def fullOffsets (s : State) (kl : Nat) (m : BitVec 8) : List Nat :=
  ((List.range kl).filter (fun j => !s.cfg.faultSuppression || m.getLsbD j)).flatMap elementOffsets

/-- The byte offsets a broadcast read accesses (R54, R56): eight bytes, or none under `FaultSuppression` when no
element is active. -/
def bcastOffsets (s : State) (kl : Nat) (m : BitVec 8) : List Nat :=
  if !s.cfg.faultSuppression || (List.range kl).any (fun j => m.getLsbD j) then elementOffsets 0 else []

/-! ## Exceptions -/

/-- The vector number of an exception (R190). -/
def Exn.vector : Exn → Nat
  | .invalidOpcode => 6
  | .deviceNotAvailable => 7
  | .stackSegment => 12
  | .generalProtection => 13
  | .pageFault _ _ => 14
  | .alignmentCheck => 17
  | .simdFloatingPoint => 19

/-- The error code of an exception, where it has one (R190, R200); its width is PRESUMED (notes/assumptions/28.md). -/
def Exn.errorCode : Exn → Option (BitVec 32)
  | .invalidOpcode => none
  | .deviceNotAvailable => none
  | .stackSegment => some 0#32
  | .generalProtection => some 0#32
  | .pageFault code _ => some code
  | .alignmentCheck => some 0#32
  | .simdFloatingPoint => none

/-- The faulting linear address an exception records, where it records one (R190, R200). -/
def Exn.address : Exn → Option Addr
  | .pageFault _ a => some a
  | .invalidOpcode | .deviceNotAvailable | .stackSegment | .generalProtection | .alignmentCheck
  | .simdFloatingPoint => none

/-- The outcome of a step of this machine. -/
abbrev StepOutcome := Host.Outcome State Fault Refusal

/-- Raise an exception: the run ends with the terminal outcome of R200, in a state that records it and differs in
nothing else (R202, R203). No handler is entered and nothing returns (R204). -/
def raise (e : Exn) (s : State) : StepOutcome := .fault (.exception e { s with fault := some e })

/-- End the step as a stopped read says. -/
def stopWith (s : State) : ReadStop → StepOutcome
  | .exn e => raise e s
  | .device => .refused .deviceMemory

/-- Whether an instruction can be run in the state at all: a mode in which the spec says what it does (R38, R108, R192), the
reserved bits of `MXCSR` 0 (R26, U7, L9), and no single-stepping (R211, L7). -/
def admission (s : State) : Option Refusal :=
  match s.mode with
  | .compatibility | .protected32 | .systemManagement => some .modeNotAdmitted
  | .mode64 | .realAddress | .virtual8086 =>
    if s.mxcsr.extractLsb' 16 16 ≠ 0#16 then some .reservedMxcsr
    else if flagTF s then some .singleStep
    else none

/-- Whether a step can be taken from the state: the launch premises L1, L7 and L9, 64-bit mode the only mode (R6, R108, R222,
D25, U14). -/
def launch (s : State) : Option Refusal := if s.mode = .mode64 then admission s else some .modeNotAdmitted

end Sys2Proof.Machine
end

