-- ==== Sys2Proof/Machine/Flags.lean ====
section
/-! DEFINITION. The fields of `MXCSR` and the commit of SIMD floating-point exceptions (spec/10_state.md R26 to R30,
spec/60_exceptions.md R196, R197). No flag of `RFLAGS` is touched by the family (R22). -/

namespace Sys2Proof.Machine

/-- `MXCSR.DAZ`, bit 6 (R26). -/
def mxDAZ (m : BitVec 32) : Bool := m.getLsbD 6

/-- `MXCSR.IM`, bit 7 (R26). -/
def mxIM (m : BitVec 32) : Bool := m.getLsbD 7

/-- `MXCSR.DM`, bit 8 (R26). -/
def mxDM (m : BitVec 32) : Bool := m.getLsbD 8

/-- `MXCSR.OM`, bit 10 (R26). -/
def mxOM (m : BitVec 32) : Bool := m.getLsbD 10

/-- `MXCSR.UM`, bit 11 (R26). -/
def mxUM (m : BitVec 32) : Bool := m.getLsbD 11

/-- `MXCSR.PM`, bit 12 (R26). -/
def mxPM (m : BitVec 32) : Bool := m.getLsbD 12

/-- `MXCSR.RC`, bits 14:13 (R26, R29). -/
def mxRC (m : BitVec 32) : RoundingMode := roundingOfBits (m.extractLsb' 13 2)

/-- `MXCSR.FTZ`, bit 15 (R26). -/
def mxFTZ (m : BitVec 32) : Bool := m.getLsbD 15

/-- The control inputs of `FMA` for an instruction without embedded rounding (R146, R160). -/
def mxControl (s : State) : FpControl :=
  { rc := mxRC s.mxcsr, daz := mxDAZ s.mxcsr, ftz := mxFTZ s.mxcsr, om := mxOM s.mxcsr, um := mxUM s.mxcsr,
    nanRule := s.cfg.nanRule }

/-- The control inputs of `FMA` with embedded rounding: `RC` from the prefix, overflow and underflow as if masked,
`DAZ` and `FTZ` still from `MXCSR` (R160, R163). -/
def erControl (rc : RoundingMode) (s : State) : FpControl :=
  { rc := rc, daz := mxDAZ s.mxcsr, ftz := mxFTZ s.mxcsr, om := true, um := true, nanRule := s.cfg.nanRule }

/-- The union of two sets of operand exceptions (R196). -/
def PreFlags.union (a b : PreFlags) : PreFlags := ⟨a.ie || b.ie, a.de || b.de⟩

/-- The union of two sets of result exceptions (R196). -/
def PostFlags.union (a b : PostFlags) : PostFlags := ⟨a.oe || b.oe, a.ue || b.ue, a.pe || b.pe⟩

/-- The union over the computed elements of what `FMA` detected on the operands (R196). -/
def unionPre (rs : List FmaResult) : PreFlags := rs.foldr (fun r acc => r.pre.union acc) ⟨false, false⟩

/-- The union over the computed elements of what `FMA` detected on the results (R196). -/
def unionPost (rs : List FmaResult) : PostFlags := rs.foldr (fun r acc => r.post.union acc) .clear

/-- `bits(P)`: the flags `IE` (bit 0) and `DE` (bit 1) (R26, R196). -/
def preBits (p : PreFlags) : BitVec 32 :=
  (if p.ie then 0x1#32 else 0#32) ||| (if p.de then 0x2#32 else 0#32)

/-- `bits(Q)`: the flags `OE` (bit 3), `UE` (bit 4) and `PE` (bit 5) (R26, R196). -/
def postBits (q : PostFlags) : BitVec 32 :=
  (if q.oe then 0x8#32 else 0#32) ||| (if q.ue then 0x10#32 else 0#32) ||| (if q.pe then 0x20#32 else 0#32)

/-- `P` has an unmasked member (R196). -/
def preUnmasked (m : BitVec 32) (p : PreFlags) : Bool := (p.ie && !mxIM m) || (p.de && !mxDM m)

/-- `Q` has an unmasked member (R196). -/
def postUnmasked (m : BitVec 32) (q : PostFlags) : Bool :=
  (q.oe && !mxOM m) || (q.ue && !mxUM m) || (q.pe && !mxPM m)

/-- What `FPCommit` leaves (R196): the new `MXCSR`, and whether a SIMD floating-point exception is raised. -/
structure Commit where
  mxcsr : BitVec 32
  raises : Bool
  deriving DecidableEq, Repr

/-- `FPCommit` over the computed elements (R196): an unmasked operand exception sets the operand flags alone; otherwise
all flags are set, and an unmasked result exception is raised. -/
def fpCommit (m : BitVec 32) (rs : List FmaResult) : Commit :=
  if preUnmasked m (unionPre rs) then ⟨m ||| preBits (unionPre rs), true⟩
  else ⟨m ||| preBits (unionPre rs) ||| postBits (unionPost rs), postUnmasked m (unionPost rs)⟩

/-- How an unmasked SIMD floating-point exception is reported: `#XM`, or `#UD` when `CR4.OSXMMEXCPT = 0` (R197). -/
def simdExn (s : State) : Exn := if osxmmexcpt s then .simdFloatingPoint else .invalidOpcode

end Sys2Proof.Machine
end

