-- ==== Sys2Proof/Machine/Operands.lean ====
section
/-! DEFINITION. The operands: effective and linear addresses, the exception of a non-canonical address, the third source
and the write mask (spec/20_memory.md R53 to R62, spec/30_encoding.md R96 to R100, spec/42_vfmadd_evex.md R161, R162). -/

namespace Sys2Proof.Machine

/-! ## Addresses -/

/-- A general register as an address operand: its low 32 bits under the address-size override (R57, R59). -/
def addrReg (s : State) (a32 : Bool) (r : Gpr) : Addr :=
  if a32 then ((readGpr s r).setWidth 32).setWidth 64 else readGpr s r

/-- The displacement, an 8-bit one scaled by `n` (R94, R99, R100); `n` is 1 for VEX. -/
def dispValue (n : Nat) : Disp → Addr
  | .none => 0#64
  | .disp8 d => d.signExtend 64 * BitVec.ofNat 64 n
  | .disp32 d => d.signExtend 64

/-- The scaled index; index number `0100b` means none (R57). -/
def indexValue (s : State) (a32 : Bool) (scale : BitVec 2) (index : Gpr) : Addr :=
  if index = 0b0100#4 then 0#64 else addrReg s a32 index <<< scale.toNat

/-- The sum of R57 before any truncation; `pcNext` is the address after the instruction (R58). -/
def addressSum (s : State) (a32 : Bool) (n : Nat) (pcNext : Addr) : MemOperand → Addr
  | .based base d => addrReg s a32 base + dispValue n d
  | .ripRel d => pcNext + d.signExtend 64
  | .sib scale index base d => addrReg s a32 base + indexValue s a32 scale index + dispValue n d
  | .sibNoBase scale index d => indexValue s a32 scale index + d.signExtend 64

/-- The effective address (R57): with the override, modulo 2^32 and zero-extended (R58, R59). -/
def effectiveAddr (s : State) (a32 : Bool) (n : Nat) (pcNext : Addr) (m : MemOperand) : Addr :=
  if a32 then ((addressSum s a32 n pcNext m).setWidth 32).setWidth 64 else addressSum s a32 n pcNext m

/-- The address-size override is among the prefixes (R59). -/
def hasAddr32 (pfx : List LegacyPrefix) : Bool := pfx.any (fun p => p == .addr32)

/-- The segment whose base is added (R60). -/
inductive SegSel where
  | none
  | fs
  | gs
  deriving DecidableEq, Repr

/-- One prefix's effect on the segment choice: the last of `FS` and `GS` wins, and the other overrides change nothing
(R35, R60, D30). -/
def segStep (sel : SegSel) : LegacyPrefix → SegSel
  | .fs => .fs
  | .gs => .gs
  | .es | .cs | .ss | .ds | .addr32 | .lock | .opSize | .repne | .rep | .rex _ => sel

/-- The segment an instruction's prefixes choose (R60). -/
def segSel (pfx : List LegacyPrefix) : SegSel := pfx.foldl segStep .none

/-- `SegBase` (R35, R60). -/
def segBase (s : State) : SegSel → Addr
  | .none => 0#64
  | .fs => s.fsBase
  | .gs => s.gsBase

/-- The linear address of a memory operand (R57 to R60). -/
def linearAddr (s : State) (pfx : List LegacyPrefix) (n : Nat) (pcNext : Addr) (m : MemOperand) : Addr :=
  segBase s (segSel pfx) + effectiveAddr s (hasAddr32 pfx) n pcNext m

/-- The base register is `RSP` or `RBP`, so the default segment is the stack segment (R60). -/
def stackBased : MemOperand → Bool
  | .based base _ => base == 0b0100#4 || base == 0b0101#4
  | .sib _ _ base _ => base == 0b0100#4 || base == 0b0101#4
  | .ripRel _ => false
  | .sibNoBase _ _ _ => false

/-- One of the overrides that 64-bit mode ignores (R60). -/
def ignoredOverride : LegacyPrefix → Bool
  | .es | .cs | .ss | .ds => true
  | .fs | .gs | .addr32 | .lock | .opSize | .repne | .rep | .rex _ => false

/-- The exception of a non-canonical data address (R60, R198): `#GP(0)` under `FS` or `GS`; `#SS(0)` for a stack base with
no override; a free choice of the two where an ignored override meets a stack base or names `SS` (U9); else `#GP(0)`. -/
def nonCanonicalExn (pfx : List LegacyPrefix) (m : MemOperand) (la : Addr) : Exn :=
  if segSel pfx ≠ .none then .generalProtection
  else if (stackBased m && pfx.any ignoredOverride) || pfx.any (fun p => p == .ss) then
    (if Config.overriddenStackIsSS la then .stackSegment else .generalProtection)
  else if stackBased m then .stackSegment
  else .generalProtection

/-! ## The third source and the mask -/

/-- A third source that has been read: what stopped the read, if anything did, and its elements. -/
structure Src3 where
  stop : Option ReadStop
  elems : Nat → E64

/-- A register as third source (R146, R160): reading it never stops. -/
def regSrc3 (s : State) (r : VReg) : Src3 := ⟨none, lane (readZmm s r)⟩

/-- A full-vector memory operand of `kl` elements under mask `m` (R51, R54, R56): never alignment-checked (R53). -/
def fullSrc3 (s : State) (pfx : List LegacyPrefix) (n : Nat) (pcNext : Addr) (kl : Nat) (m : BitVec 8)
    (mo : MemOperand) : Src3 :=
  let la := linearAddr s pfx n pcNext mo
  ⟨readStop s (nonCanonicalExn pfx mo la) false la (fullOffsets s kl m), fun j => peek64 s (byteAddr la (8 * j))⟩

/-- A broadcast memory operand (R54, R56, R162): one element for every lane, alignment-checked (R53). -/
def bcastSrc3 (s : State) (pfx : List LegacyPrefix) (pcNext : Addr) (kl : Nat) (m : BitVec 8) (mo : MemOperand) : Src3 :=
  let la := linearAddr s pfx 8 pcNext mo
  ⟨readStop s (nonCanonicalExn pfx mo la) true la (bcastOffsets s kl m), fun _ => peek64 s la⟩

/-- Elements of a VEX form: `KL` (R146). -/
def vexKl : VexLen → Nat
  | .v128 => 2
  | .v256 => 4

/-- Elements of an EVEX form: `KL` (R88). -/
def evexKl : EvexLen → Nat
  | .v128 => 2
  | .v256 => 4
  | .v512 => 8

/-- The `disp8` scale of a full-vector EVEX operand: `VL/8` (R100). -/
def evexScale : EvexLen → Nat
  | .v128 => 16
  | .v256 => 32
  | .v512 => 64

/-- Every element is active: a VEX form has no mask, and `aaa = 000b` names none (R56, R89, R161). -/
def noMask : BitVec 8 := 0xFF#8

/-- The write mask of an EVEX form: all ones without a mask, else the low bits of the opmask register (R161). -/
def maskBits (s : State) (mk : Masking) : BitVec 8 :=
  if mk.aaa = 0#3 then noMask else (readK s mk.aaa).setWidth 8

/-- The third source of a VEX form (R96, R99, R146). -/
def vexSrc3 (s : State) (pfx : List LegacyPrefix) (w : VexLen) (pcNext : Addr) : VexSrc3 → Src3
  | .reg r => regSrc3 s (r.setWidth 5)
  | .mem mo => fullSrc3 s pfx 1 pcNext (vexKl w) noMask mo

/-- The third source of an EVEX form (R90, R97, R100, R160). `EVEX.b = 0` scales `disp8` by the operand's size. -/
def evexSrc3 (s : State) (pfx : List LegacyPrefix) (w : EvexLen) (pcNext : Addr) (m : BitVec 8) : EvexSrc3 → Src3
  | .reg r => regSrc3 s r
  | .full mo => fullSrc3 s pfx (evexScale w) pcNext (evexKl w) m mo
  | .bcast mo => bcastSrc3 s pfx pcNext (evexKl w) m mo

end Sys2Proof.Machine
end

