-- ==== Sys2Proof/Machine/Fmadd.lean ====
section
/-! DEFINITION. The templates `VEX_FMADD` and `EVEX_FMADD` that every instruction instantiates
(spec/41_vfmadd_vex.md R146, spec/42_vfmadd_evex.md R160), with the checks that precede them
(spec/60_exceptions.md R192, R194, R195, R201). -/

namespace Sys2Proof.Machine

/-! ## Checks before the operands are read -/

/-- A prefix that an instruction of the family cannot have is present (R85). -/
def hasForbidden (pfx : List LegacyPrefix) : Bool := pfx.any forbiddenPrefix

/-- The `#UD` conditions of a VEX form (R192 a to d), and a mode that has no VEX forms (R108, R192). -/
def vexUndefined (pfx : List LegacyPrefix) (s : State) : Bool :=
  s.mode != .mode64 || !s.cfg.hasFMA || !osxsave s || !avxEnabled s || hasForbidden pfx

/-- The `#UD` conditions of an EVEX form (R194 a to e and h), and a mode that has no EVEX forms; `needsVL` says that the
form's length is 128 or 256 bits. Conditions f and g are encodings that decode to no row (R103, R104). -/
def evexUndefined (needsVL : Bool) (pfx : List LegacyPrefix) (mk : Masking) (s : State) : Bool :=
  s.mode != .mode64 || !s.cfg.hasAVX512F || (needsVL && !s.cfg.hasAVX512VL) || !osxsave s || !avxEnabled s ||
    !avx512Enabled s || hasForbidden pfx || (mk.z && mk.aaa == 0#3)

/-- What ends an instruction before it reads its operands: an inadmissible state, `#UD`, `#NM`, in this order
(R195, R201). -/
def gate (undef : Bool) (s : State) : Option StepOutcome :=
  match admission s with
  | some r => some (.refused r)
  | none =>
    if undef then some (raise .invalidOpcode s)
    else if taskSwitched s then some (raise .deviceNotAvailable s)
    else none

/-! ## The common end of both templates -/

/-- The active elements below `kl` (R161). -/
def activeLanes (kl : Nat) (m : BitVec 8) : List Nat := (List.range kl).filter (fun j => m.getLsbD j)

/-- The new destination (R146 step 8, R160 steps 9 and 10): computed elements where the mask is 1, zero or the old element
where it is 0, and zero above the vector length (R24, R164). -/
def mergeLanes (kl : Nat) (m : BitVec 8) (z : Bool) (old : Nat → E64) (res : Nat → E64) : Lanes :=
  ofLanes (fun j => if kl ≤ j then 0#64 else if m.getLsbD j then res j else if z then 0#64 else old j)

/-- Write the result and advance `pc` by the instruction's length (R21, R146 steps 8 and 9, R160 steps 10 and 11). -/
def retire (d : VReg) (v : Lanes) (size : Nat) (s : State) : StepOutcome :=
  .next { writeZmm s d v with pc := s.pc + BitVec.ofNat 64 size }

/-- The element results of an instruction (R146 step 6, R160 step 7). -/
def laneResults (kind : Kind) (p : FpControl) (s : State) (d s2 : VReg) (c : Nat → E64) (j : Nat) : FmaResult :=
  fmaLane kind s.cfg.fmaRule p (lane (readZmm s d) j) (lane (readZmm s s2) j) (c j)

/-- Compute, commit the exceptions, write (R146 steps 6 to 9, R160 steps 7 to 11). All sources are read from the state before
anything is written. -/
def fmaddCommit (kind : Kind) (kl : Nat) (m : BitVec 8) (z : Bool) (d s2 : VReg) (c : Nat → E64) (size : Nat)
    (s : State) : StepOutcome :=
  let rs := laneResults kind (mxControl s) s d s2 c
  let cm := fpCommit s.mxcsr ((activeLanes kl m).map rs)
  if cm.raises then raise (simdExn s) { s with mxcsr := cm.mxcsr }
  else retire d (mergeLanes kl m z (lane (readZmm s d)) (fun j => (rs j).res)) size { s with mxcsr := cm.mxcsr }

/-- Compute and write with embedded rounding: all exceptions suppressed, `MXCSR` not written (R160, R163). -/
def fmaddSuppressed (kind : Kind) (rc : RoundingMode) (m : BitVec 8) (z : Bool) (d s2 : VReg) (c : Nat → E64) (size : Nat)
    (s : State) : StepOutcome :=
  let rs := laneResults kind (erControl rc s) s d s2 c
  retire d (mergeLanes 8 m z (lane (readZmm s d)) (fun j => (rs j).res)) size s

/-! ## The templates -/

/-- `VEX_FMADD(kind, L)` (R146). -/
def vexFmadd (kind : Kind) (w : VexLen) (pfx : List LegacyPrefix) (d s2 : BitVec 4) (src3 : VexSrc3) (s : State) :
    StepOutcome :=
  match gate (vexUndefined pfx s) s with
  | some o => o
  | none =>
    let size := vexSize pfx src3
    let c := vexSrc3 s pfx w (s.pc + BitVec.ofNat 64 size) src3
    match c.stop with
    | some st => stopWith s st
    | none => fmaddCommit kind (vexKl w) noMask false (d.setWidth 5) (s2.setWidth 5) c.elems size s

/-- `EVEX_FMADD(kind)` without embedded rounding (R160). -/
def evexFmadd (kind : Kind) (w : EvexLen) (pfx : List LegacyPrefix) (mk : Masking) (d s2 : VReg) (src3 : EvexSrc3)
    (s : State) : StepOutcome :=
  match gate (evexUndefined (w != .v512) pfx mk s) s with
  | some o => o
  | none =>
    let size := evexSize pfx src3
    let m := maskBits s mk
    let c := evexSrc3 s pfx w (s.pc + BitVec.ofNat 64 size) m src3
    match c.stop with
    | some st => stopWith s st
    | none => fmaddCommit kind (evexKl w) m mk.z d s2 c.elems size s

/-- `EVEX_FMADD(kind)` with embedded rounding: 512 bits, `AVX512VL` not needed (R91, R160, R163). -/
def erFmadd (kind : Kind) (pfx : List LegacyPrefix) (rc : RoundingMode) (mk : Masking) (d s2 s3 : VReg) (s : State) :
    StepOutcome :=
  match gate (evexUndefined false pfx mk s) s with
  | some o => o
  | none =>
    fmaddSuppressed kind rc (maskBits s mk) mk.z d s2 (regSrc3 s s3).elems (evexSize pfx (.reg s3)) s

end Sys2Proof.Machine
end

