-- ==== Sys2Proof/Machine/Evex.lean ====
section
/-! DEFINITION. The nine EVEX-encoded instructions and the three embedded-rounding variants
(spec/42_vfmadd_evex.md R166 to R174), each an instance of the template of R160. -/

namespace Sys2Proof.Machine

/-- `VFMADD132PD xmm1 {k1}{z}, xmm2, xmm3/m128/m64bcst`: `DEST*SRC3 + SRC2` (R166). -/
def execVfmadd132pdEvex128 (pfx : List LegacyPrefix) (mk : Masking) (d v : VReg) (r : EvexSrc3) (s : State) : StepOutcome :=
  evexFmadd .k132 .v128 pfx mk d v r s

/-- `VFMADD213PD xmm1 {k1}{z}, xmm2, xmm3/m128/m64bcst`: `SRC2*DEST + SRC3` (R167). -/
def execVfmadd213pdEvex128 (pfx : List LegacyPrefix) (mk : Masking) (d v : VReg) (r : EvexSrc3) (s : State) : StepOutcome :=
  evexFmadd .k213 .v128 pfx mk d v r s

/-- `VFMADD231PD xmm1 {k1}{z}, xmm2, xmm3/m128/m64bcst`: `SRC2*SRC3 + DEST` (R168). -/
def execVfmadd231pdEvex128 (pfx : List LegacyPrefix) (mk : Masking) (d v : VReg) (r : EvexSrc3) (s : State) : StepOutcome :=
  evexFmadd .k231 .v128 pfx mk d v r s

/-- `VFMADD132PD ymm1 {k1}{z}, ymm2, ymm3/m256/m64bcst`: `DEST*SRC3 + SRC2` (R169). -/
def execVfmadd132pdEvex256 (pfx : List LegacyPrefix) (mk : Masking) (d v : VReg) (r : EvexSrc3) (s : State) : StepOutcome :=
  evexFmadd .k132 .v256 pfx mk d v r s

/-- `VFMADD213PD ymm1 {k1}{z}, ymm2, ymm3/m256/m64bcst`: `SRC2*DEST + SRC3` (R170). -/
def execVfmadd213pdEvex256 (pfx : List LegacyPrefix) (mk : Masking) (d v : VReg) (r : EvexSrc3) (s : State) : StepOutcome :=
  evexFmadd .k213 .v256 pfx mk d v r s

/-- `VFMADD231PD ymm1 {k1}{z}, ymm2, ymm3/m256/m64bcst`: `SRC2*SRC3 + DEST` (R171). -/
def execVfmadd231pdEvex256 (pfx : List LegacyPrefix) (mk : Masking) (d v : VReg) (r : EvexSrc3) (s : State) : StepOutcome :=
  evexFmadd .k231 .v256 pfx mk d v r s

/-- `VFMADD132PD zmm1 {k1}{z}, zmm2, zmm3/m512/m64bcst`: `DEST*SRC3 + SRC2` (R172). -/
def execVfmadd132pdEvex512 (pfx : List LegacyPrefix) (mk : Masking) (d v : VReg) (r : EvexSrc3) (s : State) : StepOutcome :=
  evexFmadd .k132 .v512 pfx mk d v r s

/-- `VFMADD213PD zmm1 {k1}{z}, zmm2, zmm3/m512/m64bcst`: `SRC2*DEST + SRC3` (R173). -/
def execVfmadd213pdEvex512 (pfx : List LegacyPrefix) (mk : Masking) (d v : VReg) (r : EvexSrc3) (s : State) : StepOutcome :=
  evexFmadd .k213 .v512 pfx mk d v r s

/-- `VFMADD231PD zmm1 {k1}{z}, zmm2, zmm3/m512/m64bcst`: `SRC2*SRC3 + DEST` (R174). -/
def execVfmadd231pdEvex512 (pfx : List LegacyPrefix) (mk : Masking) (d v : VReg) (r : EvexSrc3) (s : State) : StepOutcome :=
  evexFmadd .k231 .v512 pfx mk d v r s

/-- `VFMADD132PD zmm1 {k1}{z}, zmm2, zmm3{er}`: `DEST*SRC3 + SRC2` (R172, R163). -/
def execVfmadd132pdEvex512Er (pfx : List LegacyPrefix) (rc : RoundingMode) (mk : Masking) (d v r : VReg) (s : State) :
    StepOutcome :=
  erFmadd .k132 pfx rc mk d v r s

/-- `VFMADD213PD zmm1 {k1}{z}, zmm2, zmm3{er}`: `SRC2*DEST + SRC3` (R173, R163). -/
def execVfmadd213pdEvex512Er (pfx : List LegacyPrefix) (rc : RoundingMode) (mk : Masking) (d v r : VReg) (s : State) :
    StepOutcome :=
  erFmadd .k213 pfx rc mk d v r s

/-- `VFMADD231PD zmm1 {k1}{z}, zmm2, zmm3{er}`: `SRC2*SRC3 + DEST` (R174, R163). -/
def execVfmadd231pdEvex512Er (pfx : List LegacyPrefix) (rc : RoundingMode) (mk : Masking) (d v r : VReg) (s : State) :
    StepOutcome :=
  erFmadd .k231 pfx rc mk d v r s

end Sys2Proof.Machine
end

