-- ==== Sys2Proof/Machine/Vex.lean ====
section
/-! DEFINITION. The six VEX-encoded instructions (spec/41_vfmadd_vex.md R150 to R155), each an instance of the
template of R146. -/

namespace Sys2Proof.Machine

/-- `VFMADD132PD xmm1, xmm2, xmm3/m128`: `DEST*SRC3 + SRC2` (R150). -/
def execVfmadd132pdVex128 (pfx : List LegacyPrefix) (d v : BitVec 4) (r : VexSrc3) (s : State) : StepOutcome :=
  vexFmadd .k132 .v128 pfx d v r s

/-- `VFMADD213PD xmm1, xmm2, xmm3/m128`: `SRC2*DEST + SRC3` (R151). -/
def execVfmadd213pdVex128 (pfx : List LegacyPrefix) (d v : BitVec 4) (r : VexSrc3) (s : State) : StepOutcome :=
  vexFmadd .k213 .v128 pfx d v r s

/-- `VFMADD231PD xmm1, xmm2, xmm3/m128`: `SRC2*SRC3 + DEST` (R152). -/
def execVfmadd231pdVex128 (pfx : List LegacyPrefix) (d v : BitVec 4) (r : VexSrc3) (s : State) : StepOutcome :=
  vexFmadd .k231 .v128 pfx d v r s

/-- `VFMADD132PD ymm1, ymm2, ymm3/m256`: `DEST*SRC3 + SRC2` (R153). -/
def execVfmadd132pdVex256 (pfx : List LegacyPrefix) (d v : BitVec 4) (r : VexSrc3) (s : State) : StepOutcome :=
  vexFmadd .k132 .v256 pfx d v r s

/-- `VFMADD213PD ymm1, ymm2, ymm3/m256`: `SRC2*DEST + SRC3` (R154). -/
def execVfmadd213pdVex256 (pfx : List LegacyPrefix) (d v : BitVec 4) (r : VexSrc3) (s : State) : StepOutcome :=
  vexFmadd .k213 .v256 pfx d v r s

/-- `VFMADD231PD ymm1, ymm2, ymm3/m256`: `SRC2*SRC3 + DEST` (R155). -/
def execVfmadd231pdVex256 (pfx : List LegacyPrefix) (d v : BitVec 4) (r : VexSrc3) (s : State) : StepOutcome :=
  vexFmadd .k231 .v256 pfx d v r s

end Sys2Proof.Machine
end

