-- ==== Sys2Proof/Machine/Dispatch.lean ====
section
/-! DEFINITION. One arm per instruction (spec/30_encoding.md R102): each calls that instruction's meaning. -/

namespace Sys2Proof.Machine

def exec (i : Instr) (s : State) : Host.Outcome State Fault Refusal :=
  match i with
  | .vfmadd132pdVex128 pfx d v r => Sys2Proof.Machine.execVfmadd132pdVex128 pfx d v r s
  | .vfmadd213pdVex128 pfx d v r => Sys2Proof.Machine.execVfmadd213pdVex128 pfx d v r s
  | .vfmadd231pdVex128 pfx d v r => Sys2Proof.Machine.execVfmadd231pdVex128 pfx d v r s
  | .vfmadd132pdVex256 pfx d v r => Sys2Proof.Machine.execVfmadd132pdVex256 pfx d v r s
  | .vfmadd213pdVex256 pfx d v r => Sys2Proof.Machine.execVfmadd213pdVex256 pfx d v r s
  | .vfmadd231pdVex256 pfx d v r => Sys2Proof.Machine.execVfmadd231pdVex256 pfx d v r s
  | .vfmadd132pdEvex128 pfx mk d v r => Sys2Proof.Machine.execVfmadd132pdEvex128 pfx mk d v r s
  | .vfmadd213pdEvex128 pfx mk d v r => Sys2Proof.Machine.execVfmadd213pdEvex128 pfx mk d v r s
  | .vfmadd231pdEvex128 pfx mk d v r => Sys2Proof.Machine.execVfmadd231pdEvex128 pfx mk d v r s
  | .vfmadd132pdEvex256 pfx mk d v r => Sys2Proof.Machine.execVfmadd132pdEvex256 pfx mk d v r s
  | .vfmadd213pdEvex256 pfx mk d v r => Sys2Proof.Machine.execVfmadd213pdEvex256 pfx mk d v r s
  | .vfmadd231pdEvex256 pfx mk d v r => Sys2Proof.Machine.execVfmadd231pdEvex256 pfx mk d v r s
  | .vfmadd132pdEvex512 pfx mk d v r => Sys2Proof.Machine.execVfmadd132pdEvex512 pfx mk d v r s
  | .vfmadd213pdEvex512 pfx mk d v r => Sys2Proof.Machine.execVfmadd213pdEvex512 pfx mk d v r s
  | .vfmadd231pdEvex512 pfx mk d v r => Sys2Proof.Machine.execVfmadd231pdEvex512 pfx mk d v r s
  | .vfmadd132pdEvex512Er pfx rc mk d v r => Sys2Proof.Machine.execVfmadd132pdEvex512Er pfx rc mk d v r s
  | .vfmadd213pdEvex512Er pfx rc mk d v r => Sys2Proof.Machine.execVfmadd213pdEvex512Er pfx rc mk d v r s
  | .vfmadd231pdEvex512Er pfx rc mk d v r => Sys2Proof.Machine.execVfmadd231pdEvex512Er pfx rc mk d v r s

end Sys2Proof.Machine
end

