-- ==== Sys2Proof/Machine/Fetch.lean ====
section
/-! DEFINITION. Fetching and decoding the instruction at the instruction pointer, and what ends a step before an
instruction runs (spec/70_reset_and_hazards.md R224, R226, spec/60_exceptions.md R198, R201); and placing a program's
bytes where the fetch reads them. -/

namespace Sys2Proof.Machine

/-- The linear address of the instruction: `pc`, with the base of `CS` outside 64-bit mode (R21, R35, R38). -/
def fetchBase (s : State) : Addr := if s.mode = .mode64 then s.pc else s.csBase + s.pc

/-- The result of fetching one instruction byte: the byte, or why there is none (R198 d). -/
def fetchByte (s : State) (a : Addr) : Except ReadStop Byte :=
  if canonical s.cfg.law a then
    match translate s .fetch a with
    | .storage p => .ok (Memory.read s.mem p)
    | .pageFault code => .error (.exn (.pageFault code a))
    | .device => .error .device
  else .error (.exn .generalProtection)

/-- Up to `n` instruction bytes from address `a`, and what stopped the fetch before that, if anything did (R226 step 2). -/
def fetchFrom (s : State) : Nat → Addr → List Byte × Option ReadStop
  | 0, _ => ([], none)
  | n + 1, a =>
    match fetchByte s a with
    | .ok b => (b :: (fetchFrom s n (a + 1#64)).1, (fetchFrom s n (a + 1#64)).2)
    | .error st => ([], some st)

/-- The bytes a step can see: at most 15 (R80, R226). -/
def fetchWindow (s : State) : List Byte × Option ReadStop := fetchFrom s maxInstrBytes (fetchBase s)

/-- What the fetch leads to: an instruction to run, or the end of the step. -/
inductive Fetched where
  | run (i : Instr)
  | stop (o : StepOutcome)

/-- Decode a fetched window (R226 steps 3 and 4). A window that ends before its instruction does reports the fault of the
first byte that could not be fetched (R198 d), or, with all 15 bytes there, `#GP(0)` for an instruction that is too long
(R80, R198 c). A reserved encoding raises `#UD` (R103, R104); bytes of no instruction of the family are refused (R106). -/
def decodeWindow (s : State) (w : List Byte × Option ReadStop) : Fetched :=
  match decode w.1 with
  | .instr i => .run i
  | .reserved => .stop (raise .invalidOpcode s)
  | .outside => .stop (.refused .outsideFamily)
  | .truncated =>
    match w.2 with
    | some st => .stop (stopWith s st)
    | none => .stop (raise .generalProtection s)

/-- The part of a step before an instruction runs: a state that has faulted stays faulted (R203); at `EndAddr` the run has
ended (R224, R226 step 1); a state that does not meet the launch premises is refused (R108, R222, U7); then fetch and decode. -/
def fetchInstr (s : State) : Fetched :=
  match s.fault with
  | some e => .stop (.fault (.exception e s))
  | none =>
    if s.cfg.endAddr = some s.pc then .stop (.refused (.runEnded s))
    else
      match launch s with
      | some r => .stop (.refused r)
      | none => decodeWindow s (fetchWindow s)

/-- Translation lines that let the `n` bytes from `a` on be fetched from the storage of the same address. -/
def fetchLines : Nat → Addr → List XlatRule
  | 0, _ => []
  | n + 1, a =>
    { base := a.toNat, size := 1, access := some .fetch, level := none, outcome := .storage a.toNat } ::
      fetchLines n (a + 1#64)

/-- The `n` bytes from `a` on are already fetched from the storage of the same address. -/
def fetchesInPlace (s : State) : Nat → Addr → Bool
  | 0, _ => true
  | n + 1, a => translate s .fetch a == .storage a.toNat && fetchesInPlace s n (a + 1#64)

/-- Store bytes at consecutive addresses that wrap modulo 2^64 (R51, R57). -/
def placeBytes : Memory → Addr → List Byte → Memory
  | m, _, [] => m
  | m, a, v :: vs => placeBytes (Memory.write m a.toNat v) (a + 1#64) vs

/-- The state with the launch premises that a step needs met: 64-bit mode, `RFLAGS.TF = 0`, `MXCSR[31:16] = 0` (R222 L1, L7,
L9; the place of `TF`: notes/assumptions/27.md). -/
def launchState (s : State) : State :=
  { s with mode := .mode64, rflags := s.rflags &&& ~~~0x100#64, mxcsr := s.mxcsr &&& 0xFFFF#32 }

/-- Load an instruction's bytes where the next step fetches them: the bytes into memory, translation lines for the fetch
where the fetch needs them, no ended run. -/
def placeAtFetch (s : State) (bytes : List Byte) : State :=
  { s with
    mem := placeBytes s.mem (fetchBase s) bytes
    xlat := if fetchesInPlace s bytes.length (fetchBase s) then s.xlat
            else fetchLines bytes.length (fetchBase s) ++ s.xlat
    fault := none
    cfg := { s.cfg with endAddr := if s.cfg.endAddr = some s.pc then none else s.cfg.endAddr } }

end Sys2Proof.Machine
end

