-- ==== Sys2Proof/Machine/Step.lean ====
section
/-! DEFINITION. One step (spec/70_reset_and_hazards.md R226): fetch, decode, run. -/

namespace Sys2Proof.Machine

/-- One step of the machine (R226). -/
def step (s : State) : Host.Outcome State Fault Refusal :=
  match fetchInstr s with
  | .run i => exec i s
  | .stop o => o

/-- The state with an instruction, given as the host numbers the words of spec/opcode_table.json, stored where the next
step fetches it, and the launch premises met that a step needs. notes/assumptions/4.md -/
def State.withFetchWord (s : State) (nbits w : Nat) : State :=
  placeAtFetch (launchState s) (tableBytes nbits w)

end Sys2Proof.Machine
end

