-- ==== Sys2Proof/WellFormed.lean ====
section
/-! DEFINITION. Well-formed instructions: the terms some byte string encodes (spec/30_encoding.md R80, R92 to R94).
Prefixes that raise `#UD` (R85) and zeroing without a mask (R105) are encodable, so they are well-formed; the machine
raises the exception. -/

namespace Sys2Proof

/-- A displacement-free operand cannot use a base numbered `x101b`: `mod = 00b` means something else there
(R57, R94). -/
def baseAllows (base : Gpr) (d : Disp) : Bool :=
  !(d == .none && lowBits base == 0b101#3)

/-- A memory operand that ModRM, SIB and displacement can express (R57, R92 to R94): without a SIB byte the base
is not numbered `x100b`. -/
def MemOperand.wf : MemOperand → Bool
  | .based base d => lowBits base != 0b100#3 && baseAllows base d
  | .ripRel _ => true
  | .sib _ _ base d => baseAllows base d
  | .sibNoBase _ _ _ => true

/-- The third source of a VEX form is expressible. -/
def VexSrc3.wf : VexSrc3 → Bool
  | .reg _ => true
  | .mem m => m.wf

/-- The third source of an EVEX form is expressible. -/
def EvexSrc3.wf : EvexSrc3 → Bool
  | .reg _ => true
  | .full m => m.wf
  | .bcast m => m.wf

/-- The operands of an instruction are expressible. -/
def Instr.operandsWf : Instr → Bool
  | .vfmadd132pdVex128 _ _ _ r => r.wf
  | .vfmadd213pdVex128 _ _ _ r => r.wf
  | .vfmadd231pdVex128 _ _ _ r => r.wf
  | .vfmadd132pdVex256 _ _ _ r => r.wf
  | .vfmadd213pdVex256 _ _ _ r => r.wf
  | .vfmadd231pdVex256 _ _ _ r => r.wf
  | .vfmadd132pdEvex128 _ _ _ _ r => r.wf
  | .vfmadd213pdEvex128 _ _ _ _ r => r.wf
  | .vfmadd231pdEvex128 _ _ _ _ r => r.wf
  | .vfmadd132pdEvex256 _ _ _ _ r => r.wf
  | .vfmadd213pdEvex256 _ _ _ _ r => r.wf
  | .vfmadd231pdEvex256 _ _ _ _ r => r.wf
  | .vfmadd132pdEvex512 _ _ _ _ r => r.wf
  | .vfmadd213pdEvex512 _ _ _ _ r => r.wf
  | .vfmadd231pdEvex512 _ _ _ _ r => r.wf
  | .vfmadd132pdEvex512Er .. => true
  | .vfmadd213pdEvex512Er .. => true
  | .vfmadd231pdEvex512Er .. => true

/-- A well-formed instruction: expressible operands and at most 15 bytes (R80). -/
def Instr.wf (i : Instr) : Bool :=
  i.operandsWf && decide (i.size ≤ maxInstrBytes)

end Sys2Proof
end

