-- ==== Sys2Proof/Safety.lean ====
section
/-! DEFINITION. The terms in which statements speak of a safe run: when an instruction is stopped before it reads its operands
(spec/60_exceptions.md R192, R194, R195), which bytes a memory operand accesses and when they can be read
(spec/20_memory.md R51, R54, R56, R60 to R62), masked exceptions (spec/10_state.md R28), the exact value of an element and its
rounding (spec/40_fma_numerics.md R122, R131, R133), the bytes a step fetches, and the invariant of a state. The bits of the control
registers are written out here from R22, R26 and R31 to R33 (that of `RFLAGS.TF` is PRESUMED, notes/assumptions/27.md), not taken
from the machine's accessors. -/

namespace Sys2Proof

/-- The destination register of an instruction (R96, R97). -/
def Instr.dest : Instr → VReg
  | .vfmadd132pdVex128 _ d _ _ | .vfmadd213pdVex128 _ d _ _ | .vfmadd231pdVex128 _ d _ _ => d.setWidth 5
  | .vfmadd132pdVex256 _ d _ _ | .vfmadd213pdVex256 _ d _ _ | .vfmadd231pdVex256 _ d _ _ => d.setWidth 5
  | .vfmadd132pdEvex128 _ _ d _ _ | .vfmadd213pdEvex128 _ _ d _ _ | .vfmadd231pdEvex128 _ _ d _ _ => d
  | .vfmadd132pdEvex256 _ _ d _ _ | .vfmadd213pdEvex256 _ _ d _ _ | .vfmadd231pdEvex256 _ _ d _ _ => d
  | .vfmadd132pdEvex512 _ _ d _ _ | .vfmadd213pdEvex512 _ _ d _ _ | .vfmadd231pdEvex512 _ _ d _ _ => d
  | .vfmadd132pdEvex512Er _ _ _ d _ _ | .vfmadd213pdEvex512Er _ _ _ d _ _ | .vfmadd231pdEvex512Er _ _ _ d _ _ => d

/-- The number of bytes after ModRM: SIB and displacement, `sib + dlen` of R95. -/
def operandTail (modrm : Byte) (tail : List Byte) : Nat :=
  let md : BitVec 2 := modrm.extractLsb' 6 2
  let rm : BitVec 3 := modrm.extractLsb' 0 3
  let base : BitVec 3 := (tail.headD 0#8).extractLsb' 0 3
  let sib := if md ≠ 0b11#2 ∧ rm = 0b100#3 then 1 else 0
  let dlen :=
    if md = 0b11#2 then 0
    else if md = 0b00#2 then (if rm = 0b101#3 ∨ (rm = 0b100#3 ∧ base = 0b101#3) then 4 else 0)
    else if md = 0b01#2 then 1
    else 4
  sib + dlen

/-- `KL` of a VEX form (R81, R146). -/
def VexLen.elements : VexLen → Nat
  | .v128 => 2
  | .v256 => 4

/-- `KL` of an EVEX form (R88). -/
def EvexLen.elements : EvexLen → Nat
  | .v128 => 2
  | .v256 => 4
  | .v512 => 8

/-- The lengths 128 and 256 need `AVX512VL` (R88). -/
def EvexLen.needsVL : EvexLen → Bool
  | .v128 => true
  | .v256 => true
  | .v512 => false

/-- `N`, the scale of an 8-bit displacement of a full-vector EVEX operand: `VL/8` (R100). -/
def EvexLen.dispScale : EvexLen → Nat
  | .v128 => 16
  | .v256 => 32
  | .v512 => 64

namespace Machine

/-! ## Enabled forms -/

/-- A state in which the model runs an instruction: a mode in which the spec says what it does, `MXCSR[31:16] = 0`, `RFLAGS.TF = 0`
(R26, R108, R211, L7, L9, U7). That `TF` is bit 8, here and below, is PRESUMED (notes/assumptions/27.md). -/
structure Admitted (s : State) : Prop where
  mode : s.mode = .mode64 ∨ s.mode = .realAddress ∨ s.mode = .virtual8086
  reserved : s.mxcsr.extractLsb' 16 16 = 0#16
  noTrap : s.rflags.getLsbD 8 = false

/-- None of the `#UD` conditions R192 a to d holds for a VEX form with these prefixes (L1, L2, L7, L9). -/
structure VexEnabled (pfx : List LegacyPrefix) (s : State) : Prop where
  mode : s.mode = .mode64
  reserved : s.mxcsr.extractLsb' 16 16 = 0#16
  noTrap : s.rflags.getLsbD 8 = false
  feature : s.cfg.hasFMA = true
  xsave : s.cr4.getLsbD 18 = true
  avx : s.xcr0.extractLsb' 1 2 = 0b11#2
  prefixes : ∀ p ∈ pfx, forbiddenPrefix p = false

/-- None of the `#UD` conditions R194 a to e and h holds for an EVEX form with these prefixes and this mask; `needsVL` for the
lengths 128 and 256. -/
structure EvexEnabled (needsVL : Bool) (pfx : List LegacyPrefix) (mk : Masking) (s : State) : Prop where
  mode : s.mode = .mode64
  reserved : s.mxcsr.extractLsb' 16 16 = 0#16
  noTrap : s.rflags.getLsbD 8 = false
  feature : s.cfg.hasAVX512F = true
  lengths : needsVL = true → s.cfg.hasAVX512VL = true
  xsave : s.cr4.getLsbD 18 = true
  avx : s.xcr0.extractLsb' 1 2 = 0b11#2
  avx512 : s.xcr0.extractLsb' 5 3 = 0b111#3
  prefixes : ∀ p ∈ pfx, forbiddenPrefix p = false
  zeroing : mk.z = true → mk.aaa ≠ 0#3

/-- A VEX form is neither refused nor stopped by `#UD` or `#NM` before its operands are read (R192, R195, L1 to L3, L7,
L9). -/
structure VexReady (pfx : List LegacyPrefix) (s : State) : Prop extends VexEnabled pfx s where
  notSwitched : s.cr0.getLsbD 3 = false

/-- An EVEX form is neither refused nor stopped by `#UD` or `#NM` before its operands are read (R194, R195). -/
structure EvexReady (needsVL : Bool) (pfx : List LegacyPrefix) (mk : Masking) (s : State) : Prop
    extends EvexEnabled needsVL pfx mk s where
  notSwitched : s.cr0.getLsbD 3 = false

/-- `CR0.AM = 1`, `RFLAGS.AC = 1` and `CPL = 3` (R53). -/
def AlignmentChecked (s : State) : Prop := s.cr0.getLsbD 18 = true ∧ s.rflags.getLsbD 18 = true ∧ s.cpl = 3#2

/-! ## Masks and operands -/

/-- `M[j]`: element `j` is active under the mask of an EVEX form (R161). -/
def maskOn (s : State) (mk : Masking) (j : Nat) : Bool := mk.aaa == 0#3 || (readK s mk.aaa).getLsbD j

/-- The element numbers below `kl` that are active (R161). -/
def activeBelow (s : State) (mk : Masking) (kl : Nat) : List Nat := (List.range kl).filter (maskOn s mk)

/-- A displacement as an integer, an 8-bit one scaled by `n` (R94, R99, R100). -/
def dispInt (n : Nat) : Disp → Int
  | .none => 0
  | .disp8 d => d.toInt * n
  | .disp32 d => d.toInt

/-- The sum of R57 and R58 over the integers, `reg` giving the value of a register; index number 4 means no index. -/
def eaInt (reg : Gpr → Nat) (n : Nat) (pcNext : Addr) : MemOperand → Int
  | .based base d => reg base + dispInt n d
  | .ripRel d => pcNext.toNat + d.toInt
  | .sib scale index base d => reg base + (if index = 4#4 then 0 else reg index * 2 ^ scale.toNat) + dispInt n d
  | .sibNoBase scale index d => (if index = 4#4 then 0 else reg index * 2 ^ scale.toNat) + d.toInt

/-- The prefix is one of the six segment overrides (R60, R85). -/
def isSegmentOverride : LegacyPrefix → Bool
  | .es | .cs | .ss | .ds | .fs | .gs => true
  | .addr32 | .lock | .opSize | .repne | .rep | .rex _ => false

/-- `e` is an exception that R60 and U9 admit for a non-canonical address of this operand under these prefixes. -/
structure NonCanonicalReport (pfx : List LegacyPrefix) (m : MemOperand) (e : Exn) : Prop where
  vector : e = .stackSegment ∨ e = .generalProtection
  noOverride : (∀ p ∈ pfx, isSegmentOverride p = false) →
    e = if stackBased m then .stackSegment else .generalProtection
  based : (.fs ∈ pfx ∨ .gs ∈ pfx) → e = .generalProtection
  otherSegment : stackBased m = false → .ss ∉ pfx → e = .generalProtection

/-- The linear address of the memory operand of a VEX form (R57 to R60, R99). -/
def vexAddr (s : State) (pfx : List LegacyPrefix) (m : MemOperand) : Addr :=
  linearAddr s pfx 1 (s.pc + BitVec.ofNat 64 (vexSize pfx (.mem m))) m

/-- The linear address of a full-vector memory operand of an EVEX form (R57 to R60, R100). -/
def fullAddr (s : State) (pfx : List LegacyPrefix) (w : EvexLen) (m : MemOperand) : Addr :=
  linearAddr s pfx w.dispScale (s.pc + BitVec.ofNat 64 (evexSize pfx (.full m))) m

/-- The linear address of a broadcast memory operand (R57 to R60, R100). -/
def bcastAddr (s : State) (pfx : List LegacyPrefix) (m : MemOperand) : Addr :=
  linearAddr s pfx 8 (s.pc + BitVec.ofNat 64 (evexSize pfx (.bcast m))) m

/-- Offset `o` of a full-vector EVEX operand is accessed (R54, R56). -/
def FullAccessed (s : State) (w : EvexLen) (mk : Masking) (o : Nat) : Prop :=
  o < 8 * w.elements ∧ (s.cfg.faultSuppression = true → maskOn s mk (o / 8) = true)

/-- Offset `o` of a broadcast operand is accessed (R54, R56). -/
def BcastAccessed (s : State) (w : EvexLen) (mk : Masking) (o : Nat) : Prop :=
  o < 8 ∧ (s.cfg.faultSuppression = true → ∃ j, j < w.elements ∧ maskOn s mk j = true)

/-- The byte at a linear address is canonical and in storage for a data read (R60, R61). -/
structure ByteReadable (s : State) (a : Addr) : Prop where
  canonical : canonical s.cfg.law a = true
  mapped : ∃ p, translate s .dataRead a = .storage p

/-- The third source of a VEX form can be read (R54, R62). -/
def vexReadable (s : State) (pfx : List LegacyPrefix) (w : VexLen) : VexSrc3 → Prop
  | .reg _ => True
  | .mem m => ∀ o, o < 8 * w.elements → ByteReadable s (byteAddr (vexAddr s pfx m) o)

/-- The third source of an EVEX form can be read: its accessed bytes (R54, R56, R62), and a checked broadcast is
aligned (R53). -/
def evexReadable (s : State) (pfx : List LegacyPrefix) (w : EvexLen) (mk : Masking) : EvexSrc3 → Prop
  | .reg _ => True
  | .full m => ∀ o, FullAccessed s w mk o → ByteReadable s (byteAddr (fullAddr s pfx w m) o)
  | .bcast m =>
    (∀ o, BcastAccessed s w mk o → ByteReadable s (byteAddr (bcastAddr s pfx m) o)) ∧
      (AlignmentChecked s → BcastAccessed s w mk 0 → (bcastAddr s pfx m).toNat % 8 = 0)

/-- Element `j` of the third source of a VEX form (R51, R96). -/
def vexElem (s : State) (pfx : List LegacyPrefix) : VexSrc3 → Nat → E64
  | .reg r, j => lane (readZmm s (r.setWidth 5)) j
  | .mem m, j => peek64 s (byteAddr (vexAddr s pfx m) (8 * j))

/-- Element `j` of the third source of an EVEX form (R51, R97, R162). -/
def evexElem (s : State) (pfx : List LegacyPrefix) (w : EvexLen) : EvexSrc3 → Nat → E64
  | .reg r, j => lane (readZmm s r) j
  | .full m, j => peek64 s (byteAddr (fullAddr s pfx w m) (8 * j))
  | .bcast m, _ => peek64 s (bcastAddr s pfx m)

/-- The element operation of the three mnemonics, in the operand order of their Operation lines (R146, R160), over the parameter
`fma64` (R6): `a` is `DEST`, `b` is `SRC2`, `c` is `SRC3`. -/
def operationLine (k : Kind) (rule : FmaRule) (p : FpControl) (a b c : E64) : FmaResult :=
  match k with
  | .k132 => elementFma rule p a c b
  | .k213 => elementFma rule p b a c
  | .k231 => elementFma rule p b c a

/-- The control inputs that `MXCSR` and the parameters give `FMA`, with the bits of R26. -/
def mxcsrControl (s : State) : FpControl :=
  { rc := roundingOfBits (s.mxcsr.extractLsb' 13 2), daz := s.mxcsr.getLsbD 6, ftz := s.mxcsr.getLsbD 15,
    om := s.mxcsr.getLsbD 10, um := s.mxcsr.getLsbD 11, nanRule := s.cfg.nanRule }

/-- The control inputs under embedded rounding: the mode of the prefix, `om = um = 1` (R160, R163). -/
def embeddedControl (rc : RoundingMode) (s : State) : FpControl :=
  { mxcsrControl s with rc := rc, om := true, um := true }

/-- The result of `FMA` for element `j` of a VEX form (R146). -/
def vexLaneResult (s : State) (k : Kind) (pfx : List LegacyPrefix) (d v : BitVec 4) (r : VexSrc3) (j : Nat) : FmaResult :=
  operationLine k s.cfg.fmaRule (mxcsrControl s) (lane (readZmm s (d.setWidth 5)) j) (lane (readZmm s (v.setWidth 5)) j) (vexElem s pfx r j)

/-- The result of `FMA` for element `j` of an EVEX form (R160). -/
def evexLaneResult (s : State) (k : Kind) (w : EvexLen) (pfx : List LegacyPrefix) (d v : VReg) (r : EvexSrc3) (j : Nat) :
    FmaResult :=
  operationLine k s.cfg.fmaRule (mxcsrControl s) (lane (readZmm s d) j) (lane (readZmm s v) j) (evexElem s pfx w r j)

/-- The result of `FMA` for element `j` of an embedded-rounding form (R160, R163). -/
def erLaneResult (s : State) (k : Kind) (rc : RoundingMode) (d v r : VReg) (j : Nat) : FmaResult :=
  operationLine k s.cfg.fmaRule (embeddedControl rc s) (lane (readZmm s d) j) (lane (readZmm s v) j) (lane (readZmm s r) j)

/-- The destination of a VEX form: element results below `kl`, zero from there on (R24, R146). -/
def vexResult (kl : Nat) (f : Nat → FmaResult) : Lanes := ofLanes (fun j => if j < kl then (f j).res else 0#64)

/-- The destination of an EVEX form: element results under the mask, merging or zeroing, and zero from `kl` on
(R161, R164). -/
def maskedResult (s : State) (mk : Masking) (d : VReg) (kl : Nat) (f : Nat → FmaResult) : Lanes :=
  ofLanes (fun j => if j < kl then
      (if maskOn s mk j then (f j).res else if mk.z then 0#64 else lane (readZmm s d) j)
    else 0#64)

/-! ## Masked-off elements -/

/-- The third source of an EVEX form is the same in `s'` as in `s` where the mask makes it matter (R56, R161, R162): active elements
of a register; for a memory operand the translation of the accessed bytes and the value of the active elements. -/
def sameSource (s s' : State) (pfx : List LegacyPrefix) (w : EvexLen) (mk : Masking) : EvexSrc3 → Prop
  | .reg r => ∀ j, j < w.elements → maskOn s mk j = true → lane (readZmm s' r) j = lane (readZmm s r) j
  | .full m =>
    (∀ o, FullAccessed s w mk o → translate s' .dataRead (byteAddr (fullAddr s pfx w m) o) =
      translate s .dataRead (byteAddr (fullAddr s pfx w m) o)) ∧
    (∀ j, j < w.elements → maskOn s mk j = true →
      peek64 s' (byteAddr (fullAddr s pfx w m) (8 * j)) = peek64 s (byteAddr (fullAddr s pfx w m) (8 * j)))
  | .bcast m =>
    (∀ o, BcastAccessed s w mk o → translate s' .dataRead (byteAddr (bcastAddr s pfx m) o) =
      translate s .dataRead (byteAddr (bcastAddr s pfx m) o)) ∧
    ((∃ j, j < w.elements ∧ maskOn s mk j = true) → peek64 s' (bcastAddr s pfx m) = peek64 s (bcastAddr s pfx m))

/-- The outcomes `o` from `s` and `o'` from `s'`, which differ in vector registers, memory and translation, are the same in what the
mask lets matter: both complete, with the same active elements of `d`, `MXCSR` and `pc`; or both raise the same exception in
otherwise unchanged states; or both are refused. -/
structure SameUnderMask (s s' : State) (mk : Masking) (d : VReg) (kl : Nat) (o o' : StepOutcome) : Prop where
  completes : ∀ t, o = .next t → ∃ t', o' = .next t' ∧ t'.mxcsr = t.mxcsr ∧ t'.pc = t.pc ∧
    ∀ j, j < kl → maskOn s mk j = true → lane (readZmm t' d) j = lane (readZmm t d) j
  raises : ∀ e t, o = .fault (.exception e t) →
    o' = .fault (.exception e { t with zmm := s'.zmm, mem := s'.mem, xlat := s'.xlat })
  refuses : ∀ r, o = .refused r → o' = .refused r

/-! ## Exceptions of the arithmetic -/

/-- Some operand exception (`IE`, `DE`) of the element is unmasked in `MXCSR` (R26, R28). -/
def preUnmaskedIn (m : BitVec 32) (r : FmaResult) : Bool :=
  (r.pre.ie && !m.getLsbD 7) || (r.pre.de && !m.getLsbD 8)

/-- Some result exception (`OE`, `UE`, `PE`) of the element is unmasked in `MXCSR` (R26, R28). -/
def postUnmaskedIn (m : BitVec 32) (r : FmaResult) : Bool :=
  (r.post.oe && !m.getLsbD 10) || (r.post.ue && !m.getLsbD 11) || (r.post.pe && !m.getLsbD 12)

/-- Every exception that `FMA` reported for one element is masked in `MXCSR` (R28). -/
def laneMasked (m : BitVec 32) (r : FmaResult) : Bool := !preUnmaskedIn m r && !postUnmaskedIn m r

/-- The flags of `MXCSR` the family can set: `IE`, `DE`, `OE`, `UE`, `PE`, bits 0, 1, 3, 4 and 5 (R26, R27). -/
def settableFlags : BitVec 32 := 0x3B#32

/-- The operand flags that a set of element results sets in `MXCSR` (R26, R27). -/
def preFlagsOf (fs : List FmaResult) : BitVec 32 :=
  (if fs.any (fun r => r.pre.ie) then 0x1#32 else 0#32) ||| (if fs.any (fun r => r.pre.de) then 0x2#32 else 0#32)

/-- The result flags that a set of element results sets in `MXCSR` (R26, R27). -/
def postFlagsOf (fs : List FmaResult) : BitVec 32 :=
  (if fs.any (fun r => r.post.oe) then 0x8#32 else 0#32) ||| (if fs.any (fun r => r.post.ue) then 0x10#32 else 0#32) |||
    (if fs.any (fun r => r.post.pe) then 0x20#32 else 0#32)

/-- All flags that a set of element results sets in `MXCSR` (R26, R27). -/
def flagsOf (fs : List FmaResult) : BitVec 32 := preFlagsOf fs ||| postFlagsOf fs

/-- `MXCSR` at an unmasked SIMD floating-point exception (R196): an unmasked operand exception sets the operand flags alone,
otherwise all flags are set. -/
def mxcsrAtSimdFault (m : BitVec 32) (fs : List FmaResult) : BitVec 32 :=
  if fs.any (preUnmaskedIn m) then m ||| preFlagsOf fs else m ||| flagsOf fs

/-- `#XM` when `CR4.OSXMMEXCPT = 1`, else `#UD` (R197). -/
def simdException (s : State) : Exn := if s.cr4.getLsbD 10 then .simdFloatingPoint else .invalidOpcode

/-! ## Values -/

/-- The real value of a finite element (R122). -/
def realVal (w : E64) : ℚ :=
  (if signOf w then -1 else 1) *
    (if expOf w = 0 then (fracOf w : ℚ) * 2 ^ (-1074 : ℤ)
     else ((2 ^ 52 + fracOf w : ℕ) : ℚ) * 2 ^ ((expOf w : ℤ) - 1075))

/-- `E`, the exact intermediate value (R131). -/
def exactVal (x y z : E64) : ℚ := realVal x * realVal y + realVal z

/-- The magnitude that a rounding mode chooses between the neighbours `n * 2^q` and `(n+1) * 2^q` of `|e|` (R133). -/
def chosenMagnitude (rc : RoundingMode) (n : ℕ) (q : ℤ) (e : ℚ) : ℚ :=
  let lo : ℚ := n * 2 ^ q
  let hi : ℚ := (n + 1) * 2 ^ q
  if |e| = lo then lo
  else
    match rc with
    | .rn => if |e| - lo < hi - |e| then lo else if hi - |e| < |e| - lo then hi else if n % 2 = 0 then lo else hi
    | .rd => if e < 0 then hi else lo
    | .ru => if e < 0 then lo else hi
    | .rz => lo

/-- A magnitude with the sign of `e`. -/
def withSignOf (e a : ℚ) : ℚ := if e < 0 then -a else a

/-- `ru` is `round(e, rc)`: 53 significant bits, unbounded exponent range (R133). -/
def IsRound53 (rc : RoundingMode) (e ru : ℚ) : Prop :=
  ∃ (n : ℕ) (q : ℤ), 2 ^ 52 ≤ n ∧ n < 2 ^ 53 ∧ (n : ℚ) * 2 ^ q ≤ |e| ∧ |e| < (n + 1) * 2 ^ q ∧
    ru = withSignOf e (chosenMagnitude rc n q e)

/-- `rd` is the rounding of `e` to an integer multiple of `2^-1074` (R135 c). -/
def IsRoundDenormal (rc : RoundingMode) (e rd : ℚ) : Prop :=
  ∃ n : ℕ, (n : ℚ) * 2 ^ (-1074 : ℤ) ≤ |e| ∧ |e| < (n + 1) * 2 ^ (-1074 : ℤ) ∧
    rd = withSignOf e (chosenMagnitude rc n (-1074) e)

/-- Elements that are not NaNs in the order of the extended reals, both zeros alike: the magnitude bits with the sign. -/
def orderKey (w : E64) : Int :=
  if signOf w then -((w.extractLsb' 0 63).toNat : Int) else ((w.extractLsb' 0 63).toNat : Int)

/-- `w <= e` in the extended reals, for an element that is not a NaN. -/
def belowOrEqual (w : E64) (e : ℚ) : Prop := w = infE true ∨ (isFinite w = true ∧ realVal w ≤ e)

/-- `e <= w` in the extended reals, for an element that is not a NaN. -/
def aboveOrEqual (w : E64) (e : ℚ) : Prop := w = infE false ∨ (isFinite w = true ∧ e ≤ realVal w)

/-! ## Fetching -/

/-- The run goes on from this state: no fault so far, not at `EndAddr`, and the launch premises L1, L7 and L9 (R203, R222, R224,
R226). -/
structure Running (s : State) : Prop extends Admitted s where
  in64 : s.mode = .mode64
  noFault : s.fault = none
  notEnded : s.cfg.endAddr ≠ some s.pc

/-- These bytes stand at the instruction pointer and can be fetched (R226, L6). -/
def Fetches (s : State) (bytes : List Byte) : Prop :=
  ∀ (j : Nat) (h : j < bytes.length), fetchByte s (byteAddr (fetchBase s) j) = .ok bytes[j]

/-! ## The invariant -/

/-- State that the parameters say does not exist holds zeros (R23, R25): without `AVX512F`, bits 511:256 of every vector
register, registers 16 to 31 and all opmask registers; with 16-bit opmask registers, their bits 63:16. -/
structure AbsentStateZero (s : State) : Prop where
  vectors : s.cfg.hasAVX512F = false →
    ∀ (r : VReg) (j : Nat), j < 8 → (16 ≤ r.toNat ∨ 4 ≤ j) → lane (readZmm s r) j = 0#64
  opmasks : s.cfg.hasAVX512F = false → ∀ r : OpmaskNum, readK s r = 0#64
  opmaskWidth : s.cfg.wideOpmask = false → ∀ r : OpmaskNum, (readK s r).extractLsb' 16 48 = 0#48

/-- The invariant of a state: memory in canonical form, the reserved bits of `MXCSR` zero (R26), absent state zero (R23, R25). -/
structure Inv (s : State) : Prop where
  memory : Memory.wf s.mem = true
  reserved : s.mxcsr.extractLsb' 16 16 = 0#16
  absent : AbsentStateZero s

end Machine

end Sys2Proof
end

