-- ==== Sys2Proof/Certificates/Slice0/Obligations.lean ====
section
/-! DEFINITION. The statements about the machine, from the numbered rules of spec/. Each docstring names the rule a statement
formalises. `mkVex`, `mkEvex` and `mkEr` range over the constructors of `Instr`: `mkVex` over the six
`vfmadd132pdVex128`, `vfmadd213pdVex128`, `vfmadd231pdVex128`, `vfmadd132pdVex256`, `vfmadd213pdVex256`, `vfmadd231pdVex256`;
`mkEvex` over the nine `vfmadd132pdEvex128`, `vfmadd213pdEvex128`, `vfmadd231pdEvex128`, `vfmadd132pdEvex256`,
`vfmadd213pdEvex256`, `vfmadd231pdEvex256`, `vfmadd132pdEvex512`, `vfmadd213pdEvex512`, `vfmadd231pdEvex512`; `mkEr` over the three
`vfmadd132pdEvex512Er`, `vfmadd213pdEvex512Er`, `vfmadd231pdEvex512Er`. -/

section

open Sys2Proof Sys2Proof.Machine

/-! ## Encoding -/

/-- Decoding an encoded well-formed instruction gives it back, whatever bytes follow: every constructor, every operand at every value
its encoding admits (R80 to R102). Which value of an ignored bit the encoder writes is the model's choice (notes/assumptions/25.md). -/
def Obligations.DecodeEncodeRoundTrip : Prop :=
  ∀ (i : Instr) (rest : List Byte), i.wf = true → decode (encode i ++ rest) = .instr i

/-- The decoder agrees with the opcode table of R102, rows in decoding order: an instruction's bytes match its own row first, and bytes
that match a row are that row's instruction unless they end too early. -/
def Obligations.DecodeFollowsOpcodeTable : Prop :=
  (∀ (bytes : List Byte) (i : Instr), decode bytes = .instr i → firstRow (splitPrefixes bytes).2 = some i.row) ∧
  (∀ (bytes : List Byte) (n : Nat), firstRow (splitPrefixes bytes).2 = some n →
    decode bytes = .truncated ∨ ∃ i : Instr, decode bytes = .instr i ∧ i.row = n)

/-- What a step can decode is well-formed: from at most 15 bytes (R80) only well-formed instructions are read. -/
def Obligations.DecodedIsWellFormed : Prop :=
  ∀ (bytes : List Byte) (i : Instr), bytes.length ≤ 15 → decode bytes = .instr i → i.wf = true

/-- The decoder reads exactly the bytes of the instruction: all of them are there, and what follows does not matter (R80, R95). -/
def Obligations.DecodeReadsItsOwnBytes : Prop :=
  ∀ (bytes : List Byte) (i : Instr), decode bytes = .instr i →
    i.size ≤ bytes.length ∧ ∀ rest : List Byte, decode (bytes.take i.size ++ rest) = .instr i

/-- R95: the form is told by the first byte after the prefixes, and the length is `npfx + plen + 2 + sib + dlen`. -/
def Obligations.InstructionLength : Prop :=
  (∀ (pfx : List LegacyPrefix) (b1 b2 op modrm : Byte) (tail : List Byte) (i : Instr),
    decode (pfx.map byteOfPrefix ++ 0xC4#8 :: b1 :: b2 :: op :: modrm :: tail) = .instr i →
      i.row ≤ 6 ∧ i.size = pfx.length + 3 + 2 + operandTail modrm tail) ∧
  (∀ (pfx : List LegacyPrefix) (p0 p1 p2 op modrm : Byte) (tail : List Byte) (i : Instr),
    decode (pfx.map byteOfPrefix ++ 0x62#8 :: p0 :: p1 :: p2 :: op :: modrm :: tail) = .instr i →
      7 ≤ i.row ∧ i.size = pfx.length + 4 + 2 + operandTail modrm tail) ∧
  (∀ (pfx : List LegacyPrefix) (b : Byte) (rest : List Byte), prefixOfByte b = none → b ≠ 0xC4#8 → b ≠ 0x62#8 →
    decode (pfx.map byteOfPrefix ++ b :: rest) = .outside)

/-- At least one word of each of the eighteen rows of R102, written from the spec's encodings, decodes to the instruction it stands
for; among them high registers, a mask with zeroing, SIB addressing, scaled displacements, broadcasts and all four rounding modes. -/
def Obligations.SpecWordsDecode : Prop :=
  decode [0xC4#8, 0xE2#8, 0xE9#8, 0x98#8, 0xCB#8] = .instr (.vfmadd132pdVex128 [] 1 2 (.reg 3)) ∧
  decode [0xC4#8, 0xE2#8, 0xE9#8, 0xA8#8, 0xCB#8] = .instr (.vfmadd213pdVex128 [] 1 2 (.reg 3)) ∧
  decode [0xC4#8, 0xE2#8, 0xE9#8, 0xB8#8, 0xCB#8] = .instr (.vfmadd231pdVex128 [] 1 2 (.reg 3)) ∧
  decode [0xC4#8, 0xE2#8, 0xED#8, 0x98#8, 0xCB#8] = .instr (.vfmadd132pdVex256 [] 1 2 (.reg 3)) ∧
  decode [0xC4#8, 0xE2#8, 0xF5#8, 0xA8#8, 0x43#8, 0x20#8] =
    .instr (.vfmadd213pdVex256 [] 0 1 (.mem (.based 3 (.disp8 0x20)))) ∧
  decode [0xC4#8, 0x02#8, 0x85#8, 0xB8#8, 0x44#8, 0xEC#8, 0x40#8] =
    .instr (.vfmadd231pdVex256 [] 8 15 (.mem (.sib 3 13 12 (.disp8 0x40)))) ∧
  decode [0x62#8, 0xF2#8, 0xED#8, 0x89#8, 0x98#8, 0xCB#8] = .instr (.vfmadd132pdEvex128 [] ⟨1, true⟩ 1 2 (.reg 3)) ∧
  decode [0x62#8, 0xF2#8, 0xED#8, 0x18#8, 0xA8#8, 0x48#8, 0x01#8] =
    .instr (.vfmadd213pdEvex128 [] ⟨0, false⟩ 1 2 (.bcast (.based 0 (.disp8 1)))) ∧
  decode [0x62#8, 0xE2#8, 0xED#8, 0x08#8, 0xA8#8, 0xC3#8] = .instr (.vfmadd213pdEvex128 [] ⟨0, false⟩ 16 2 (.reg 3)) ∧
  decode [0x62#8, 0xF2#8, 0xED#8, 0x08#8, 0xB8#8, 0xCB#8] = .instr (.vfmadd231pdEvex128 [] ⟨0, false⟩ 1 2 (.reg 3)) ∧
  decode [0x62#8, 0xF2#8, 0xED#8, 0x28#8, 0x98#8, 0xCB#8] = .instr (.vfmadd132pdEvex256 [] ⟨0, false⟩ 1 2 (.reg 3)) ∧
  decode [0x62#8, 0xF2#8, 0xED#8, 0x38#8, 0xA8#8, 0x48#8, 0x01#8] =
    .instr (.vfmadd213pdEvex256 [] ⟨0, false⟩ 1 2 (.bcast (.based 0 (.disp8 1)))) ∧
  decode [0x62#8, 0xF2#8, 0xED#8, 0x28#8, 0xB8#8, 0xCB#8] = .instr (.vfmadd231pdEvex256 [] ⟨0, false⟩ 1 2 (.reg 3)) ∧
  decode [0x62#8, 0xF2#8, 0xED#8, 0x48#8, 0x98#8, 0xCB#8] = .instr (.vfmadd132pdEvex512 [] ⟨0, false⟩ 1 2 (.reg 3)) ∧
  decode [0x62#8, 0xF2#8, 0xED#8, 0x48#8, 0xA8#8, 0x48#8, 0x01#8] =
    .instr (.vfmadd213pdEvex512 [] ⟨0, false⟩ 1 2 (.full (.based 0 (.disp8 1)))) ∧
  decode [0x62#8, 0xF2#8, 0xED#8, 0x58#8, 0xA8#8, 0x48#8, 0x01#8] =
    .instr (.vfmadd213pdEvex512 [] ⟨0, false⟩ 1 2 (.bcast (.based 0 (.disp8 1)))) ∧
  decode [0x62#8, 0x02#8, 0x8D#8, 0x45#8, 0xB8#8, 0xFD#8] = .instr (.vfmadd231pdEvex512 [] ⟨5, false⟩ 31 30 (.reg 29)) ∧
  decode [0x62#8, 0xF2#8, 0xED#8, 0x58#8, 0x98#8, 0xCB#8] = .instr (.vfmadd132pdEvex512Er [] .ru ⟨0, false⟩ 1 2 3) ∧
  decode [0x62#8, 0xF2#8, 0xED#8, 0x18#8, 0xA8#8, 0xCB#8] = .instr (.vfmadd213pdEvex512Er [] .rn ⟨0, false⟩ 1 2 3) ∧
  decode [0x62#8, 0xF2#8, 0xED#8, 0x78#8, 0xA8#8, 0xCB#8] = .instr (.vfmadd213pdEvex512Er [] .rz ⟨0, false⟩ 1 2 3) ∧
  decode [0x62#8, 0xF2#8, 0xED#8, 0xBB#8, 0xB8#8, 0xCB#8] = .instr (.vfmadd231pdEvex512Er [] .rd ⟨3, true⟩ 1 2 3)

/-- R103: an EVEX word of the family with `P0[3:2] != 00b` or `P1[2] != 1` makes the step raise `#UD`. -/
def Obligations.ReservedBitsRaiseUD : Prop :=
  ∀ (s : State) (pfx : List LegacyPrefix) (p0 p1 p2 op modrm : Byte) (tail : List Byte),
    Running s → Fetches s (pfx.map byteOfPrefix ++ [0x62#8, p0, p1, p2, op, modrm] ++ tail) →
    pfx.length + 6 + tail.length ≤ 15 → operandTail modrm tail ≤ tail.length →
    p0.extractLsb' 0 2 = 0b10#2 → p1.extractLsb' 7 1 = 1#1 → p1.extractLsb' 0 2 = 0b01#2 →
    (op = 0x98#8 ∨ op = 0xA8#8 ∨ op = 0xB8#8) →
    (p0.extractLsb' 2 2 ≠ 0b00#2 ∨ p1.extractLsb' 2 1 ≠ 1#1) → step s = raise .invalidOpcode s

/-- R104: `EVEX.L'L = 11b` outside the embedded-rounding register form makes the step raise `#UD`. -/
def Obligations.ReservedLengthRaisesUD : Prop :=
  ∀ (s : State) (pfx : List LegacyPrefix) (p0 p1 p2 op modrm : Byte) (tail : List Byte),
    Running s → Fetches s (pfx.map byteOfPrefix ++ [0x62#8, p0, p1, p2, op, modrm] ++ tail) →
    pfx.length + 6 + tail.length ≤ 15 → operandTail modrm tail ≤ tail.length →
    p0.extractLsb' 0 2 = 0b10#2 → p1.extractLsb' 7 1 = 1#1 → p1.extractLsb' 0 2 = 0b01#2 →
    (op = 0x98#8 ∨ op = 0xA8#8 ∨ op = 0xB8#8) → p2.extractLsb' 5 2 = 0b11#2 →
    ¬(p2.extractLsb' 4 1 = 1#1 ∧ modrm.extractLsb' 6 2 = 0b11#2) → step s = raise .invalidOpcode s

/-- R105: zeroing requested without a mask raises `#UD`, in all twelve EVEX constructors. -/
def Obligations.ZeroingWithoutMaskRaisesUD : Prop :=
  ∀ (k : Kind) (pfx : List LegacyPrefix) (d v : VReg) (s : State), Admitted s →
    (∀ (w : EvexLen) (r : EvexSrc3), exec (mkEvex k w pfx ⟨0#3, true⟩ d v r) s = raise .invalidOpcode s) ∧
    (∀ (rc : RoundingMode) (r : VReg), exec (mkEr k pfx rc ⟨0#3, true⟩ d v r) s = raise .invalidOpcode s)

/-- R106: bytes next to the family are refused, not faulted: another first byte, another map, `W`, `pp` or opcode byte. -/
def Obligations.OutsideFamilyRefused : Prop :=
  ∀ (s : State) (pfx : List LegacyPrefix), Running s →
    (∀ b : Byte, pfx.length + 1 ≤ 15 → Fetches s (pfx.map byteOfPrefix ++ [b]) → prefixOfByte b = none → b ≠ 0xC4#8 →
      b ≠ 0x62#8 → step s = .refused .outsideFamily) ∧
    (∀ b1 b2 op : Byte, pfx.length + 4 ≤ 15 → Fetches s (pfx.map byteOfPrefix ++ [0xC4#8, b1, b2, op]) →
      (b1.extractLsb' 0 5 ≠ 0b00010#5 ∨ b2.extractLsb' 7 1 ≠ 1#1 ∨ b2.extractLsb' 0 2 ≠ 0b01#2 ∨
        (op ≠ 0x98#8 ∧ op ≠ 0xA8#8 ∧ op ≠ 0xB8#8)) → step s = .refused .outsideFamily) ∧
    (∀ p0 p1 p2 op : Byte, pfx.length + 5 ≤ 15 → Fetches s (pfx.map byteOfPrefix ++ [0x62#8, p0, p1, p2, op]) →
      (p0.extractLsb' 0 2 ≠ 0b10#2 ∨ p1.extractLsb' 7 1 ≠ 1#1 ∨ p1.extractLsb' 0 2 ≠ 0b01#2 ∨
        (op ≠ 0x98#8 ∧ op ≠ 0xA8#8 ∧ op ≠ 0xB8#8)) → step s = .refused .outsideFamily)

/-! ## The step -/

/-- R226: in a running state, the step is the meaning of the instruction the fetched bytes decode to; nothing is added around it. -/
def Obligations.StepRunsDecoded : Prop :=
  ∀ (s : State) (i : Instr), Running s → decode (fetchWindow s).1 = .instr i → step s = exec i s

/-- R226: where the bytes of a well-formed instruction stand at the instruction pointer, the step runs exactly it. -/
def Obligations.StepRunsEncoded : Prop :=
  ∀ (s : State) (i : Instr), Running s → i.wf = true → Fetches s (encode i) → step s = exec i s

/-- Where a step takes no instruction. A faulted state answers the same fault again (the model's choice, notes/assumptions/12.md: the
fault is terminal); at `EndAddr` the run has ended, as a refusal carrying the final state (the model's choice,
notes/assumptions/11.md); and a state outside the launch premises is refused: another mode than 64-bit mode (U14,
notes/assumptions/9.md), `MXCSR[31:16]` not 0 (U7, R222 L9, notes/assumptions/10.md), `RFLAGS.TF = 1` (R222 L7,
notes/assumptions/14.md; that `TF` is bit 8 is PRESUMED, notes/assumptions/27.md). -/
def Obligations.StepEnds : Prop :=
  (∀ (s : State) (e : Exn), s.fault = some e → step s = .fault (.exception e s)) ∧
  (∀ s : State, s.fault = none → s.cfg.endAddr = some s.pc → step s = .refused (.runEnded s)) ∧
  (∀ s : State, s.fault = none → s.cfg.endAddr ≠ some s.pc →
    s.mode ≠ .mode64 → step s = .refused .modeNotAdmitted) ∧
  (∀ s : State, s.fault = none → s.cfg.endAddr ≠ some s.pc →
    s.mode = .mode64 → s.mxcsr.extractLsb' 16 16 ≠ 0#16 → step s = .refused .reservedMxcsr) ∧
  (∀ s : State, s.fault = none → s.cfg.endAddr ≠ some s.pc →
    s.mode = .mode64 → s.mxcsr.extractLsb' 16 16 = 0#16 → s.rflags.getLsbD 8 = true → step s = .refused .singleStep)

/-- R80, R198 c: an instruction longer than 15 bytes raises `#GP(0)` once its first 15 bytes are fetched. -/
def Obligations.OverlongInstruction : Prop :=
  ∀ (s : State) (i : Instr), Running s → i.operandsWf = true → 15 < i.size → Fetches s ((encode i).take 15) →
    step s = raise .generalProtection s

/-- R198 d: when the bytes of an instruction stop being fetchable inside it, the step reports the fault of the first byte that cannot
be fetched. First is by the order of the instruction's bytes, also where the instruction wraps past the top of the address space, and
not by address as for a data read in R61 b: DEDUCED, notes/assumptions/24.md. The width of the error code is PRESUMED
(notes/assumptions/28.md). -/
def Obligations.FetchFault : Prop :=
  ∀ (s : State) (i : Instr) (n : Nat), Running s → i.wf = true → n < i.size → Fetches s ((encode i).take n) →
    (canonical s.cfg.law (byteAddr (fetchBase s) n) = false → step s = raise .generalProtection s) ∧
    (canonical s.cfg.law (byteAddr (fetchBase s) n) = true → ∀ code : BitVec 32,
      Machine.translate s .fetch (byteAddr (fetchBase s) n) = .pageFault code →
      step s = raise (.pageFault code (byteAddr (fetchBase s) n)) s)

/-- Loading a word of the opcode table at the fetch makes the next step run its instruction, from any state whose memory is in
canonical form and whose fetch addresses are canonical: loading sets the launch premises that a step needs. How a program is loaded is
the model's choice (notes/assumptions/4.md). -/
def Obligations.LoadedWordRuns : Prop :=
  ∀ (s : State) (nbits w : Nat) (i : Instr), Memory.wf s.mem = true →
    (∀ j, j < 15 → canonical s.cfg.law (byteAddr s.pc j) = true) → decodeTableWord nbits w = some i →
    step (s.withFetchWord nbits w) = exec i (s.withFetchWord nbits w)

/-! ## Checks before the operands -/

/-- R192 a to d: each condition alone makes each of the six VEX instructions raise `#UD`; and so do real-address and virtual-8086 mode
(R38, R108; that an instruction has this meaning there although no step is launched there: notes/assumptions/9.md). -/
def Obligations.VexUndefined : Prop :=
  ∀ (k : Kind) (w : VexLen) (pfx : List LegacyPrefix) (d v : BitVec 4) (r : VexSrc3) (s : State), Admitted s →
    (s.mode ≠ .mode64 ∨ s.cfg.hasFMA = false ∨ s.cr4.getLsbD 18 = false ∨ s.xcr0.extractLsb' 1 2 ≠ 0b11#2 ∨
      ∃ p ∈ pfx, forbiddenPrefix p = true) →
    exec (mkVex k w pfx d v r) s = raise .invalidOpcode s

/-- R194 a to e and h: each condition alone makes each of the twelve EVEX instructions raise `#UD`; and so do real-address and
virtual-8086 mode, which R194 does not say (R38, R108; DEDUCED, notes/assumptions/9.md). `AVX512VL` matters to the lengths 128 and 256
only, not to embedded rounding. -/
def Obligations.EvexUndefined : Prop :=
  ∀ (k : Kind) (pfx : List LegacyPrefix) (mk : Masking) (d v : VReg) (s : State), Admitted s →
    (∀ (w : EvexLen) (r : EvexSrc3),
      (s.mode ≠ .mode64 ∨ s.cfg.hasAVX512F = false ∨ (w.needsVL = true ∧ s.cfg.hasAVX512VL = false) ∨ s.cr4.getLsbD 18 = false ∨
        s.xcr0.extractLsb' 1 2 ≠ 0b11#2 ∨ s.xcr0.extractLsb' 5 3 ≠ 0b111#3 ∨ (∃ p ∈ pfx, forbiddenPrefix p = true) ∨
        (mk.z = true ∧ mk.aaa = 0#3)) →
      exec (mkEvex k w pfx mk d v r) s = raise .invalidOpcode s) ∧
    (∀ (rc : RoundingMode) (r : VReg),
      (s.mode ≠ .mode64 ∨ s.cfg.hasAVX512F = false ∨ s.cr4.getLsbD 18 = false ∨ s.xcr0.extractLsb' 1 2 ≠ 0b11#2 ∨
        s.xcr0.extractLsb' 5 3 ≠ 0b111#3 ∨ (∃ p ∈ pfx, forbiddenPrefix p = true) ∨ (mk.z = true ∧ mk.aaa = 0#3)) →
      exec (mkEr k pfx rc mk d v r) s = raise .invalidOpcode s)

/-- R195: with `CR0.TS = 1` and no `#UD` condition, every form raises `#NM`, whatever its operands are. -/
def Obligations.DeviceNotAvailable : Prop :=
  ∀ (k : Kind) (pfx : List LegacyPrefix) (s : State), s.cr0.getLsbD 3 = true →
    (∀ (w : VexLen) (d v : BitVec 4) (r : VexSrc3), VexEnabled pfx s →
      exec (mkVex k w pfx d v r) s = raise .deviceNotAvailable s) ∧
    (∀ (w : EvexLen) (mk : Masking) (d v : VReg) (r : EvexSrc3), EvexEnabled w.needsVL pfx mk s →
      exec (mkEvex k w pfx mk d v r) s = raise .deviceNotAvailable s) ∧
    (∀ (rc : RoundingMode) (mk : Masking) (d v r : VReg), EvexEnabled false pfx mk s →
      exec (mkEr k pfx rc mk d v r) s = raise .deviceNotAvailable s)

/-- R38: the reset values the spec gives, and its consequence that every instruction of the family raises `#UD` there. -/
def Obligations.ResetState : Prop :=
  State.reset.mxcsr = 0x00001F80#32 ∧
  (∀ (r : VReg) (j : Nat), lane (readZmm State.reset r) j = 0#64) ∧
  (∀ r : OpmaskNum, readK State.reset r = 0#64) ∧
  (∀ r : Gpr, r ≠ 2#4 → readGpr State.reset r = 0#64) ∧
  State.reset.pc = 0xFFF0#64 ∧ fetchBase State.reset = 0xFFFFFFF0#64 ∧ State.reset.mode = .realAddress ∧
  State.reset.rflags = 0x00000002#64 ∧ State.reset.cr0 = 0x60000010#64 ∧ State.reset.cr4 = 0#64 ∧ State.reset.xcr0 = 1#64 ∧
  State.reset.fsBase = 0#64 ∧ State.reset.gsBase = 0#64 ∧ State.reset.cpl = 0#2 ∧
  (∀ i : Instr, exec i State.reset = raise .invalidOpcode State.reset)

/-! ## Results -/

/-- R146, R150 to R155: each of the six VEX instructions, enabled, with its third source readable and every reported exception masked,
completes: the destination gets the element results and zeros above `VL`, `MXCSR` the union of the flags, `pc` advances. -/
def Obligations.VexResult : Prop :=
  ∀ (k : Kind) (w : VexLen) (pfx : List LegacyPrefix) (d v : BitVec 4) (r : VexSrc3) (s : State),
    VexReady pfx s → vexReadable s pfx w r →
    (∀ j, j < w.elements → laneMasked s.mxcsr (vexLaneResult s k pfx d v r j) = true) →
    exec (mkVex k w pfx d v r) s = .next
      { writeZmm s (d.setWidth 5) (vexResult w.elements (vexLaneResult s k pfx d v r)) with
        mxcsr := s.mxcsr ||| flagsOf ((List.range w.elements).map (vexLaneResult s k pfx d v r))
        pc := s.pc + BitVec.ofNat 64 (vexSize pfx r) }

/-- R160 to R162, R166 to R174: each of the nine EVEX instructions without embedded rounding, in its register, full-vector and broadcast
forms, enabled, readable and with every exception of an active element masked, completes: merging or zeroing under the mask. -/
def Obligations.EvexResult : Prop :=
  ∀ (k : Kind) (w : EvexLen) (pfx : List LegacyPrefix) (mk : Masking) (d v : VReg) (r : EvexSrc3) (s : State),
    EvexReady w.needsVL pfx mk s → evexReadable s pfx w mk r →
    (∀ j ∈ activeBelow s mk w.elements, laneMasked s.mxcsr (evexLaneResult s k w pfx d v r j) = true) →
    exec (mkEvex k w pfx mk d v r) s = .next
      { writeZmm s d (maskedResult s mk d w.elements (evexLaneResult s k w pfx d v r)) with
        mxcsr := s.mxcsr ||| flagsOf ((activeBelow s mk w.elements).map (evexLaneResult s k w pfx d v r))
        pc := s.pc + BitVec.ofNat 64 (evexSize pfx r) }

/-- R163, R172 to R174: each of the three embedded-rounding instructions, enabled, completes whatever the masks in `MXCSR` are, rounds by
the mode of the prefix over eight elements, and does not write `MXCSR`. -/
def Obligations.EmbeddedRoundingResult : Prop :=
  ∀ (k : Kind) (pfx : List LegacyPrefix) (rc : RoundingMode) (mk : Masking) (d v r : VReg) (s : State),
    EvexReady false pfx mk s →
    exec (mkEr k pfx rc mk d v r) s = .next
      { writeZmm s d (maskedResult s mk d 8 (erLaneResult s k rc d v r)) with
        pc := s.pc + BitVec.ofNat 64 (evexSize pfx (.reg r)) }

/-- R56, R178 b: under fault suppression an EVEX form with no active element completes whatever its operand's address is, reads nothing
and sets no flag. -/
def Obligations.NoActiveElementCompletes : Prop :=
  ∀ (k : Kind) (w : EvexLen) (pfx : List LegacyPrefix) (mk : Masking) (d v : VReg) (r : EvexSrc3) (s : State),
    EvexReady w.needsVL pfx mk s → s.cfg.faultSuppression = true → (∀ j, j < w.elements → maskOn s mk j = false) →
    exec (mkEvex k w pfx mk d v r) s = .next
      { writeZmm s d (ofLanes (fun j => if j < w.elements then (if mk.z then 0#64 else lane (readZmm s d) j) else 0#64)) with
        pc := s.pc + BitVec.ofNat 64 (evexSize pfx r) }

/-! ## Exceptions of the operand and of the arithmetic -/

/-- R60, R198 a: a memory form with a non-canonical accessed byte raises `#SS(0)` or `#GP(0)` as the segment of its operand says, before
anything else about the operand is checked: `#GP(0)` whenever `FS` or `GS` is among the overrides. -/
def Obligations.NonCanonicalRead : Prop :=
  ∀ (k : Kind) (pfx : List LegacyPrefix) (m : MemOperand) (o : Nat) (s : State),
    (∀ (w : VexLen) (d v : BitVec 4), VexReady pfx s → o < 8 * w.elements →
      canonical s.cfg.law (byteAddr (vexAddr s pfx m) o) = false →
      ∃ e, NonCanonicalReport pfx m e ∧ exec (mkVex k w pfx d v (.mem m)) s = raise e s) ∧
    (∀ (w : EvexLen) (mk : Masking) (d v : VReg), EvexReady w.needsVL pfx mk s → FullAccessed s w mk o →
      canonical s.cfg.law (byteAddr (fullAddr s pfx w m) o) = false →
      ∃ e, NonCanonicalReport pfx m e ∧ exec (mkEvex k w pfx mk d v (.full m)) s = raise e s) ∧
    (∀ (w : EvexLen) (mk : Masking) (d v : VReg), EvexReady w.needsVL pfx mk s → BcastAccessed s w mk o →
      canonical s.cfg.law (byteAddr (bcastAddr s pfx m) o) = false →
      ∃ e, NonCanonicalReport pfx m e ∧ exec (mkEvex k w pfx mk d v (.bcast m)) s = raise e s)

/-- R61, R62, R198 b: with every accessed byte canonical (and a checked broadcast aligned), the lowest accessed byte that is not in
storage decides: `#PF` with its code and address, or, for device memory, the model's refusal (notes/assumptions/2.md). Lowest is by
address, also where the operand wraps past the top of the address space. The width of the error code is PRESUMED
(notes/assumptions/28.md). -/
def Obligations.LowestFaultingByte : Prop :=
  ∀ (k : Kind) (pfx : List LegacyPrefix) (m : MemOperand) (o : Nat) (code : BitVec 32) (s : State),
    (∀ (w : VexLen) (d v : BitVec 4), VexReady pfx s → o < 8 * w.elements →
      (∀ q, q < 8 * w.elements → canonical s.cfg.law (byteAddr (vexAddr s pfx m) q) = true) →
      (∀ q, q < 8 * w.elements → (byteAddr (vexAddr s pfx m) q).toNat < (byteAddr (vexAddr s pfx m) o).toNat →
        ByteReadable s (byteAddr (vexAddr s pfx m) q)) →
      (Machine.translate s .dataRead (byteAddr (vexAddr s pfx m) o) = .pageFault code →
        exec (mkVex k w pfx d v (.mem m)) s = raise (.pageFault code (byteAddr (vexAddr s pfx m) o)) s) ∧
      (Machine.translate s .dataRead (byteAddr (vexAddr s pfx m) o) = .device →
        exec (mkVex k w pfx d v (.mem m)) s = .refused .deviceMemory)) ∧
    (∀ (w : EvexLen) (mk : Masking) (d v : VReg), EvexReady w.needsVL pfx mk s → FullAccessed s w mk o →
      (∀ q, FullAccessed s w mk q → canonical s.cfg.law (byteAddr (fullAddr s pfx w m) q) = true) →
      (∀ q, FullAccessed s w mk q → (byteAddr (fullAddr s pfx w m) q).toNat < (byteAddr (fullAddr s pfx w m) o).toNat →
        ByteReadable s (byteAddr (fullAddr s pfx w m) q)) →
      (Machine.translate s .dataRead (byteAddr (fullAddr s pfx w m) o) = .pageFault code →
        exec (mkEvex k w pfx mk d v (.full m)) s = raise (.pageFault code (byteAddr (fullAddr s pfx w m) o)) s) ∧
      (Machine.translate s .dataRead (byteAddr (fullAddr s pfx w m) o) = .device →
        exec (mkEvex k w pfx mk d v (.full m)) s = .refused .deviceMemory)) ∧
    (∀ (w : EvexLen) (mk : Masking) (d v : VReg), EvexReady w.needsVL pfx mk s → BcastAccessed s w mk o →
      (∀ q, q < 8 → canonical s.cfg.law (byteAddr (bcastAddr s pfx m) q) = true) →
      (AlignmentChecked s → (bcastAddr s pfx m).toNat % 8 = 0) →
      (∀ q, q < 8 → (byteAddr (bcastAddr s pfx m) q).toNat < (byteAddr (bcastAddr s pfx m) o).toNat →
        ByteReadable s (byteAddr (bcastAddr s pfx m) q)) →
      (Machine.translate s .dataRead (byteAddr (bcastAddr s pfx m) o) = .pageFault code →
        exec (mkEvex k w pfx mk d v (.bcast m)) s = raise (.pageFault code (byteAddr (bcastAddr s pfx m) o)) s) ∧
      (Machine.translate s .dataRead (byteAddr (bcastAddr s pfx m) o) = .device →
        exec (mkEvex k w pfx mk d v (.bcast m)) s = .refused .deviceMemory))

/-- R199: `#AC(0)` is raised by a misaligned, accessed broadcast read with alignment checking on, after the canonical check and before
`#PF`, and by no other instruction. -/
def Obligations.AlignmentCheckOnlyBroadcast : Prop :=
  (∀ (k : Kind) (w : EvexLen) (pfx : List LegacyPrefix) (mk : Masking) (d v : VReg) (m : MemOperand) (s : State),
    EvexReady w.needsVL pfx mk s → AlignmentChecked s → BcastAccessed s w mk 0 →
    (∀ q, q < 8 → canonical s.cfg.law (byteAddr (bcastAddr s pfx m) q) = true) → (bcastAddr s pfx m).toNat % 8 ≠ 0 →
    exec (mkEvex k w pfx mk d v (.bcast m)) s = raise .alignmentCheck s) ∧
  (∀ (i : Instr) (s t : State), exec i s = .fault (.exception .alignmentCheck t) →
    ∃ (k : Kind) (w : EvexLen) (pfx : List LegacyPrefix) (mk : Masking) (d v : VReg) (m : MemOperand),
      i = mkEvex k w pfx mk d v (.bcast m) ∧ AlignmentChecked s ∧ BcastAccessed s w mk 0 ∧
        (bcastAddr s pfx m).toNat % 8 ≠ 0 ∧ ∀ q, q < 8 → canonical s.cfg.law (byteAddr (bcastAddr s pfx m) q) = true)

/-- R196, R197: an unmasked exception of some computed element makes the instruction raise `#XM` (vector 19) or, with
`CR4.OSXMMEXCPT = 0`, `#UD` (vector 6), with the flags of R196 in `MXCSR` and nothing else changed; all fifteen instructions without
embedded rounding. -/
def Obligations.UnmaskedExceptionRaises : Prop :=
  Exn.vector .simdFloatingPoint = 19 ∧ Exn.vector .invalidOpcode = 6 ∧
  (∀ (k : Kind) (w : VexLen) (pfx : List LegacyPrefix) (d v : BitVec 4) (r : VexSrc3) (s : State),
    VexReady pfx s → vexReadable s pfx w r →
    (∃ j, j < w.elements ∧ laneMasked s.mxcsr (vexLaneResult s k pfx d v r j) = false) →
    exec (mkVex k w pfx d v r) s = raise (if s.cr4.getLsbD 10 then .simdFloatingPoint else .invalidOpcode)
      { s with mxcsr := mxcsrAtSimdFault s.mxcsr ((List.range w.elements).map (vexLaneResult s k pfx d v r)) }) ∧
  (∀ (k : Kind) (w : EvexLen) (pfx : List LegacyPrefix) (mk : Masking) (d v : VReg) (r : EvexSrc3) (s : State),
    EvexReady w.needsVL pfx mk s → evexReadable s pfx w mk r →
    (∃ j ∈ activeBelow s mk w.elements, laneMasked s.mxcsr (evexLaneResult s k w pfx d v r j) = false) →
    exec (mkEvex k w pfx mk d v r) s = raise (if s.cr4.getLsbD 10 then .simdFloatingPoint else .invalidOpcode)
      { s with mxcsr := mxcsrAtSimdFault s.mxcsr ((activeBelow s mk w.elements).map (evexLaneResult s k w pfx d v r)) })

/-! ## The element function -/

/-- R123: with `daz = 1` every denormal operand is replaced by the zero of its sign before anything else, and `DE` is never set. -/
def Obligations.DenormalsAreZero : Prop :=
  ∀ (p : FpControl) (x y z : E64), p.daz = true →
    fma64 p x y z = fma64 { p with daz := false }
      (if classOf x = .denormal then zeroE (signOf x) else x) (if classOf y = .denormal then zeroE (signOf y) else y)
      (if classOf z = .denormal then zeroE (signOf z) else z) ∧
    (fma64 p x y z).pre.de = false

/-- R125: a NaN operand. The result is the quieted pick, `IE` reports a signalling operand, nothing else is reported; quieting sets bit
51 and no other bit. -/
def Obligations.NaNOperand : Prop :=
  (∀ (p : FpControl) (x y z : E64), p.daz = false → (isNaN x = true ∨ isNaN y = true ∨ isNaN z = true) →
    (fma64 p x y z).res = quiet (nanPick p.nanRule x y z) ∧
    ((fma64 p x y z).pre.ie = true ↔ classOf x = .snan ∨ classOf y = .snan ∨ classOf z = .snan) ∧
    (fma64 p x y z).pre.de = false ∧ (fma64 p x y z).post = ⟨false, false, false⟩) ∧
  (∀ (w : E64) (n : Nat), (quiet w).getLsbD n = if n = 51 then true else w.getLsbD n)

/-- R128: the pick is one of the NaN operands under every rule; the recommended rule takes the first NaN of `x`, `y`, `z`, which in operand
names is `DEST`, `SRC3`, `SRC2` for 132, `SRC2`, `DEST`, `SRC3` for 213, `SRC2`, `SRC3`, `DEST` for 231. -/
def Obligations.NaNPickChoice : Prop :=
  (∀ (rule : NaNRule) (x y z : E64), (isNaN x = true ∨ isNaN y = true ∨ isNaN z = true) →
    isNaN (nanPick rule x y z) = true ∧ (nanPick rule x y z = x ∨ nanPick rule x y z = y ∨ nanPick rule x y z = z)) ∧
  (∀ x y z : E64, nanPick .firstOperand x y z = if isNaN x then x else if isNaN y then y else z) ∧
  (∀ (p : FpControl) (dest src2 src3 : E64), p.daz = false → p.nanRule = .firstOperand →
    (isNaN dest = true ∨ isNaN src2 = true ∨ isNaN src3 = true) →
    (fmaLane .k132 .recommended p dest src2 src3).res = quiet (if isNaN dest then dest else if isNaN src3 then src3 else src2) ∧
    (fmaLane .k213 .recommended p dest src2 src3).res = quiet (if isNaN src2 then src2 else if isNaN dest then dest else src3) ∧
    (fmaLane .k231 .recommended p dest src2 src3).res = quiet (if isNaN src2 then src2 else if isNaN src3 then src3 else dest))

/-- R126, R127: `inf * 0` and `inf - inf` without a NaN operand give the QNaN floating-point indefinite and report `IE` alone. -/
def Obligations.InvalidOperation : Prop :=
  ∀ (p : FpControl) (x y z : E64), p.daz = false → isNaN x = false → isNaN y = false → isNaN z = false →
    ((classOf x = .infinity ∧ classOf y = .zero) ∨ (classOf x = .zero ∧ classOf y = .infinity) ∨
      (((classOf x = .infinity ∧ classOf y ≠ .zero) ∨ (classOf y = .infinity ∧ classOf x ≠ .zero)) ∧
        classOf z = .infinity ∧ (signOf x ^^ signOf y) ≠ signOf z)) →
    fma64 p x y z = ⟨0xFFF8000000000000#64, ⟨true, false⟩, ⟨false, false, false⟩⟩

/-- R129: with `daz = 0`, no NaN operand and no invalid operation, `DE` is reported exactly for a denormal operand; and `IE` is not. -/
def Obligations.DenormalOperand : Prop :=
  ∀ (p : FpControl) (x y z : E64), p.daz = false → isNaN x = false → isNaN y = false → isNaN z = false →
    invalidOp x y z = false →
    ((fma64 p x y z).pre.de = true ↔ classOf x = .denormal ∨ classOf y = .denormal ∨ classOf z = .denormal) ∧
    (fma64 p x y z).pre.ie = false

/-- R130: an infinite operand without a NaN operand or an invalid operation gives an exact infinity: of the product's sign when a factor is
infinite, else the addend. -/
def Obligations.InfiniteOperand : Prop :=
  ∀ (p : FpControl) (x y z : E64), p.daz = false → isNaN x = false → isNaN y = false → isNaN z = false →
    invalidOp x y z = false →
    ((classOf x = .infinity ∨ classOf y = .infinity) →
      (fma64 p x y z).res = (if signOf x ^^ signOf y then 0xFFF0000000000000#64 else 0x7FF0000000000000#64) ∧
      (fma64 p x y z).post = ⟨false, false, false⟩) ∧
    (classOf x ≠ .infinity → classOf y ≠ .infinity → classOf z = .infinity →
      (fma64 p x y z).res = z ∧ (fma64 p x y z).post = ⟨false, false, false⟩)

/-- R131: for finite operands the integer that the machine rounds, in units of `2^-2148`, is exactly `val x * val y + val z`; the product is
not rounded first, as the rule's example shows. -/
def Obligations.ExactIntermediate : Prop :=
  (∀ x y z : E64, isFinite x = true → isFinite y = true → isFinite z = true →
    (exactUnits x y z : ℚ) * 2 ^ (-2148 : ℤ) = exactVal x y z) ∧
  (fma64 ⟨.rn, false, false, true, true, .firstOperand⟩ 0x3FF0000000000001#64 0x3FF0000000000001#64 0xBFF0000000000002#64).res =
    0x3970000000000000#64

/-- R132: an exact zero is a zero without exceptions, with the common sign of product and addend, or by the mode where they differ. -/
def Obligations.ExactZero : Prop :=
  ∀ (p : FpControl) (x y z : E64), p.daz = false → isFinite x = true → isFinite y = true → isFinite z = true →
    exactVal x y z = 0 →
    (fma64 p x y z).res =
      (if (if (signOf x ^^ signOf y) = signOf z then signOf z else decide (p.rc = .rd)) then 0x8000000000000000#64 else 0#64) ∧
    (fma64 p x y z).post = ⟨false, false, false⟩

/-- R133: the machine's rounding of a nonzero exact value is `round(E, rc)`, to 53 significant bits with unbounded exponent range, and no
other value is. -/
def Obligations.RoundingTo53Bits : Prop :=
  ∀ (rc : RoundingMode) (x y z : E64), isFinite x = true → isFinite y = true → isFinite z = true → exactVal x y z ≠ 0 →
    ∀ ru : ℚ, IsRound53 rc (exactVal x y z) ru ↔
      ru = withSignOf (exactVal x y z)
        ((roundUnbounded rc (decide (exactVal x y z < 0)) (exactUnits x y z).natAbs : ℚ) * 2 ^ (-2148 : ℤ))

/-- R137: a nonzero exact value that neither overflows nor is tiny gives the normal number `Ru`, and `PE` exactly when it is inexact. -/
def Obligations.NormalResult : Prop :=
  ∀ (p : FpControl) (x y z : E64) (ru : ℚ), p.daz = false → isFinite x = true → isFinite y = true → isFinite z = true →
    exactVal x y z ≠ 0 → IsRound53 p.rc (exactVal x y z) ru → 2 ^ (-1022 : ℤ) ≤ |ru| → |ru| < 2 ^ (1024 : ℤ) →
    classOf (fma64 p x y z).res = .normal ∧ realVal (fma64 p x y z).res = ru ∧
    (fma64 p x y z).post = ⟨false, false, decide (ru ≠ exactVal x y z)⟩

/-- R134: overflow is judged after rounding; masked, it reports `PE` too and gives the result of the table by mode and sign; unmasked, `PE`
reports whether the rounding was inexact. -/
def Obligations.OverflowResponse : Prop :=
  ∀ (p : FpControl) (x y z : E64) (ru : ℚ), p.daz = false → isFinite x = true → isFinite y = true → isFinite z = true →
    exactVal x y z ≠ 0 → IsRound53 p.rc (exactVal x y z) ru → 2 ^ (1024 : ℤ) ≤ |ru| →
    (fma64 p x y z).post.oe = true ∧ (fma64 p x y z).post.ue = false ∧
    (p.om = true → (fma64 p x y z).post.pe = true ∧
      (fma64 p x y z).res =
        (match p.rc with
          | .rn => if exactVal x y z < 0 then 0xFFF0000000000000#64 else 0x7FF0000000000000#64
          | .rd => if exactVal x y z < 0 then 0xFFF0000000000000#64 else 0x7FEFFFFFFFFFFFFF#64
          | .ru => if exactVal x y z < 0 then 0xFFEFFFFFFFFFFFFF#64 else 0x7FF0000000000000#64
          | .rz => if exactVal x y z < 0 then 0xFFEFFFFFFFFFFFFF#64 else 0x7FEFFFFFFFFFFFFF#64)) ∧
    (p.om = false → (fma64 p x y z).post.pe = decide (ru ≠ exactVal x y z))

/-- R135: a tiny result, tininess judged after rounding. Unmasked, `UE` is reported always and `PE` when the rounding was inexact; masked
without flushing, the result is the rounding to a multiple of `2^-1074` with the sign of `E`, and both are reported exactly when that is
inexact. -/
def Obligations.UnderflowResponse : Prop :=
  ∀ (p : FpControl) (x y z : E64) (ru : ℚ), p.daz = false → isFinite x = true → isFinite y = true → isFinite z = true →
    exactVal x y z ≠ 0 → IsRound53 p.rc (exactVal x y z) ru → |ru| < 2 ^ (-1022 : ℤ) →
    (p.um = false → (fma64 p x y z).post = ⟨false, true, decide (ru ≠ exactVal x y z)⟩) ∧
    (p.um = true → p.ftz = false → ∀ rd : ℚ, IsRoundDenormal p.rc (exactVal x y z) rd →
      isFinite (fma64 p x y z).res = true ∧ realVal (fma64 p x y z).res = rd ∧
      signOf (fma64 p x y z).res = decide (exactVal x y z < 0) ∧
      (fma64 p x y z).post = ⟨false, decide (rd ≠ exactVal x y z), decide (rd ≠ exactVal x y z)⟩)

/-- R136: with underflow masked and `ftz = 1` a tiny result is the zero of the sign of `E` with `UE` and `PE`, exact or not; in every other
case `ftz` makes no difference. -/
def Obligations.FlushToZero : Prop :=
  (∀ (p : FpControl) (x y z : E64) (ru : ℚ), p.daz = false → isFinite x = true → isFinite y = true → isFinite z = true →
    exactVal x y z ≠ 0 → IsRound53 p.rc (exactVal x y z) ru → |ru| < 2 ^ (-1022 : ℤ) → p.um = true → p.ftz = true →
    (fma64 p x y z).res = (if exactVal x y z < 0 then 0x8000000000000000#64 else 0#64) ∧
    (fma64 p x y z).post = ⟨false, true, true⟩) ∧
  (∀ (p : FpControl) (x y z : E64), p.daz = false →
    (p.um = false ∨ isFinite x = false ∨ isFinite y = false ∨ isFinite z = false ∨ exactVal x y z = 0 ∨
      ∃ ru : ℚ, IsRound53 p.rc (exactVal x y z) ru ∧ 2 ^ (-1022 : ℤ) ≤ |ru|) →
    fma64 { p with ftz := true } x y z = fma64 { p with ftz := false } x y z)

/-- R141 P6: for finite operands without flushing, the round-down result is at most the exact value, the round-up result at least, and the
other two modes give one of those two. -/
def Obligations.DirectedModesBracket : Prop :=
  ∀ (nan : NaNRule) (x y z : E64), isFinite x = true → isFinite y = true → isFinite z = true →
    let result (rc : RoundingMode) : E64 := (fma64 ⟨rc, false, false, true, true, nan⟩ x y z).res
    belowOrEqual (result .rd) (exactVal x y z) ∧ aboveOrEqual (result .ru) (exactVal x y z) ∧
    (result .rn = result .rd ∨ result .rn = result .ru) ∧ (result .rz = result .rd ∨ result .rz = result .ru)

/-- R141 P5: for finite operands and a fixed mode, masked and without flushing, the result never falls when the exact value rises. -/
def Obligations.MonotoneRounding : Prop :=
  ∀ (p : FpControl) (x y z x' y' z' : E64), p.daz = false → p.ftz = false → p.om = true → p.um = true →
    isFinite x = true → isFinite y = true → isFinite z = true →
    isFinite x' = true → isFinite y' = true → isFinite z' = true → exactVal x y z ≤ exactVal x' y' z' →
    orderKey (fma64 p x y z).res ≤ orderKey (fma64 p x' y' z').res

/-- R141 P1: an exact value that a normal number or a zero represents is the result, with no exception of the result. -/
def Obligations.ExactResult : Prop :=
  ∀ (p : FpControl) (x y z w : E64), p.daz = false → isFinite x = true → isFinite y = true → isFinite z = true →
    (classOf w = .normal ∨ classOf w = .zero) → realVal w = exactVal x y z →
    classOf (fma64 p x y z).res = classOf w ∧ realVal (fma64 p x y z).res = exactVal x y z ∧
    (fma64 p x y z).post = ⟨false, false, false⟩

/-- R141 P2: exchanging the factors changes no exception, and no result unless both are NaNs (recommended NaN rule). -/
def Obligations.FactorSymmetry : Prop :=
  ∀ (p : FpControl) (x y z : E64),
    (fma64 p x y z).pre = (fma64 p y x z).pre ∧ (fma64 p x y z).post = (fma64 p y x z).post ∧
    (p.nanRule = .firstOperand → ¬(isNaN x = true ∧ isNaN y = true) → (fma64 p x y z).res = (fma64 p y x z).res)

/-- R141 P3: the result is a NaN exactly for a NaN operand or an invalid operation, and then it is quiet. -/
def Obligations.NaNClosure : Prop :=
  ∀ (p : FpControl) (x y z : E64), p.daz = false →
    (isNaN (fma64 p x y z).res = true ↔
      isNaN x = true ∨ isNaN y = true ∨ isNaN z = true ∨ invalidOp x y z = true) ∧
    (isNaN (fma64 p x y z).res = true → classOf (fma64 p x y z).res = .qnan)

/-- R141 P7: multiplying a normal number or an infinity by one and adding a zero gives it back, with no exception, in every mode. -/
def Obligations.MultiplyByOne : Prop :=
  ∀ (p : FpControl) (x z : E64), (classOf x = .normal ∨ classOf x = .infinity) → classOf z = .zero →
    fma64 p x 0x3FF0000000000000#64 z = ⟨x, ⟨false, false⟩, ⟨false, false, false⟩⟩

/-! ## Frames, precision and invariants -/

/-- R22, R24, R26, R147, R165: what each of the eighteen instructions leaves unchanged when it completes: every vector register but the
destination, every other register, every byte of memory, `MXCSR` but for sticky flags (all of it under embedded rounding); `pc` advances
by the length (R21). -/
def Obligations.InstructionFrame : Prop :=
  ∀ (i : Instr) (s t : State), exec i s = .next t →
    (∀ r : VReg, r ≠ i.dest → readZmm t r = readZmm s r) ∧ t.pc = s.pc + BitVec.ofNat 64 i.size ∧
    t.mxcsr &&& ~~~settableFlags = s.mxcsr &&& ~~~settableFlags ∧ t.mxcsr &&& s.mxcsr = s.mxcsr ∧
    (16 ≤ i.row → t.mxcsr = s.mxcsr) ∧
    t.x = s.x ∧ t.rflags = s.rflags ∧ t.k = s.k ∧ t.cr0 = s.cr0 ∧ t.cr4 = s.cr4 ∧ t.xcr0 = s.xcr0 ∧ t.fsBase = s.fsBase ∧
    t.gsBase = s.gsBase ∧ t.csBase = s.csBase ∧ t.cpl = s.cpl ∧ t.mode = s.mode ∧ t.xlat = s.xlat ∧ t.fault = s.fault ∧
    t.cfg = s.cfg ∧ (∀ a : Nat, Memory.read t.mem a = Memory.read s.mem a) ∧ t.mem = s.mem

/-- R200, R202: what an exception records, and that exceptions are precise, those of the eighteen instructions and those of the fetch and
the decoding. The vector, the error code and the address are those of the table of R190 (that a code has
32 bits is PRESUMED, notes/assumptions/28.md). The state at a fault is the state before the
instruction, `pc` at its first byte, with the exception recorded and, for a SIMD floating-point exception only, flags of `MXCSR` set. That a
step of a state that has already faulted answers its fault again, which the second clause covers too, is the model's choice
(notes/assumptions/12.md). -/
def Obligations.PreciseExceptions : Prop :=
  (∀ e : Exn, (e.vector, e.errorCode, e.address) =
    (match e with
      | .invalidOpcode => (6, none, none)
      | .deviceNotAvailable => (7, none, none)
      | .stackSegment => (12, some 0#32, none)
      | .generalProtection => (13, some 0#32, none)
      | .pageFault code address => (14, some code, some address)
      | .alignmentCheck => (17, some 0#32, none)
      | .simdFloatingPoint => (19, none, none))) ∧
  (∀ (i : Instr) (s : State) (f : Fault), (exec i s = .fault f ∨ step s = .fault f) →
    ∃ (e : Exn) (t : State), f = .exception e t ∧ t = { s with fault := some e, mxcsr := t.mxcsr } ∧
      (t.mxcsr ≠ s.mxcsr → e = if s.cr4.getLsbD 10 then .simdFloatingPoint else .invalidOpcode) ∧
      t.mxcsr &&& ~~~settableFlags = s.mxcsr &&& ~~~settableFlags ∧ t.mxcsr &&& s.mxcsr = s.mxcsr)

/-- R138: the divide-by-zero flag of `MXCSR`, bit 2, is never set by an instruction of the family, whether it completes or faults. -/
def Obligations.DivideByZeroFlagNeverSet : Prop :=
  ∀ (i : Instr) (s t : State), (exec i s = .next t ∨ ∃ e, exec i s = .fault (.exception e t)) →
    t.mxcsr.getLsbD 2 = s.mxcsr.getLsbD 2

/-- R164: a completed EVEX form leaves bits `MAX_VL-1:VL` of its destination zero, whatever the mask and the kind of masking. -/
def Obligations.EvexUpperBitsZero : Prop :=
  ∀ (k : Kind) (w : EvexLen) (pfx : List LegacyPrefix) (mk : Masking) (d v : VReg) (r : EvexSrc3) (s t : State),
    exec (mkEvex k w pfx mk d v r) s = .next t →
    ∀ j, w.elements ≤ j → j < 8 → lane (readZmm t d) j = 0#64

/-- R24, R148 b: a completed VEX form leaves bits `MAX_VL-1:VL` of its destination zero. -/
def Obligations.VexUpperBitsZero : Prop :=
  ∀ (k : Kind) (w : VexLen) (pfx : List LegacyPrefix) (d v : BitVec 4) (r : VexSrc3) (s t : State),
    exec (mkVex k w pfx d v r) s = .next t →
    ∀ j, w.elements ≤ j → j < 8 → lane (readZmm t (d.setWidth 5)) j = 0#64

/-- R178 e: an EVEX.128 or EVEX.256 form over registers 0 to 15 without mask and broadcast computes what the VEX form of the same length
computes: same completion but for one byte of length, same fault. Memory forms when both address the same place (their `disp8`
scales differ). -/
def Obligations.EvexMatchesVex : Prop :=
  ∀ (k : Kind) (w : VexLen) (pfx : List LegacyPrefix) (d v : BitVec 4) (s : State),
    let w' : EvexLen := match w with
      | .v128 => .v128
      | .v256 => .v256
    VexReady pfx s → EvexReady true pfx ⟨0#3, false⟩ s →
    (∀ r : BitVec 4,
      (∀ t, exec (mkVex k w pfx d v (.reg r)) s = .next t →
        exec (mkEvex k w' pfx ⟨0#3, false⟩ (d.setWidth 5) (v.setWidth 5) (.reg (r.setWidth 5))) s =
          .next { t with pc := t.pc + 1#64 }) ∧
      (∀ f, exec (mkVex k w pfx d v (.reg r)) s = .fault f →
        exec (mkEvex k w' pfx ⟨0#3, false⟩ (d.setWidth 5) (v.setWidth 5) (.reg (r.setWidth 5))) s = .fault f)) ∧
    (∀ m m' : MemOperand, vexAddr s pfx m = fullAddr s pfx w' m' → stackBased m = stackBased m' → m.tailSize = m'.tailSize →
      (∀ t, exec (mkVex k w pfx d v (.mem m)) s = .next t →
        exec (mkEvex k w' pfx ⟨0#3, false⟩ (d.setWidth 5) (v.setWidth 5) (.full m')) s = .next { t with pc := t.pc + 1#64 }) ∧
      (∀ f, exec (mkVex k w pfx d v (.mem m)) s = .fault f →
        exec (mkEvex k w' pfx ⟨0#3, false⟩ (d.setWidth 5) (v.setWidth 5) (.full m')) s = .fault f))

/-- R56, R161: a masked-off element is irrelevant. Changing what the mask excludes, elements of every source register, bytes of a memory
operand in memory and, under fault suppression, their translation too, changes neither the active results, nor `MXCSR`, nor which
exception or refusal ends the instruction: register, full-vector and broadcast forms, with and without embedded rounding. -/
def Obligations.MaskedElementsIrrelevant : Prop :=
  ∀ (k : Kind) (pfx : List LegacyPrefix) (mk : Masking) (d v : VReg) (s : State) (regs : Vector Lanes 32) (m' : Memory)
    (x' : List XlatRule),
    let s' : State := { s with zmm := regs, mem := m', xlat := x' }
    (∀ (w : EvexLen) (r : EvexSrc3),
      (∀ q : VReg, q = d ∨ q = v → ∀ j, j < w.elements → maskOn s mk j = true →
        lane (readZmm s' q) j = lane (readZmm s q) j) →
      sameSource s s' pfx w mk r →
      SameUnderMask s s' mk d w.elements (exec (mkEvex k w pfx mk d v r) s) (exec (mkEvex k w pfx mk d v r) s')) ∧
    (∀ (rc : RoundingMode) (r : VReg),
      (∀ q : VReg, q = d ∨ q = v ∨ q = r → ∀ j, j < 8 → maskOn s mk j = true →
        lane (readZmm s' q) j = lane (readZmm s q) j) →
      SameUnderMask s s' mk d 8 (exec (mkEr k pfx rc mk d v r) s) (exec (mkEr k pfx rc mk d v r) s'))

/-- Every step keeps the invariant of R23, R25 and R26: memory in canonical form, reserved bits of `MXCSR` zero, absent state zero. It is
stated for every state, also those no run reaches. Memory as a list in canonical form and absent state held as zero are the model's
choices (notes/assumptions/3.md and 19.md). -/
def Obligations.StepKeepsInv : Prop :=
  ∀ s t : State, Inv s → step s = .next t → Inv t

/-- The invariant holds of the state after reset (its form is the model's choice, as at `StepKeepsInv`). -/
def Obligations.ResetInv : Prop := Inv State.reset

/-! ## Addresses and memory -/

/-- R57 to R59, R94, R99, R100: the effective address of every addressing form is the integer sum of base, scaled index and displacement,
modulo 2^64, or, under the address-size override, of the registers' low 32 bits modulo 2^32. -/
def Obligations.EffectiveAddress : Prop :=
  ∀ (s : State) (n : Nat) (pcNext : Addr) (m : MemOperand),
    effectiveAddr s false n pcNext m = BitVec.ofInt 64 (eaInt (fun r => (readGpr s r).toNat) n pcNext m) ∧
    effectiveAddr s true n pcNext m =
      BitVec.ofInt 64 (eaInt (fun r => (readGpr s r).toNat % 2 ^ 32) n pcNext m % 2 ^ 32)

/-- R35, R60: the base that is added to the effective address: none without an `FS` or `GS` override, else that of the last of them; the
other overrides change nothing, wherever they stand. -/
def Obligations.SegmentBase : Prop :=
  ∀ (s : State) (pfx : List LegacyPrefix) (n : Nat) (pcNext : Addr) (m : MemOperand),
    (.fs ∉ pfx → .gs ∉ pfx →
      linearAddr s pfx n pcNext m = effectiveAddr s (decide (.addr32 ∈ pfx)) n pcNext m) ∧
    (∀ a b : List LegacyPrefix, pfx = a ++ [.fs] ++ b → .gs ∉ b →
      linearAddr s pfx n pcNext m = s.fsBase + effectiveAddr s (decide (.addr32 ∈ pfx)) n pcNext m) ∧
    (∀ a b : List LegacyPrefix, pfx = a ++ [.gs] ++ b → .fs ∉ b →
      linearAddr s pfx n pcNext m = s.gsBase + effectiveAddr s (decide (.addr32 ∈ pfx)) n pcNext m)

/-- R60: an address is canonical exactly when its bits 63 down to `LAW-1` are all equal. -/
def Obligations.CanonicalAddress : Prop :=
  ∀ (w : LinearWidth) (a : Addr),
    canonical w a = true ↔ ∀ n, w.width - 1 ≤ n → n < 64 → a.getLsbD n = a.getLsbD 63

/-- R51: an element is read little-endian, byte by byte, from the storage the translation names, across page boundaries too. -/
def Obligations.LittleEndianElement : Prop :=
  ∀ (s : State) (a : Addr) (place : Nat → Nat),
    (∀ o, o < 8 → Machine.translate s .dataRead (byteAddr a o) = .storage (place o)) →
    (peek64 s a).toNat = ∑ o ∈ Finset.range 8, (Memory.read s.mem (place o)).toNat * 256 ^ o

end
end

