-- ==== Sys2Proof/Laws/Checks.lean ====
section
/-! SUPPORT. The checks before the operands are read, against the conditions of the spec written out in Safety.lean. -/

namespace Sys2Proof.Machine

/-- An admitted state is not refused. -/
theorem admission_eq_none {s : State} (h : Admitted s) : admission s = none := by
  obtain ⟨hm, hr, ht⟩ := h
  unfold admission
  rcases hm with hm | hm | hm <;> simp [hm, hr, flagTF, -BitVec.getLsbD_eq_getElem, ht]

/-- A state that is not refused is admitted. -/
theorem admitted_of_admission {s : State} (h : admission s = none) : Admitted s := by
  have key : s.mxcsr.extractLsb' 16 16 = 0#16 ∧ s.rflags.getLsbD 8 = false := by
    by_contra hn
    unfold admission flagTF at h
    cases hm : s.mode <;> simp only [hm] at h <;> first | cases h | skip
    all_goals
      split at h
      · cases h
      · split at h
        · cases h
        · rename_i h1 h2
          exact hn ⟨not_not.mp h1, by simpa using h2⟩
  refine ⟨?_, key.1, key.2⟩
  unfold admission at h
  cases hm : s.mode <;> simp [hm] at h ⊢

/-- A step from an admitted state in 64-bit mode is not refused for its premises. -/
theorem launch_eq_none {s : State} (h : Admitted s) (hm : s.mode = .mode64) : launch s = none := by
  simp only [launch, hm, if_true, admission_eq_none h]

/-- Two adjacent bits, read singly and as a field. -/
theorem field2_eq_iff (x : BitVec 64) (a : Nat) :
    x.extractLsb' a 2 = 0b11#2 ↔ (x.getLsbD a && x.getLsbD (a + 1)) = true := by
  rw [BitVec.eq_of_getLsbD_eq_iff]
  constructor
  · intro h
    have h0 := h 0 (by omega)
    have h1 := h 1 (by omega)
    simp at h0 h1
    simp [h0, h1]
  · intro h i hi
    simp only [Bool.and_eq_true] at h
    have : i = 0 ∨ i = 1 := by omega
    rcases this with rfl | rfl <;> simp [h.1, h.2]

/-- Three adjacent bits, read singly and as a field. -/
theorem field3_eq_iff (x : BitVec 64) (a : Nat) :
    x.extractLsb' a 3 = 0b111#3 ↔ (x.getLsbD a && x.getLsbD (a + 1) && x.getLsbD (a + 2)) = true := by
  rw [BitVec.eq_of_getLsbD_eq_iff]
  constructor
  · intro h
    have h0 := h 0 (by omega)
    have h1 := h 1 (by omega)
    have h2 := h 2 (by omega)
    simp at h0 h1 h2
    simp [h0, h1, h2]
  · intro h i hi
    simp only [Bool.and_eq_true] at h
    have : i = 0 ∨ i = 1 ∨ i = 2 := by omega
    rcases this with rfl | rfl | rfl <;> simp [h.1.1, h.1.2, h.2]

/-- `XCR0[2:1] = 11b` as a field (R33). -/
theorem avxEnabled_iff (s : State) : avxEnabled s = true ↔ s.xcr0.extractLsb' 1 2 = 0b11#2 :=
  (field2_eq_iff s.xcr0 1).symm

/-- `XCR0[7:5] = 111b` as a field (R33). -/
theorem avx512Enabled_iff (s : State) : avx512Enabled s = true ↔ s.xcr0.extractLsb' 5 3 = 0b111#3 :=
  (field3_eq_iff s.xcr0 5).symm

/-- No forbidden prefix (R85). -/
theorem hasForbidden_eq_false_iff (pfx : List LegacyPrefix) :
    hasForbidden pfx = false ↔ ∀ p ∈ pfx, forbiddenPrefix p = false := by
  simp [hasForbidden]

/-- Some forbidden prefix (R85). -/
theorem hasForbidden_eq_true_iff (pfx : List LegacyPrefix) :
    hasForbidden pfx = true ↔ ∃ p ∈ pfx, forbiddenPrefix p = true := by
  simp [hasForbidden]

/-- R192 a to d: the condition the machine computes, written out. -/
theorem vexUndefined_eq_true_iff (pfx : List LegacyPrefix) (s : State) :
    vexUndefined pfx s = true ↔
      (s.mode ≠ .mode64 ∨ s.cfg.hasFMA = false ∨ s.cr4.getLsbD 18 = false ∨ s.xcr0.extractLsb' 1 2 ≠ 0b11#2 ∨
        ∃ p ∈ pfx, forbiddenPrefix p = true) := by
  have h : avxEnabled s = false ↔ s.xcr0.extractLsb' 1 2 ≠ 0b11#2 := by
    rw [ne_eq, ← avxEnabled_iff, Bool.not_eq_true]
  rw [← h, ← hasForbidden_eq_true_iff]
  simp [vexUndefined, osxsave, or_assoc]

/-- R194 a to e and h: the condition the machine computes, written out. -/
theorem evexUndefined_eq_true_iff (vl : Bool) (pfx : List LegacyPrefix) (mk : Masking) (s : State) :
    evexUndefined vl pfx mk s = true ↔
      (s.mode ≠ .mode64 ∨ s.cfg.hasAVX512F = false ∨ (vl = true ∧ s.cfg.hasAVX512VL = false) ∨ s.cr4.getLsbD 18 = false ∨
        s.xcr0.extractLsb' 1 2 ≠ 0b11#2 ∨ s.xcr0.extractLsb' 5 3 ≠ 0b111#3 ∨ (∃ p ∈ pfx, forbiddenPrefix p = true) ∨
        (mk.z = true ∧ mk.aaa = 0#3)) := by
  have h : avxEnabled s = false ↔ s.xcr0.extractLsb' 1 2 ≠ 0b11#2 := by
    rw [ne_eq, ← avxEnabled_iff, Bool.not_eq_true]
  have h' : avx512Enabled s = false ↔ s.xcr0.extractLsb' 5 3 ≠ 0b111#3 := by
    rw [ne_eq, ← avx512Enabled_iff, Bool.not_eq_true]
  rw [← h, ← h', ← hasForbidden_eq_true_iff]
  simp [evexUndefined, osxsave, or_assoc]

/-- The length flag the machine uses is that of R88. -/
@[simp] theorem needsVL_eq (w : EvexLen) : (w != .v512) = w.needsVL := by
  cases w <;> rfl

/-- An enabled VEX form meets no condition of R192 a to d. -/
theorem vexUndefined_eq_false {pfx : List LegacyPrefix} {s : State} (h : VexEnabled pfx s) : vexUndefined pfx s = false := by
  rw [← Bool.not_eq_true, vexUndefined_eq_true_iff]
  rintro (e | e | e | e | ⟨p, hp, e⟩)
  · exact e h.mode
  · simp [h.feature] at e
  · rw [h.xsave] at e; cases e
  · exact e h.avx
  · simp [h.prefixes p hp] at e

/-- An enabled EVEX form meets no condition of R194 a to e and h. -/
theorem evexUndefined_eq_false {vl : Bool} {pfx : List LegacyPrefix} {mk : Masking} {s : State}
    (h : EvexEnabled vl pfx mk s) : evexUndefined vl pfx mk s = false := by
  rw [← Bool.not_eq_true, evexUndefined_eq_true_iff]
  rintro (e | e | ⟨e, e'⟩ | e | e | e | ⟨p, hp, e⟩ | ⟨e, e'⟩)
  · exact e h.mode
  · simp [h.feature] at e
  · simp [h.lengths e] at e'
  · rw [h.xsave] at e; cases e
  · exact e h.avx
  · exact e h.avx512
  · simp [h.prefixes p hp] at e
  · exact h.zeroing e e'

theorem VexEnabled.admitted {pfx : List LegacyPrefix} {s : State} (h : VexEnabled pfx s) : Admitted s :=
  ⟨.inl h.mode, h.reserved, h.noTrap⟩

theorem EvexEnabled.admitted {vl : Bool} {pfx : List LegacyPrefix} {mk : Masking} {s : State} (h : EvexEnabled vl pfx mk s) :
    Admitted s :=
  ⟨.inl h.mode, h.reserved, h.noTrap⟩

/-- What the checks before the operands can end in (R201): a refusal, `#UD` or `#NM`, in this order; or nothing. -/
theorem gate_cases (undef : Bool) (s : State) :
    (∃ r, admission s = some r ∧ gate undef s = some (.refused r)) ∨
    (admission s = none ∧ undef = true ∧ gate undef s = some (raise .invalidOpcode s)) ∨
    (admission s = none ∧ undef = false ∧ s.cr0.getLsbD 3 = true ∧ gate undef s = some (raise .deviceNotAvailable s)) ∨
    (admission s = none ∧ undef = false ∧ s.cr0.getLsbD 3 = false ∧ gate undef s = none) := by
  unfold gate taskSwitched
  cases ha : admission s with
  | some r => exact .inl ⟨r, rfl, rfl⟩
  | none =>
    cases undef
    · cases ht : s.cr0.getLsbD 3 <;> simp
    · simp

/-- A condition of R192 or R194 gives `#UD`. -/
theorem gate_undefined {s : State} (h : Admitted s) : gate true s = some (raise .invalidOpcode s) := by
  simp [gate, admission_eq_none h]

/-- `CR0.TS = 1` gives `#NM` where no `#UD` applies (R195). -/
theorem gate_taskSwitched {s : State} (h : Admitted s) (ht : s.cr0.getLsbD 3 = true) :
    gate false s = some (raise .deviceNotAvailable s) := by
  simp only [gate, admission_eq_none h, taskSwitched, ht, Bool.false_eq_true, if_false, if_true]

/-- A ready VEX form passes the checks. -/
theorem gate_vexReady {pfx : List LegacyPrefix} {s : State} (h : VexReady pfx s) : gate (vexUndefined pfx s) s = none := by
  simp only [gate, admission_eq_none h.toVexEnabled.admitted, vexUndefined_eq_false h.toVexEnabled, taskSwitched, h.notSwitched,
    Bool.false_eq_true, if_false]

/-- A ready EVEX form passes the checks. -/
theorem gate_evexReady {vl : Bool} {pfx : List LegacyPrefix} {mk : Masking} {s : State} (h : EvexReady vl pfx mk s) :
    gate (evexUndefined vl pfx mk s) s = none := by
  simp only [gate, admission_eq_none h.toEvexEnabled.admitted, evexUndefined_eq_false h.toEvexEnabled, taskSwitched, h.notSwitched,
    Bool.false_eq_true, if_false]

/-- A form that passes the checks is in an admitted state in 64-bit mode with no `#UD` condition. -/
theorem gate_eq_none {undef : Bool} {s : State} (h : gate undef s = none) :
    Admitted s ∧ undef = false ∧ s.cr0.getLsbD 3 = false := by
  rcases gate_cases undef s with ⟨r, _, e⟩ | ⟨_, _, e⟩ | ⟨_, _, _, e⟩ | ⟨ha, hu, ht, _⟩
  · simp [e] at h
  · simp [e] at h
  · simp [e] at h
  · exact ⟨admitted_of_admission ha, hu, ht⟩

end Sys2Proof.Machine
end

