-- ==== Sys2Proof/Laws/Commit.lean ====
section
/-! SUPPORT. The commit of SIMD floating-point exceptions (R196): what `fpCommit` leaves, in the terms of Safety.lean. -/

namespace Sys2Proof.Machine

@[simp] theorem unionPre_nil : unionPre [] = ⟨false, false⟩ := rfl
@[simp] theorem unionPre_cons (r : FmaResult) (rs : List FmaResult) : unionPre (r :: rs) = r.pre.union (unionPre rs) := rfl
@[simp] theorem unionPost_nil : unionPost [] = ⟨false, false, false⟩ := rfl
@[simp] theorem unionPost_cons (r : FmaResult) (rs : List FmaResult) :
    unionPost (r :: rs) = r.post.union (unionPost rs) := rfl

theorem unionPre_ie (rs : List FmaResult) : (unionPre rs).ie = rs.any (fun r => r.pre.ie) := by
  induction rs with
  | nil => rfl
  | cons r rs ih => simp [PreFlags.union, ih]

theorem unionPre_de (rs : List FmaResult) : (unionPre rs).de = rs.any (fun r => r.pre.de) := by
  induction rs with
  | nil => rfl
  | cons r rs ih => simp [PreFlags.union, ih]

theorem unionPost_oe (rs : List FmaResult) : (unionPost rs).oe = rs.any (fun r => r.post.oe) := by
  induction rs with
  | nil => rfl
  | cons r rs ih => simp [PostFlags.union, ih]

theorem unionPost_ue (rs : List FmaResult) : (unionPost rs).ue = rs.any (fun r => r.post.ue) := by
  induction rs with
  | nil => rfl
  | cons r rs ih => simp [PostFlags.union, ih]

theorem unionPost_pe (rs : List FmaResult) : (unionPost rs).pe = rs.any (fun r => r.post.pe) := by
  induction rs with
  | nil => rfl
  | cons r rs ih => simp [PostFlags.union, ih]

/-- The operand flags the machine sets are those of R196. -/
theorem preBits_unionPre (rs : List FmaResult) : preBits (unionPre rs) = preFlagsOf rs := by
  simp only [preBits, preFlagsOf, unionPre_ie, unionPre_de]

/-- The result flags the machine sets are those of R196. -/
theorem postBits_unionPost (rs : List FmaResult) : postBits (unionPost rs) = postFlagsOf rs := by
  simp only [postBits, postFlagsOf, unionPost_oe, unionPost_ue, unionPost_pe]

/-- The union has an unmasked operand exception when some element has. -/
theorem preUnmasked_unionPre (m : BitVec 32) (rs : List FmaResult) :
    preUnmasked m (unionPre rs) = rs.any (preUnmaskedIn m) := by
  induction rs with
  | nil => rfl
  | cons r rs ih =>
    rw [List.any_cons, ← ih]
    simp only [preUnmasked, preUnmaskedIn, unionPre_cons, PreFlags.union, mxIM, mxDM]
    cases r.pre.ie <;> cases r.pre.de <;> cases m.getLsbD 7 <;> cases m.getLsbD 8 <;> simp

/-- The union has an unmasked result exception when some element has. -/
theorem postUnmasked_unionPost (m : BitVec 32) (rs : List FmaResult) :
    postUnmasked m (unionPost rs) = rs.any (postUnmaskedIn m) := by
  induction rs with
  | nil => rfl
  | cons r rs ih =>
    rw [List.any_cons, ← ih]
    simp only [postUnmasked, postUnmaskedIn, unionPost_cons, PostFlags.union, mxOM, mxUM, mxPM]
    cases r.post.oe <;> cases r.post.ue <;> cases r.post.pe <;> cases m.getLsbD 10 <;> cases m.getLsbD 11 <;>
      cases m.getLsbD 12 <;> simp

/-- With every element masked the commit sets all flags and raises nothing. -/
theorem fpCommit_masked {m : BitVec 32} {rs : List FmaResult} (h : ∀ r ∈ rs, laneMasked m r = true) :
    fpCommit m rs = ⟨m ||| flagsOf rs, false⟩ := by
  have hpre : rs.any (preUnmaskedIn m) = false := by
    rw [List.any_eq_false]
    intro r hr
    have := h r hr
    simp only [laneMasked, Bool.and_eq_true, Bool.not_eq_true'] at this
    simp [this.1]
  have hpost : rs.any (postUnmaskedIn m) = false := by
    rw [List.any_eq_false]
    intro r hr
    have := h r hr
    simp only [laneMasked, Bool.and_eq_true, Bool.not_eq_true'] at this
    simp [this.2]
  simp only [fpCommit, preUnmasked_unionPre, postUnmasked_unionPost, hpre, hpost, preBits_unionPre, postBits_unionPost,
    flagsOf, BitVec.or_assoc, Bool.false_eq_true, if_false]

/-- With some element unmasked the commit raises, and leaves `MXCSR` as R196 says. -/
theorem fpCommit_unmasked {m : BitVec 32} {rs : List FmaResult} (h : ∃ r ∈ rs, laneMasked m r = false) :
    fpCommit m rs = ⟨mxcsrAtSimdFault m rs, true⟩ := by
  simp only [fpCommit, preUnmasked_unionPre, postUnmasked_unionPost, preBits_unionPre, postBits_unionPost, mxcsrAtSimdFault]
  cases hp : rs.any (preUnmaskedIn m) with
  | true => simp
  | false =>
    obtain ⟨r, hr, hl⟩ := h
    have hpost : rs.any (postUnmaskedIn m) = true := by
      rw [List.any_eq_true]
      refine ⟨r, hr, ?_⟩
      rw [List.any_eq_false] at hp
      have h1 := hp r hr
      simp only [laneMasked, Bool.and_eq_false_iff, Bool.not_eq_false'] at hl
      rcases hl with hl | hl
      · exact absurd hl h1
      · exact hl
    simp [hpost, flagsOf, BitVec.or_assoc]

/-- The commit raises exactly when some element is unmasked. -/
theorem fpCommit_raises_iff (m : BitVec 32) (rs : List FmaResult) :
    (fpCommit m rs).raises = true ↔ ∃ r ∈ rs, laneMasked m r = false := by
  constructor
  · intro h
    by_contra hc
    have : ∀ r ∈ rs, laneMasked m r = true := fun r hr => by
      by_contra hn
      exact hc ⟨r, hr, by simpa using hn⟩
    rw [fpCommit_masked this] at h
    cases h
  · intro h
    rw [fpCommit_unmasked h]

/-- The flags are among those the family can set. -/
theorem flags_and_not_settable (rs : List FmaResult) :
    preFlagsOf rs &&& ~~~settableFlags = 0#32 ∧ postFlagsOf rs &&& ~~~settableFlags = 0#32 := by
  unfold preFlagsOf postFlagsOf settableFlags
  constructor <;> (repeat' split) <;> decide

/-- Flags that are set on top of `MXCSR` leave every bit but the settable flags, and clear none. -/
theorem or_flags_frame {m f : BitVec 32} (h : f &&& ~~~settableFlags = 0#32) :
    (m ||| f) &&& ~~~settableFlags = m &&& ~~~settableFlags ∧ (m ||| f) &&& m = m := by
  constructor
  · rw [BitVec.eq_of_getLsbD_eq_iff] at h ⊢
    intro i hi
    have := h i hi
    simp only [BitVec.getLsbD_and, BitVec.getLsbD_or, BitVec.getLsbD_zero] at this ⊢
    cases hm : m.getLsbD i <;> simp_all
  · rw [BitVec.eq_of_getLsbD_eq_iff]
    intro i hi
    simp only [BitVec.getLsbD_and, BitVec.getLsbD_or]
    cases m.getLsbD i <;> simp

theorem flagsOf_and_not_settable (rs : List FmaResult) : flagsOf rs &&& ~~~settableFlags = 0#32 := by
  obtain ⟨h1, h2⟩ := flags_and_not_settable rs
  unfold flagsOf
  have e : (preFlagsOf rs ||| postFlagsOf rs) &&& ~~~settableFlags =
      (preFlagsOf rs &&& ~~~settableFlags) ||| (postFlagsOf rs &&& ~~~settableFlags) := by
    ext i hi
    simp only [BitVec.getElem_and, BitVec.getElem_or, Bool.and_or_distrib_right]
  rw [e, h1, h2]
  rfl

/-- `MXCSR` at a SIMD floating-point exception differs in settable flags only, and clears none (R26, R27). -/
theorem mxcsrAtSimdFault_frame (m : BitVec 32) (rs : List FmaResult) :
    mxcsrAtSimdFault m rs &&& ~~~settableFlags = m &&& ~~~settableFlags ∧ mxcsrAtSimdFault m rs &&& m = m := by
  unfold mxcsrAtSimdFault
  split
  · exact or_flags_frame (flags_and_not_settable rs).1
  · exact or_flags_frame (flagsOf_and_not_settable rs)

/-- The commit leaves every bit of `MXCSR` but the settable flags, and clears none (R26, R27). -/
theorem fpCommit_frame (m : BitVec 32) (rs : List FmaResult) :
    (fpCommit m rs).mxcsr &&& ~~~settableFlags = m &&& ~~~settableFlags ∧ (fpCommit m rs).mxcsr &&& m = m := by
  have hf := flagsOf_and_not_settable rs
  by_cases h : ∃ r ∈ rs, laneMasked m r = false
  · rw [fpCommit_unmasked h]
    exact mxcsrAtSimdFault_frame m rs
  · rw [fpCommit_masked (fun r hr => by
      by_contra hn
      exact h ⟨r, hr, by simpa using hn⟩)]
    exact or_flags_frame hf

/-- The machine's report of a SIMD floating-point exception is that of R197. -/
theorem simdExn_eq (s : State) : simdExn s = if s.cr4.getLsbD 10 then .simdFloatingPoint else .invalidOpcode := rfl

end Sys2Proof.Machine
end

