-- ==== Sys2Proof/Laws/Dispatch.lean ====
section
/-! SUPPORT. `exec`, `encode`, `size` and the other maps over the constructors, read through `mkVex`, `mkEvex` and `mkEr`; and the case
split of an instruction into those three. -/

namespace Sys2Proof

open Machine

@[simp] theorem exec_mkVex (k : Kind) (w : VexLen) (pfx : List LegacyPrefix) (d v : BitVec 4) (r : VexSrc3) (s : State) :
    exec (mkVex k w pfx d v r) s = vexFmadd k w pfx d v r s := by
  cases k <;> cases w <;> rfl

@[simp] theorem exec_mkEvex (k : Kind) (w : EvexLen) (pfx : List LegacyPrefix) (mk : Masking) (d v : VReg) (r : EvexSrc3)
    (s : State) : exec (mkEvex k w pfx mk d v r) s = evexFmadd k w pfx mk d v r s := by
  cases k <;> cases w <;> rfl

@[simp] theorem exec_mkEr (k : Kind) (pfx : List LegacyPrefix) (rc : RoundingMode) (mk : Masking) (d v r : VReg) (s : State) :
    exec (mkEr k pfx rc mk d v r) s = erFmadd k pfx rc mk d v r s := by
  cases k <;> rfl

@[simp] theorem encode_mkVex (k : Kind) (w : VexLen) (pfx : List LegacyPrefix) (d v : BitVec 4) (r : VexSrc3) :
    encode (mkVex k w pfx d v r) = encodeVex k w pfx d v r := by
  cases k <;> cases w <;> rfl

@[simp] theorem encode_mkEvex (k : Kind) (w : EvexLen) (pfx : List LegacyPrefix) (mk : Masking) (d v : VReg) (r : EvexSrc3) :
    encode (mkEvex k w pfx mk d v r) = encodeEvex k w pfx mk d v r := by
  cases k <;> cases w <;> rfl

@[simp] theorem encode_mkEr (k : Kind) (pfx : List LegacyPrefix) (rc : RoundingMode) (mk : Masking) (d v r : VReg) :
    encode (mkEr k pfx rc mk d v r) = encodeEr k pfx rc mk d v r := by
  cases k <;> rfl

@[simp] theorem size_mkVex (k : Kind) (w : VexLen) (pfx : List LegacyPrefix) (d v : BitVec 4) (r : VexSrc3) :
    (mkVex k w pfx d v r).size = vexSize pfx r := by
  cases k <;> cases w <;> rfl

@[simp] theorem size_mkEvex (k : Kind) (w : EvexLen) (pfx : List LegacyPrefix) (mk : Masking) (d v : VReg) (r : EvexSrc3) :
    (mkEvex k w pfx mk d v r).size = evexSize pfx r := by
  cases k <;> cases w <;> rfl

@[simp] theorem size_mkEr (k : Kind) (pfx : List LegacyPrefix) (rc : RoundingMode) (mk : Masking) (d v r : VReg) :
    (mkEr k pfx rc mk d v r).size = evexSize pfx (.reg r) := by
  cases k <;> rfl

@[simp] theorem operandsWf_mkVex (k : Kind) (w : VexLen) (pfx : List LegacyPrefix) (d v : BitVec 4) (r : VexSrc3) :
    (mkVex k w pfx d v r).operandsWf = r.wf := by
  cases k <;> cases w <;> rfl

@[simp] theorem operandsWf_mkEvex (k : Kind) (w : EvexLen) (pfx : List LegacyPrefix) (mk : Masking) (d v : VReg)
    (r : EvexSrc3) : (mkEvex k w pfx mk d v r).operandsWf = r.wf := by
  cases k <;> cases w <;> rfl

@[simp] theorem operandsWf_mkEr (k : Kind) (pfx : List LegacyPrefix) (rc : RoundingMode) (mk : Masking) (d v r : VReg) :
    (mkEr k pfx rc mk d v r).operandsWf = true := by
  cases k <;> rfl

@[simp] theorem dest_mkVex (k : Kind) (w : VexLen) (pfx : List LegacyPrefix) (d v : BitVec 4) (r : VexSrc3) :
    (mkVex k w pfx d v r).dest = d.setWidth 5 := by
  cases k <;> cases w <;> rfl

@[simp] theorem dest_mkEvex (k : Kind) (w : EvexLen) (pfx : List LegacyPrefix) (mk : Masking) (d v : VReg) (r : EvexSrc3) :
    (mkEvex k w pfx mk d v r).dest = d := by
  cases k <;> cases w <;> rfl

@[simp] theorem dest_mkEr (k : Kind) (pfx : List LegacyPrefix) (rc : RoundingMode) (mk : Masking) (d v r : VReg) :
    (mkEr k pfx rc mk d v r).dest = d := by
  cases k <;> rfl

/-- VEX rows are rows 1 to 6 of R102. -/
theorem row_mkVex_le (k : Kind) (w : VexLen) (pfx : List LegacyPrefix) (d v : BitVec 4) (r : VexSrc3) :
    (mkVex k w pfx d v r).row ≤ 6 := by
  cases k <;> cases w <;> simp [mkVex, Instr.row]

/-- EVEX rows without embedded rounding are rows 7 to 15 of R102. -/
theorem row_mkEvex_mem (k : Kind) (w : EvexLen) (pfx : List LegacyPrefix) (mk : Masking) (d v : VReg) (r : EvexSrc3) :
    7 ≤ (mkEvex k w pfx mk d v r).row ∧ (mkEvex k w pfx mk d v r).row ≤ 15 := by
  cases k <;> cases w <;> simp [mkEvex, Instr.row]

/-- Embedded-rounding rows are rows 16 to 18 of R102. -/
theorem row_mkEr_ge (k : Kind) (pfx : List LegacyPrefix) (rc : RoundingMode) (mk : Masking) (d v r : VReg) :
    16 ≤ (mkEr k pfx rc mk d v r).row := by
  cases k <;> simp [mkEr, Instr.row]

/-- Every instruction is a VEX form, an EVEX form or an embedded-rounding form. -/
theorem instr_cases (i : Instr) :
    (∃ k w pfx d v r, i = mkVex k w pfx d v r) ∨ (∃ k w pfx mk d v r, i = mkEvex k w pfx mk d v r) ∨
      (∃ k pfx rc mk d v r, i = mkEr k pfx rc mk d v r) := by
  cases i with
  | vfmadd132pdVex128 pfx d v r => exact .inl ⟨.k132, .v128, pfx, d, v, r, rfl⟩
  | vfmadd213pdVex128 pfx d v r => exact .inl ⟨.k213, .v128, pfx, d, v, r, rfl⟩
  | vfmadd231pdVex128 pfx d v r => exact .inl ⟨.k231, .v128, pfx, d, v, r, rfl⟩
  | vfmadd132pdVex256 pfx d v r => exact .inl ⟨.k132, .v256, pfx, d, v, r, rfl⟩
  | vfmadd213pdVex256 pfx d v r => exact .inl ⟨.k213, .v256, pfx, d, v, r, rfl⟩
  | vfmadd231pdVex256 pfx d v r => exact .inl ⟨.k231, .v256, pfx, d, v, r, rfl⟩
  | vfmadd132pdEvex128 pfx mk d v r => exact .inr (.inl ⟨.k132, .v128, pfx, mk, d, v, r, rfl⟩)
  | vfmadd213pdEvex128 pfx mk d v r => exact .inr (.inl ⟨.k213, .v128, pfx, mk, d, v, r, rfl⟩)
  | vfmadd231pdEvex128 pfx mk d v r => exact .inr (.inl ⟨.k231, .v128, pfx, mk, d, v, r, rfl⟩)
  | vfmadd132pdEvex256 pfx mk d v r => exact .inr (.inl ⟨.k132, .v256, pfx, mk, d, v, r, rfl⟩)
  | vfmadd213pdEvex256 pfx mk d v r => exact .inr (.inl ⟨.k213, .v256, pfx, mk, d, v, r, rfl⟩)
  | vfmadd231pdEvex256 pfx mk d v r => exact .inr (.inl ⟨.k231, .v256, pfx, mk, d, v, r, rfl⟩)
  | vfmadd132pdEvex512 pfx mk d v r => exact .inr (.inl ⟨.k132, .v512, pfx, mk, d, v, r, rfl⟩)
  | vfmadd213pdEvex512 pfx mk d v r => exact .inr (.inl ⟨.k213, .v512, pfx, mk, d, v, r, rfl⟩)
  | vfmadd231pdEvex512 pfx mk d v r => exact .inr (.inl ⟨.k231, .v512, pfx, mk, d, v, r, rfl⟩)
  | vfmadd132pdEvex512Er pfx rc mk d v r => exact .inr (.inr ⟨.k132, pfx, rc, mk, d, v, r, rfl⟩)
  | vfmadd213pdEvex512Er pfx rc mk d v r => exact .inr (.inr ⟨.k213, pfx, rc, mk, d, v, r, rfl⟩)
  | vfmadd231pdEvex512Er pfx rc mk d v r => exact .inr (.inr ⟨.k231, pfx, rc, mk, d, v, r, rfl⟩)

end Sys2Proof
end

