-- ==== Sys2Proof/Laws/Decode.lean ====
section
/-! SUPPORT. The pieces of decoding and encoding: prefixes, bit fields, displacements and memory operands read back as they were
written. -/

namespace Sys2Proof

/-! ## Prefixes -/

theorem prefixOfByte_byteOfPrefix (p : LegacyPrefix) : prefixOfByte (byteOfPrefix p) = some p := by
  cases p with
  | rex w =>
    revert w
    decide
  | _ => rfl

theorem byteOfPrefix_of_prefixOfByte {b : Byte} {p : LegacyPrefix} (h : prefixOfByte b = some p) : byteOfPrefix p = b := by
  have key : ∀ n : Fin 256, ∀ p, prefixOfByte (BitVec.ofFin n) = some p → byteOfPrefix p = BitVec.ofFin n := by
    have : ∀ n : Fin 256, (prefixOfByte (BitVec.ofFin n)).map byteOfPrefix =
        (prefixOfByte (BitVec.ofFin n)).map (fun _ => BitVec.ofFin n) := by
      decide +kernel
    intro n p hp
    have := this n
    rw [hp] at this
    simpa using this
  exact key b.toFin p h

/-- The escapes are not prefixes (R95). -/
theorem prefixOfByte_escape : prefixOfByte 0xC4#8 = none ∧ prefixOfByte 0x62#8 = none := by decide

/-- Prefix bytes are split off before a byte that is no prefix. -/
theorem splitPrefixes_map_append (pfx : List LegacyPrefix) {b : Byte} (rest : List Byte) (h : prefixOfByte b = none) :
    splitPrefixes (pfx.map byteOfPrefix ++ b :: rest) = (pfx, b :: rest) := by
  induction pfx with
  | nil => simp [splitPrefixes, h]
  | cons p ps ih => simp [splitPrefixes, prefixOfByte_byteOfPrefix, ih]

/-- Prefix bytes alone leave nothing. -/
theorem splitPrefixes_map (pfx : List LegacyPrefix) : splitPrefixes (pfx.map byteOfPrefix) = (pfx, []) := by
  induction pfx with
  | nil => rfl
  | cons p ps ih => simp [splitPrefixes, prefixOfByte_byteOfPrefix, ih]

/-- What is split off is prefix bytes, and what is left starts with no prefix. -/
theorem splitPrefixes_spec (bytes : List Byte) :
    bytes = (splitPrefixes bytes).1.map byteOfPrefix ++ (splitPrefixes bytes).2 ∧
      ∀ b rest, (splitPrefixes bytes).2 = b :: rest → prefixOfByte b = none := by
  induction bytes with
  | nil => exact ⟨rfl, fun b rest h => by cases h⟩
  | cons b bs ih =>
    unfold splitPrefixes
    cases h : prefixOfByte b with
    | none =>
      refine ⟨rfl, fun c rest hc => ?_⟩
      simp only [List.cons.injEq] at hc
      exact hc.1 ▸ h
    | some p =>
      refine ⟨?_, ih.2⟩
      simp only [List.map_cons, List.cons_append, byteOfPrefix_of_prefixOfByte h]
      exact congrArg (b :: ·) ih.1

theorem decode_map_append (pfx : List LegacyPrefix) {b : Byte} (rest : List Byte) (h : prefixOfByte b = none) :
    decode (pfx.map byteOfPrefix ++ b :: rest) = decodeBody pfx (b :: rest) := by
  simp only [decode, splitPrefixes_map_append pfx rest h]

theorem decode_vex (pfx : List LegacyPrefix) (rest : List Byte) :
    decode (pfx.map byteOfPrefix ++ 0xC4#8 :: rest) = decodeVex pfx rest := by
  rw [decode_map_append pfx rest prefixOfByte_escape.1]
  simp [decodeBody]

theorem decode_evex (pfx : List LegacyPrefix) (rest : List Byte) :
    decode (pfx.map byteOfPrefix ++ 0x62#8 :: rest) = decodeEvex pfx rest := by
  rw [decode_map_append pfx rest prefixOfByte_escape.2]
  simp [decodeBody]

/-! ## Bit fields -/

theorem kindOfOpcode_opcodeOfKind (k : Kind) : kindOfOpcode (opcodeOfKind k) = some k := by cases k <;> rfl

theorem opcodeOfKind_of_kindOfOpcode {b : Byte} {k : Kind} (h : kindOfOpcode b = some k) : b = opcodeOfKind k := by
  unfold kindOfOpcode at h
  split at h
  · cases h; assumption
  · split at h
    · cases h; assumption
    · split at h
      · cases h; assumption
      · cases h

theorem kindOfOpcode_isSome_iff (b : Byte) : (∃ k, kindOfOpcode b = some k) ↔ (b = 0x98#8 ∨ b = 0xA8#8 ∨ b = 0xB8#8) := by
  constructor
  · rintro ⟨k, h⟩
    have := opcodeOfKind_of_kindOfOpcode h
    cases k <;> simp [opcodeOfKind] at this <;> simp [this]
  · rintro (rfl | rfl | rfl)
    exacts [⟨.k132, rfl⟩, ⟨.k213, rfl⟩, ⟨.k231, rfl⟩]

theorem roundingOfBits_roundingBits (rc : RoundingMode) : roundingOfBits (roundingBits rc) = rc := by cases rc <;> rfl

theorem evexLenOfBits_evexLenBits (w : EvexLen) : evexLenOfBits (evexLenBits w) = some w := by cases w <;> rfl

theorem evexLenOfBits_eq_none_iff (b : BitVec 2) : evexLenOfBits b = none ↔ b = 0b11#2 := by revert b; decide

/-- The fields of a ModRM byte, and of a SIB byte, read back (R92, R93). -/
theorem fields_233 (a : BitVec 2) (b c : BitVec 3) :
    (a ++ b ++ c).extractLsb' 6 2 = a ∧ (a ++ b ++ c).extractLsb' 3 3 = b ∧ (a ++ b ++ c).extractLsb' 0 3 = c := by
  revert a b c
  decide +kernel

/-- Byte 1 of a VEX prefix read back (R81). -/
theorem fields_vex1 (r x b : BitVec 1) :
    (~~~ r ++ ~~~ x ++ ~~~ b ++ 0b00010#5).extractLsb' 0 5 = 0b00010#5 ∧
    ~~~ (~~~ r ++ ~~~ x ++ ~~~ b ++ 0b00010#5).extractLsb' 7 1 = r ∧
    ~~~ (~~~ r ++ ~~~ x ++ ~~~ b ++ 0b00010#5).extractLsb' 6 1 = x ∧
    ~~~ (~~~ r ++ ~~~ x ++ ~~~ b ++ 0b00010#5).extractLsb' 5 1 = b := by
  revert r x b
  decide

/-- Byte 2 of a VEX prefix read back (R81). -/
theorem fields_vex2 (v : BitVec 4) (l : BitVec 1) :
    (1#1 ++ ~~~ v ++ l ++ 0b01#2).extractLsb' 7 1 = 1#1 ∧ (1#1 ++ ~~~ v ++ l ++ 0b01#2).extractLsb' 0 2 = 0b01#2 ∧
    (1#1 ++ ~~~ v ++ l ++ 0b01#2).extractLsb' 2 1 = l ∧ ~~~ (1#1 ++ ~~~ v ++ l ++ 0b01#2).extractLsb' 3 4 = v := by
  revert v l
  decide

/-- `P0` of an EVEX prefix read back (R86). -/
theorem fields_p0 (r x b r' : BitVec 1) :
    (~~~ r ++ ~~~ x ++ ~~~ b ++ ~~~ r' ++ 0b00#2 ++ 0b10#2).extractLsb' 0 2 = 0b10#2 ∧
    (~~~ r ++ ~~~ x ++ ~~~ b ++ ~~~ r' ++ 0b00#2 ++ 0b10#2).extractLsb' 2 2 = 0b00#2 ∧
    ~~~ (~~~ r ++ ~~~ x ++ ~~~ b ++ ~~~ r' ++ 0b00#2 ++ 0b10#2).extractLsb' 7 1 = r ∧
    ~~~ (~~~ r ++ ~~~ x ++ ~~~ b ++ ~~~ r' ++ 0b00#2 ++ 0b10#2).extractLsb' 6 1 = x ∧
    ~~~ (~~~ r ++ ~~~ x ++ ~~~ b ++ ~~~ r' ++ 0b00#2 ++ 0b10#2).extractLsb' 5 1 = b ∧
    ~~~ (~~~ r ++ ~~~ x ++ ~~~ b ++ ~~~ r' ++ 0b00#2 ++ 0b10#2).extractLsb' 4 1 = r' := by
  revert r x b r'
  decide

/-- `P1` of an EVEX prefix read back (R86). -/
theorem fields_p1 (v : BitVec 4) :
    (1#1 ++ ~~~ v ++ 1#1 ++ 0b01#2).extractLsb' 7 1 = 1#1 ∧ (1#1 ++ ~~~ v ++ 1#1 ++ 0b01#2).extractLsb' 0 2 = 0b01#2 ∧
    (1#1 ++ ~~~ v ++ 1#1 ++ 0b01#2).extractLsb' 2 1 = 1#1 ∧ ~~~ (1#1 ++ ~~~ v ++ 1#1 ++ 0b01#2).extractLsb' 3 4 = v := by
  revert v
  decide

/-- `P2` of an EVEX prefix read back (R86). -/
theorem fields_p2 (z : Bool) (ll : BitVec 2) (b v' : BitVec 1) (a : BitVec 3) :
    (BitVec.ofBool z ++ ll ++ b ++ ~~~ v' ++ a).extractLsb' 7 1 = BitVec.ofBool z ∧
    (BitVec.ofBool z ++ ll ++ b ++ ~~~ v' ++ a).extractLsb' 5 2 = ll ∧
    (BitVec.ofBool z ++ ll ++ b ++ ~~~ v' ++ a).extractLsb' 4 1 = b ∧
    ~~~ (BitVec.ofBool z ++ ll ++ b ++ ~~~ v' ++ a).extractLsb' 3 1 = v' ∧
    (BitVec.ofBool z ++ ll ++ b ++ ~~~ v' ++ a).extractLsb' 0 3 = a := by
  revert z ll b v' a
  decide +kernel

theorem extBit_append_lowBits (r : BitVec 4) : extBit r ++ lowBits r = r := by revert r; decide

theorem lowBits_append (x : BitVec 1) (r : BitVec 3) : lowBits (x ++ r) = r ∧ extBit (x ++ r) = x := by
  revert x r
  decide

/-- A five-bit register number from its parts (R97). -/
theorem reg5_append (r : VReg) :
    r.extractLsb' 4 1 ++ r.extractLsb' 3 1 ++ r.extractLsb' 0 3 = r ∧ r.extractLsb' 4 1 ++ r.extractLsb' 0 4 = r := by
  revert r
  decide

theorem ofBool_eq_one_iff (z : Bool) : decide (BitVec.ofBool z = 1#1) = z := by cases z <;> rfl

/-! ## Displacements and memory operands -/

/-- A 32-bit displacement read back from its bytes (R94). -/
theorem disp32At_bytesOf32 (d : BitVec 32) (rest : List Byte) : disp32At (bytesOf32 d ++ rest) = some d := by
  simp only [bytesOf32, List.cons_append, List.nil_append, disp32At, Option.some.injEq]
  apply BitVec.eq_of_getLsbD_eq
  intro i hi
  simp only [BitVec.getLsbD_append, BitVec.getLsbD_extractLsb']
  by_cases h1 : i < 8
  · simp [h1]
  · by_cases h2 : i < 16
    · simp [h1, show i - 8 < 8 by omega, show 8 + (i - 8) = i by omega]
    · by_cases h3 : i < 24
      · simp [h1, show ¬ i - 8 < 8 by omega, show i - 8 - 8 < 8 by omega, show 16 + (i - 8 - 8) = i by omega]
      · simp [h1, show ¬ i - 8 < 8 by omega, show ¬ i - 8 - 8 < 8 by omega, show i - 8 - 8 - 8 < 8 by omega,
          show 24 + (i - 8 - 8 - 8) = i by omega]

theorem length_bytesOf32 (d : BitVec 32) : (bytesOf32 d).length = 4 := rfl

theorem length_dispBytes (d : Disp) : (dispBytes d).length = d.size := by cases d <;> rfl

/-- A displacement read back from its bytes (R94). -/
theorem dispAt_dispBytes (d : Disp) (rest : List Byte) : dispAt (modOfDisp d) (dispBytes d ++ rest) = some d := by
  cases d with
  | none => rfl
  | disp8 d => rfl
  | disp32 d =>
    have := disp32At_bytesOf32 d rest
    simp only [dispAt, modOfDisp, dispBytes, this]
    rfl

theorem modOfDisp_ne_three (d : Disp) : modOfDisp d ≠ 0b11#2 := by cases d <;> simp [modOfDisp]

theorem modOfDisp_eq_zero_iff (d : Disp) : modOfDisp d = 0b00#2 ↔ d = .none := by cases d <;> simp [modOfDisp]

/-- A memory operand never has the register form's `mod` (R92). -/
theorem memFields_md_ne (m : MemOperand) : (memFields m).md ≠ 0b11#2 := by
  cases m <;> simp only [memFields] <;> first | exact modOfDisp_ne_three _ | decide

theorem length_memFields_tail (m : MemOperand) : (memFields m).tail.length = m.tailSize := by
  cases m <;> simp [memFields, MemOperand.tailSize, length_dispBytes, length_bytesOf32, Nat.add_comm]

/-- A well-formed memory operand read back from its fields, whatever bytes follow (R57, R92 to R94, R98). -/
theorem memAt_memFields {m : MemOperand} (h : m.wf = true) (rest : List Byte) :
    memAt (memFields m).x (memFields m).b (memFields m).md (memFields m).rm ((memFields m).tail ++ rest) = some m := by
  cases m with
  | based base d =>
    simp only [MemOperand.wf, baseAllows, Bool.and_eq_true, bne_iff_ne, Bool.not_eq_true', Bool.and_eq_false_iff,
      beq_eq_false_iff_ne] at h
    have h2 : ¬(modOfDisp d = 0b00#2 ∧ lowBits base = 0b101#3) := by
      rw [modOfDisp_eq_zero_iff]
      rcases h.2 with h' | h' <;> tauto
    simp only [memFields, memAt, if_neg h.1, if_neg h2, dispAt_dispBytes, Option.map_some, extBit_append_lowBits]
  | ripRel d =>
    simp only [memFields, memAt, disp32At_bytesOf32]
    rfl
  | sib scale index base d =>
    have h2 : ¬(modOfDisp d = 0b00#2 ∧ lowBits base = 0b101#3) := by
      simp only [MemOperand.wf, baseAllows, Bool.not_eq_true', Bool.and_eq_false_iff, beq_eq_false_iff_ne] at h
      rw [modOfDisp_eq_zero_iff]
      rcases h with h' | h' <;> tauto
    obtain ⟨f1, f2, f3⟩ := fields_233 scale (lowBits index) (lowBits base)
    simp only [memFields, memAt, List.cons_append, if_true, f1, f2, f3, if_neg h2, dispAt_dispBytes, Option.map_some,
      extBit_append_lowBits]
  | sibNoBase scale index d =>
    obtain ⟨f1, f2, f3⟩ := fields_233 scale (lowBits index) 0b101#3
    simp only [memFields, memAt, List.cons_append, if_true, f1, f2, f3, and_self, disp32At_bytesOf32, Option.map_some,
      extBit_append_lowBits]

/-- A 32-bit displacement: there when four bytes are, and read from these alone. -/
theorem disp32At_spec (tail : List Byte) :
    (tail.length < 4 ∧ disp32At tail = none) ∨
    (4 ≤ tail.length ∧ ∃ d, disp32At tail = some d ∧ ∀ rest, disp32At (tail.take 4 ++ rest) = some d) := by
  match tail with
  | [] => exact .inl ⟨by simp, rfl⟩
  | [_] => exact .inl ⟨by simp, rfl⟩
  | [_, _] => exact .inl ⟨by simp, rfl⟩
  | [_, _, _] => exact .inl ⟨by simp, rfl⟩
  | a :: b :: c :: d :: t => exact .inr ⟨by simp, _, rfl, fun rest => rfl⟩

/-- The bytes of the displacement that `mod` announces (R94). -/
def modBytes (md : BitVec 2) : Nat := if md = 0b01#2 then 1 else if md = 0b10#2 then 4 else 0

/-- A displacement: there when its bytes are, and read from these alone. -/
theorem dispAt_spec (md : BitVec 2) (tail : List Byte) :
    (tail.length < modBytes md ∧ dispAt md tail = none) ∨
    (modBytes md ≤ tail.length ∧ ∃ d, dispAt md tail = some d ∧ d.size = modBytes md ∧ (d = .none ↔ modBytes md = 0) ∧
      ∀ rest, dispAt md (tail.take (modBytes md) ++ rest) = some d) := by
  unfold dispAt modBytes
  by_cases h1 : md = 0b01#2
  · simp only [if_pos h1]
    cases tail with
    | nil => exact .inl ⟨by simp, rfl⟩
    | cons a t => exact .inr ⟨by simp, _, rfl, rfl, by simp, fun rest => rfl⟩
  · by_cases h2 : md = 0b10#2
    · simp only [if_neg h1, if_pos h2]
      rcases disp32At_spec tail with ⟨hl, hn⟩ | ⟨hl, d, hd, hr⟩
      · exact .inl ⟨hl, by simp [hn]⟩
      · exact .inr ⟨hl, .disp32 d, by simp [hd], rfl, by simp, fun rest => by rw [hr]; rfl⟩
    · simp only [if_neg h1, if_neg h2]
      exact .inr ⟨by omega, .none, rfl, rfl, by simp, fun rest => rfl⟩

/-- A memory operand: there when the bytes R95 counts are, well-formed, of that size, and read from these alone. -/
theorem memAt_spec (x b : BitVec 1) (modrm : Byte) (tail : List Byte) (hmd : modrm.extractLsb' 6 2 ≠ 0b11#2) :
    (tail.length < operandTail modrm tail ∧ memAt x b (modrm.extractLsb' 6 2) (modrm.extractLsb' 0 3) tail = none) ∨
    (operandTail modrm tail ≤ tail.length ∧ ∃ m, memAt x b (modrm.extractLsb' 6 2) (modrm.extractLsb' 0 3) tail = some m ∧
      m.wf = true ∧ m.tailSize = operandTail modrm tail ∧
      ∀ rest, memAt x b (modrm.extractLsb' 6 2) (modrm.extractLsb' 0 3) (tail.take m.tailSize ++ rest) = some m) := by
  unfold operandTail
  generalize modrm.extractLsb' 6 2 = md at *
  generalize modrm.extractLsb' 0 3 = rm at *
  have hmb : modBytes md = if md = 0b00#2 then 0 else if md = 0b01#2 then 1 else 4 := by
    revert md; decide
  by_cases hrm : rm = 0b100#3
  · subst hrm
    cases tail with
    | nil => exact .inl ⟨by simp [hmd], rfl⟩
    | cons sib t =>
      simp only [List.headD_cons]
      by_cases hnb : md = 0b00#2 ∧ sib.extractLsb' 0 3 = 0b101#3
      · have e : ∀ u, memAt x b md 0b100#3 (sib :: u) = (disp32At u).map (.sibNoBase (sib.extractLsb' 6 2) (x ++ sib.extractLsb' 3 3)) := by
          intro u; simp only [memAt, if_true, if_pos hnb]
        rw [e]
        rcases disp32At_spec t with ⟨hl, hn⟩ | ⟨hl, d, hd, hr⟩
        · refine .inl ⟨?_, by simp [hn]⟩
          simp [hnb.1, hnb.2]; omega
        · refine .inr ⟨?_, _, by rw [hd]; rfl, rfl, ?_, fun rest => ?_⟩
          · simp [hnb.1, hnb.2]; omega
          · simp [hnb.1, hnb.2, MemOperand.tailSize]
          · simp only [MemOperand.tailSize, List.take_succ_cons, List.cons_append, e, hr, Option.map_some]
      · have e : ∀ u, memAt x b md 0b100#3 (sib :: u) = (dispAt md u).map (.sib (sib.extractLsb' 6 2) (x ++ sib.extractLsb' 3 3) (b ++ sib.extractLsb' 0 3)) := by
          intro u; simp only [memAt, if_true, if_neg hnb]
        rw [e]
        have hsz : (if md = 0b11#2 then 0 else if md = 0b00#2 then (if (0b100#3 : BitVec 3) = 0b101#3 ∨ (True ∧ sib.extractLsb' 0 3 = 0b101#3) then 4 else 0)
    else if md = 0b01#2 then 1
    else 4) = modBytes md := by
          rw [hmb, if_neg hmd]
          by_cases h0 : md = 0b00#2
          · have : ¬ sib.extractLsb' 0 3 = 0b101#3 := fun h => hnb ⟨h0, h⟩
            simp [h0, this]
          · simp [h0]
        rw [hsz]
        simp only [ne_eq, hmd, not_false_eq_true, true_and, if_true, List.length_cons]
        rcases dispAt_spec md t with ⟨hl, hn⟩ | ⟨hl, d, hd, hs, hz, hr⟩
        · exact .inl ⟨by omega, by simp [hn]⟩
        · refine .inr ⟨by omega, _, by rw [hd]; rfl, ?_, ?_, fun rest => ?_⟩
          · simp only [MemOperand.wf, baseAllows, Bool.not_eq_true', Bool.and_eq_false_iff, beq_eq_false_iff_ne, (lowBits_append b (sib.extractLsb' 0 3)).1, ne_eq, hz]
            by_cases h0 : md = 0b00#2
            · right; intro h; exact hnb ⟨h0, h⟩
            · left; rw [hmb, if_neg h0]; split <;> simp
          · simp only [MemOperand.tailSize, hs]
          · simp only [MemOperand.tailSize, hs, Nat.add_comm 1, List.take_succ_cons, List.cons_append, e, hr, Option.map_some]
  · by_cases hrip : md = 0b00#2 ∧ rm = 0b101#3
    · have e : ∀ u, memAt x b md rm u = (disp32At u).map .ripRel := by
        intro u; simp only [memAt, if_neg hrm, if_pos hrip]
      rw [e]
      simp only [hrip.1, hrip.2]
      rcases disp32At_spec tail with ⟨hl, hn⟩ | ⟨hl, d, hd, hr⟩
      · exact .inl ⟨by simp; omega, by simp [hn]⟩
      · refine .inr ⟨by simp; omega, _, by rw [hd]; rfl, rfl, by simp [MemOperand.tailSize], fun rest => ?_⟩
        have := e (tail.take 4 ++ rest)
        rw [hrip.1, hrip.2] at this
        simp only [MemOperand.tailSize]
        rw [this, hr]; rfl
    · have e : ∀ u, memAt x b md rm u = (dispAt md u).map (.based (b ++ rm)) := by
        intro u; simp only [memAt, if_neg hrm, if_neg hrip]
      simp only [e]
      have hsz : (if md = 0b11#2 then 0 else if md = 0b00#2 then (if rm = 0b101#3 ∨ (rm = 0b100#3 ∧ (tail.headD 0#8).extractLsb' 0 3 = 0b101#3) then 4 else 0)
    else if md = 0b01#2 then 1
    else 4) = modBytes md := by
        rw [hmb, if_neg hmd]
        by_cases h0 : md = 0b00#2
        · have : ¬ rm = 0b101#3 := fun h => hrip ⟨h0, h⟩
          simp [h0, this, hrm]
        · simp [h0]
      rw [hsz]
      simp only [hrm, and_false, if_false, Nat.zero_add]
      rcases dispAt_spec md tail with ⟨hl, hn⟩ | ⟨hl, d, hd, hs, hz, hr⟩
      · exact .inl ⟨by omega, by simp [hn]⟩
      · refine .inr ⟨by omega, _, by rw [hd]; rfl, ?_, ?_, fun rest => ?_⟩
        · simp only [MemOperand.wf, baseAllows, Bool.and_eq_true, bne_iff_ne, Bool.not_eq_true', Bool.and_eq_false_iff, beq_eq_false_iff_ne, (lowBits_append b rm).1, ne_eq, hz, hrm, not_false_eq_true, true_and]
          by_cases h0 : md = 0b00#2
          · right; intro h; exact hrip ⟨h0, h⟩
          · left; rw [hmb, if_neg h0]; split <;> simp
        · simp only [MemOperand.tailSize, hs]
        · simp only [MemOperand.tailSize, hs, hr, Option.map_some]

/-! ## The bytes of an instruction -/

/-- The fixed bits of a VEX word of the family (R81), and what it is then. -/
theorem decodeVex_family {pfx : List LegacyPrefix} {b1 b2 op modrm : Byte} {tail : List Byte} {k : Kind}
    (h1 : b1.extractLsb' 0 5 = 0b00010#5) (h2 : b2.extractLsb' 7 1 = 1#1) (h3 : b2.extractLsb' 0 2 = 0b01#2)
    (hk : kindOfOpcode op = some k) :
    decodeVex pfx (b1 :: b2 :: op :: modrm :: tail) = vexOperands pfx k b1 b2 modrm tail := by
  simp [decodeVex, h1, h2, h3, hk]

/-- An instruction read after the VEX escape has the fixed bits of the family. -/
theorem decodeVex_eq_instr {pfx : List LegacyPrefix} {bs : List Byte} {i : Instr} (h : decodeVex pfx bs = .instr i) :
    ∃ (b1 b2 op modrm : Byte) (tail : List Byte) (k : Kind), bs = b1 :: b2 :: op :: modrm :: tail ∧
      b1.extractLsb' 0 5 = 0b00010#5 ∧ b2.extractLsb' 7 1 = 1#1 ∧ b2.extractLsb' 0 2 = 0b01#2 ∧
      kindOfOpcode op = some k ∧ vexOperands pfx k b1 b2 modrm tail = .instr i := by
  unfold decodeVex at h
  split at h
  · cases h
  · split at h
    · cases h
    · rename_i b1 r1 h1
      split at h
      · cases h
      · rename_i b2 r2
        split at h
        · cases h
        · rename_i h2
          split at h
          · cases h
          · rename_i op r3
            split at h
            · cases h
            · rename_i k hk
              split at h
              · cases h
              · rename_i modrm r4
                simp only [not_or, ne_eq, not_not] at h1 h2
                exact ⟨b1, b2, op, modrm, r4, k, rfl, h1, h2.1, h2.2, hk, h⟩

/-- The fixed bits of an EVEX word of the family (R86), and what it is then. -/
theorem decodeEvex_family {pfx : List LegacyPrefix} {p0 p1 p2 op modrm : Byte} {tail : List Byte} {k : Kind}
    (h1 : p0.extractLsb' 0 2 = 0b10#2) (h2 : p1.extractLsb' 7 1 = 1#1) (h3 : p1.extractLsb' 0 2 = 0b01#2)
    (hk : kindOfOpcode op = some k) :
    decodeEvex pfx (p0 :: p1 :: p2 :: op :: modrm :: tail) = evexOperands pfx k p0 p1 p2 modrm tail := by
  simp [decodeEvex, h1, h2, h3, hk]

/-- An instruction read after the EVEX escape has the fixed bits of the family. -/
theorem decodeEvex_eq_instr {pfx : List LegacyPrefix} {bs : List Byte} {i : Instr} (h : decodeEvex pfx bs = .instr i) :
    ∃ (p0 p1 p2 op modrm : Byte) (tail : List Byte) (k : Kind), bs = p0 :: p1 :: p2 :: op :: modrm :: tail ∧
      p0.extractLsb' 0 2 = 0b10#2 ∧ p1.extractLsb' 7 1 = 1#1 ∧ p1.extractLsb' 0 2 = 0b01#2 ∧
      kindOfOpcode op = some k ∧ evexOperands pfx k p0 p1 p2 modrm tail = .instr i := by
  unfold decodeEvex at h
  split at h
  · cases h
  · split at h
    · cases h
    · rename_i p0 r0 h1
      split at h
      · cases h
      · rename_i p1 r1
        split at h
        · cases h
        · rename_i h2
          split at h
          · cases h
          · rename_i p2 r2
            split at h
            · cases h
            · rename_i op r3
              split at h
              · cases h
              · rename_i k hk
                split at h
                · cases h
                · rename_i modrm r4
                  simp only [not_or, ne_eq, not_not] at h1 h2
                  exact ⟨p0, p1, p2, op, modrm, r4, k, rfl, h1, h2.1, h2.2, hk, h⟩

/-- An instruction is read after one of the two escapes (R95). -/
theorem decode_eq_instr {bytes : List Byte} {i : Instr} (h : decode bytes = .instr i) :
    ∃ pfx rest, (bytes = pfx.map byteOfPrefix ++ 0xC4#8 :: rest ∧ decodeVex pfx rest = .instr i) ∨
      (bytes = pfx.map byteOfPrefix ++ 0x62#8 :: rest ∧ decodeEvex pfx rest = .instr i) := by
  obtain ⟨he, hn⟩ := splitPrefixes_spec bytes
  unfold decode decodeBody at h
  split at h
  · cases h
  · rename_i b rest hb
    rw [hb] at he
    split at h
    · rename_i hc
      exact ⟨_, rest, .inl ⟨by rw [← hc]; exact he, h⟩⟩
    · split at h
      · rename_i hc
        exact ⟨_, rest, .inr ⟨by rw [← hc]; exact he, h⟩⟩
      · cases h

/-- What the ModRM byte and its tail of a VEX word are (R92, R95, R96): too short, or an instruction. -/
theorem vexOperands_spec (pfx : List LegacyPrefix) (k : Kind) (b1 b2 modrm : Byte) (tail : List Byte) :
    (tail.length < operandTail modrm tail ∧ vexOperands pfx k b1 b2 modrm tail = .truncated) ∨
    (operandTail modrm tail ≤ tail.length ∧ ∃ (w : VexLen) (d v : BitVec 4) (r : VexSrc3),
      vexOperands pfx k b1 b2 modrm tail = .instr (mkVex k w pfx d v r) ∧ r.wf = true ∧
      (w = if b2.extractLsb' 2 1 = 0#1 then .v128 else .v256) ∧
      vexSize pfx r = pfx.length + 3 + 2 + operandTail modrm tail ∧
      ∀ rest, vexOperands pfx k b1 b2 modrm (tail.take (operandTail modrm tail) ++ rest) =
        .instr (mkVex k w pfx d v r)) := by
  by_cases hmd : modrm.extractLsb' 6 2 = 0b11#2
  · have h0 : operandTail modrm tail = 0 := by simp [operandTail, hmd]
    refine .inr ⟨by omega, _, (~~~ b1.extractLsb' 7 1 ++ modrm.extractLsb' 3 3), ~~~ b2.extractLsb' 3 4,
      .reg (~~~ b1.extractLsb' 5 1 ++ modrm.extractLsb' 0 3), ?_, rfl, rfl, ?_, fun rest => ?_⟩
    · simp only [vexOperands, hmd, if_true]
    · simp [vexSize, h0]
    · simp only [vexOperands, hmd, if_true]
  · rcases memAt_spec (~~~ b1.extractLsb' 6 1) (~~~ b1.extractLsb' 5 1) modrm tail hmd with
      ⟨hl, hn⟩ | ⟨hl, m, hm, hwf, hs, hr⟩
    · exact .inl ⟨hl, by simp only [vexOperands, hmd, if_false, hn]⟩
    · refine .inr ⟨hl, _, (~~~ b1.extractLsb' 7 1 ++ modrm.extractLsb' 3 3), ~~~ b2.extractLsb' 3 4, .mem m, ?_, hwf, rfl, ?_,
        fun rest => ?_⟩
      · simp only [vexOperands, hmd, if_false, hm]
      · simp only [vexSize, hs]
      · have := hr rest
        rw [hs] at this
        simp only [vexOperands, hmd, if_false, this]

/-- What an EVEX word is once its reserved bits are right (R88, R90, R91, R104). -/
theorem evexInstr_spec (pfx : List LegacyPrefix) (k : Kind) (p2 : Byte) (d v : VReg) (src3 : VReg ⊕ MemOperand) :
    (evexInstr pfx k p2 d v src3 = .reserved ∧ p2.extractLsb' 5 2 = 0b11#2 ∧
      ¬(p2.extractLsb' 4 1 = 1#1 ∧ ∃ r, src3 = .inl r)) ∨
    (∃ (rc : RoundingMode) (mk : Masking) (r : VReg), src3 = .inl r ∧ p2.extractLsb' 4 1 = 1#1 ∧
      evexInstr pfx k p2 d v src3 = .instr (mkEr k pfx rc mk d v r)) ∨
    (∃ (w : EvexLen) (mk : Masking) (r : EvexSrc3), evexInstr pfx k p2 d v src3 = .instr (mkEvex k w pfx mk d v r) ∧
      evexLenOfBits (p2.extractLsb' 5 2) = some w ∧
      ((∃ q, src3 = .inl q ∧ r = .reg q ∧ p2.extractLsb' 4 1 ≠ 1#1) ∨
        (∃ m, src3 = .inr m ∧ (r = .full m ∨ r = .bcast m)))) := by
  unfold evexInstr
  by_cases hb : p2.extractLsb' 4 1 = 1#1
  · cases src3 with
    | inl r => exact .inr (.inl ⟨_, _, r, rfl, hb, by simp only [hb, decide_true]; rfl⟩)
    | inr m =>
      cases hl : evexLenOfBits (p2.extractLsb' 5 2) with
      | none => exact .inl ⟨by simp [hb, hl], (evexLenOfBits_eq_none_iff _).mp hl, by simp⟩
      | some w =>
        exact .inr (.inr ⟨w, _, .bcast m, by simp only [hb, decide_true, hl]; rfl, rfl, .inr ⟨m, rfl, .inr rfl⟩⟩)
  · cases src3 with
    | inl r =>
      cases hl : evexLenOfBits (p2.extractLsb' 5 2) with
      | none => exact .inl ⟨by simp [hb, hl], (evexLenOfBits_eq_none_iff _).mp hl, by simp [hb]⟩
      | some w =>
        exact .inr (.inr ⟨w, _, .reg r, by simp only [hb, decide_false, hl]; rfl, rfl, .inl ⟨r, rfl, rfl, hb⟩⟩)
    | inr m =>
      cases hl : evexLenOfBits (p2.extractLsb' 5 2) with
      | none => exact .inl ⟨by simp [hb, hl], (evexLenOfBits_eq_none_iff _).mp hl, by simp [hb]⟩
      | some w =>
        exact .inr (.inr ⟨w, _, .full m, by simp only [hb, decide_false, hl]; rfl, rfl, .inr ⟨m, rfl, .inl rfl⟩⟩)

/-- What the ModRM byte and its tail of an EVEX word are (R92, R95, R97, R103): too short; reserved; or what its `P2` says of the
operand, read from its own bytes alone. -/
theorem evexOperands_spec (pfx : List LegacyPrefix) (k : Kind) (p0 p1 p2 modrm : Byte) (tail : List Byte) :
    (tail.length < operandTail modrm tail ∧ evexOperands pfx k p0 p1 p2 modrm tail = .truncated) ∨
    (operandTail modrm tail ≤ tail.length ∧ (p0.extractLsb' 2 2 ≠ 0b00#2 ∨ p1.extractLsb' 2 1 ≠ 1#1) ∧
      ∀ rest, evexOperands pfx k p0 p1 p2 modrm (tail.take (operandTail modrm tail) ++ rest) = .reserved) ∨
    (operandTail modrm tail ≤ tail.length ∧ p0.extractLsb' 2 2 = 0b00#2 ∧ p1.extractLsb' 2 1 = 1#1 ∧
      ∃ (d v : VReg) (src3 : VReg ⊕ MemOperand),
        (∀ m, src3 = .inr m → m.wf = true ∧ m.tailSize = operandTail modrm tail) ∧
        (∀ r, src3 = .inl r → operandTail modrm tail = 0) ∧
        (modrm.extractLsb' 6 2 = 0b11#2 ↔ ∃ r, src3 = .inl r) ∧
        ∀ rest, evexOperands pfx k p0 p1 p2 modrm (tail.take (operandTail modrm tail) ++ rest) =
          evexInstr pfx k p2 d v src3) := by
  have hres : (decide (p0.extractLsb' 2 2 ≠ 0b00#2 ∨ p1.extractLsb' 2 1 ≠ 1#1) = true) ∨
      (p0.extractLsb' 2 2 = 0b00#2 ∧ p1.extractLsb' 2 1 = 1#1) := by
    by_cases h : p0.extractLsb' 2 2 ≠ 0b00#2 ∨ p1.extractLsb' 2 1 ≠ 1#1
    · exact .inl (by simp only [h, decide_true])
    · simp only [not_or, ne_eq, not_not] at h
      exact .inr h
  by_cases hmd : modrm.extractLsb' 6 2 = 0b11#2
  · have h0 : ∀ u, operandTail modrm u = 0 := by intro u; simp [operandTail, hmd]
    rcases hres with hb | ⟨h1, h2⟩
    · refine .inr (.inl ⟨by rw [h0]; omega, by simpa using hb, fun rest => ?_⟩)
      simp only [evexOperands, hmd, if_true, hb]
    · refine .inr (.inr ⟨by rw [h0]; omega, h1, h2, (~~~ p0.extractLsb' 4 1 ++ ~~~ p0.extractLsb' 7 1 ++ modrm.extractLsb' 3 3),
        (~~~ p2.extractLsb' 3 1 ++ ~~~ p1.extractLsb' 3 4),
        .inl (~~~ p0.extractLsb' 6 1 ++ ~~~ p0.extractLsb' 5 1 ++ modrm.extractLsb' 0 3), by simp, fun _ _ => h0 tail,
        by simp [hmd], fun rest => ?_⟩)
      simp only [evexOperands, hmd, if_true, h1, h2, ne_eq, not_true_eq_false, or_self, decide_false, Bool.false_eq_true,
        if_false]
  · rcases memAt_spec (~~~ p0.extractLsb' 6 1) (~~~ p0.extractLsb' 5 1) modrm tail hmd with
      ⟨hl, hn⟩ | ⟨hl, m, hm, hwf, hs, hr⟩
    · exact .inl ⟨hl, by simp only [evexOperands, hmd, if_false, hn]⟩
    · rw [hs] at hr
      rcases hres with hb | ⟨h1, h2⟩
      · refine .inr (.inl ⟨hl, by simpa using hb, fun rest => ?_⟩)
        simp only [evexOperands, hmd, if_false, hr rest, hb, if_true]
      · refine .inr (.inr ⟨hl, h1, h2, (~~~ p0.extractLsb' 4 1 ++ ~~~ p0.extractLsb' 7 1 ++ modrm.extractLsb' 3 3),
        (~~~ p2.extractLsb' 3 1 ++ ~~~ p1.extractLsb' 3 4), .inr m, ?_, by simp,
          by simp [hmd], fun rest => ?_⟩)
        · rintro m' e
          cases e
          exact ⟨hwf, hs⟩
        · simp only [evexOperands, hmd, if_false, hr rest, h1, h2, ne_eq, not_true_eq_false, or_self, decide_false,
            Bool.false_eq_true]


/-- A VEX word that is an instruction: its own bytes are there and are all that is read; its size, row and operands. -/
theorem vexOperands_instr {pfx : List LegacyPrefix} {k : Kind} {b1 b2 modrm : Byte} {tail : List Byte} {i : Instr}
    (h : vexOperands pfx k b1 b2 modrm tail = .instr i) :
    operandTail modrm tail ≤ tail.length ∧ i.size = pfx.length + 3 + 2 + operandTail modrm tail ∧ i.operandsWf = true ∧
      i.row ≤ 6 ∧ ∀ rest, vexOperands pfx k b1 b2 modrm (tail.take (operandTail modrm tail) ++ rest) = .instr i := by
  rcases vexOperands_spec pfx k b1 b2 modrm tail with ⟨_, e⟩ | ⟨hl, w, d, v, r, e, hw, _, hs, hr⟩
  · rw [e] at h; cases h
  · rw [e] at h; cases h
    exact ⟨hl, by simpa using hs, by simpa using hw, row_mkVex_le _ _ _ _ _ _, hr⟩

/-- An EVEX word that is an instruction: its own bytes are there and are all that is read; its size, row and operands. -/
theorem evexOperands_instr {pfx : List LegacyPrefix} {k : Kind} {p0 p1 p2 modrm : Byte} {tail : List Byte} {i : Instr}
    (h : evexOperands pfx k p0 p1 p2 modrm tail = .instr i) :
    operandTail modrm tail ≤ tail.length ∧ i.size = pfx.length + 4 + 2 + operandTail modrm tail ∧ i.operandsWf = true ∧
      7 ≤ i.row ∧ ∀ rest, evexOperands pfx k p0 p1 p2 modrm (tail.take (operandTail modrm tail) ++ rest) = .instr i := by
  rcases evexOperands_spec pfx k p0 p1 p2 modrm tail with ⟨_, e⟩ | ⟨_, _, e⟩ | ⟨hl, _, _, d, v, src3, hm, hr, _, e⟩
  · rw [e] at h; cases h
  · have := e (tail.drop (operandTail modrm tail)); rw [List.take_append_drop, h] at this; cases this
  · have e0 := e (tail.drop (operandTail modrm tail))
    rw [List.take_append_drop, h] at e0
    have hall : ∀ rest, evexOperands pfx k p0 p1 p2 modrm (tail.take (operandTail modrm tail) ++ rest) = .instr i :=
      fun rest => by rw [e rest, ← e0]
    rcases evexInstr_spec pfx k p2 d v src3 with ⟨e1, _⟩ | ⟨rc, mk, r, hs, _, e1⟩ | ⟨w, mk, r, e1, _, hs⟩
    · rw [← e0] at e1; cases e1
    · rw [← e0] at e1; cases e1
      exact ⟨hl, by simp only [size_mkEr, evexSize, hr r hs], by simp only [operandsWf_mkEr],
        le_trans (by omega) (row_mkEr_ge _ _ _ _ _ _ _), hall⟩
    · rw [← e0] at e1; cases e1
      refine ⟨hl, ?_, ?_, (row_mkEvex_mem _ _ _ _ _ _ _).1, hall⟩
      · rcases hs with ⟨q, hq, rfl, _⟩ | ⟨m, hq, rfl | rfl⟩
        · simp only [size_mkEvex, evexSize, hr q hq]
        · simp only [size_mkEvex, evexSize, (hm m hq).2]
        · simp only [size_mkEvex, evexSize, (hm m hq).2]
      · rcases hs with ⟨q, hq, rfl, _⟩ | ⟨m, hq, rfl | rfl⟩
        · simp only [operandsWf_mkEvex, EvexSrc3.wf]
        · simp only [operandsWf_mkEvex, EvexSrc3.wf, (hm m hq).1]
        · simp only [operandsWf_mkEvex, EvexSrc3.wf, (hm m hq).1]

/-! ## More bytes change nothing that was already decided -/

theorem disp32At_append {l : List Byte} {d : BitVec 32} (h : disp32At l = some d) (r : List Byte) :
    disp32At (l ++ r) = some d := by
  match l with
  | [] => cases h
  | [_] => cases h
  | [_, _] => cases h
  | [_, _, _] => cases h
  | _ :: _ :: _ :: _ :: _ => exact h

theorem dispAt_append {md : BitVec 2} {l : List Byte} {d : Disp} (h : dispAt md l = some d) (r : List Byte) :
    dispAt md (l ++ r) = some d := by
  unfold dispAt at h ⊢
  split
  · rename_i h1
    rw [if_pos h1] at h
    cases l with
    | nil => cases h
    | cons a t => exact h
  · rename_i h1
    rw [if_neg h1] at h
    split
    · rename_i h2
      rw [if_pos h2] at h
      obtain ⟨e, he, rfl⟩ := Option.map_eq_some_iff.mp h
      rw [disp32At_append he]
      rfl
    · rename_i h2
      rwa [if_neg h2] at h

theorem memAt_append {x b : BitVec 1} {md : BitVec 2} {rm : BitVec 3} {l : List Byte} {m : MemOperand}
    (h : memAt x b md rm l = some m) (r : List Byte) : memAt x b md rm (l ++ r) = some m := by
  unfold memAt at h ⊢
  split
  · rename_i h1
    rw [if_pos h1] at h
    cases l with
    | nil => cases h
    | cons sib t =>
      simp only [List.cons_append] at h ⊢
      split
      · rename_i h2
        rw [if_pos h2] at h
        obtain ⟨e, he, rfl⟩ := Option.map_eq_some_iff.mp h
        rw [disp32At_append he]
        rfl
      · rename_i h2
        rw [if_neg h2] at h
        obtain ⟨e, he, rfl⟩ := Option.map_eq_some_iff.mp h
        rw [dispAt_append he]
        rfl
  · rename_i h1
    rw [if_neg h1] at h
    split
    · rename_i h2
      rw [if_pos h2] at h
      obtain ⟨e, he, rfl⟩ := Option.map_eq_some_iff.mp h
      rw [disp32At_append he]
      rfl
    · rename_i h2
      rw [if_neg h2] at h
      obtain ⟨e, he, rfl⟩ := Option.map_eq_some_iff.mp h
      rw [dispAt_append he]
      rfl

theorem vexOperands_append {pfx : List LegacyPrefix} {k : Kind} {b1 b2 modrm : Byte} {l : List Byte} (r : List Byte)
    (h : vexOperands pfx k b1 b2 modrm l ≠ .truncated) :
    vexOperands pfx k b1 b2 modrm (l ++ r) = vexOperands pfx k b1 b2 modrm l := by
  unfold vexOperands at h ⊢
  by_cases h1 : modrm.extractLsb' 6 2 = 0b11#2
  · simp only [if_pos h1]
  · simp only [if_neg h1] at h ⊢
    cases hm : memAt (~~~ b1.extractLsb' 6 1) (~~~ b1.extractLsb' 5 1) (modrm.extractLsb' 6 2) (modrm.extractLsb' 0 3) l with
    | none => simp only [hm] at h; exact absurd rfl h
    | some m => rw [memAt_append hm]

theorem evexOperands_append {pfx : List LegacyPrefix} {k : Kind} {p0 p1 p2 modrm : Byte} {l : List Byte} (r : List Byte)
    (h : evexOperands pfx k p0 p1 p2 modrm l ≠ .truncated) :
    evexOperands pfx k p0 p1 p2 modrm (l ++ r) = evexOperands pfx k p0 p1 p2 modrm l := by
  unfold evexOperands at h ⊢
  by_cases h1 : modrm.extractLsb' 6 2 = 0b11#2
  · simp only [if_pos h1]
  · simp only [if_neg h1] at h ⊢
    cases hm : memAt (~~~ p0.extractLsb' 6 1) (~~~ p0.extractLsb' 5 1) (modrm.extractLsb' 6 2) (modrm.extractLsb' 0 3) l with
    | none => simp only [hm] at h; exact absurd rfl h
    | some m => rw [memAt_append hm]

theorem decodeVex_append {pfx : List LegacyPrefix} (l r : List Byte) (h : decodeVex pfx l ≠ .truncated) :
    decodeVex pfx (l ++ r) = decodeVex pfx l := by
  match l with
  | [] => exact absurd rfl h
  | [b1] =>
    by_cases h1 : b1.extractLsb' 0 5 ≠ 0b00010#5
    · simp only [decodeVex, List.cons_append, if_pos h1]
    · simp only [decodeVex, if_neg h1] at h; exact absurd rfl h
  | [b1, b2] =>
    by_cases h1 : b1.extractLsb' 0 5 ≠ 0b00010#5
    · simp only [decodeVex, List.cons_append, if_pos h1]
    · by_cases h2 : b2.extractLsb' 7 1 ≠ 1#1 ∨ b2.extractLsb' 0 2 ≠ 0b01#2
      · simp only [decodeVex, List.cons_append, if_neg h1, if_pos h2]
      · simp only [decodeVex, if_neg h1, if_neg h2] at h; exact absurd rfl h
  | [b1, b2, op] =>
    by_cases h1 : b1.extractLsb' 0 5 ≠ 0b00010#5
    · simp only [decodeVex, List.cons_append, if_pos h1]
    · by_cases h2 : b2.extractLsb' 7 1 ≠ 1#1 ∨ b2.extractLsb' 0 2 ≠ 0b01#2
      · simp only [decodeVex, List.cons_append, if_neg h1, if_pos h2]
      · cases hk : kindOfOpcode op with
        | none => simp only [decodeVex, List.cons_append, if_neg h1, if_neg h2, hk]
        | some k => simp only [decodeVex, if_neg h1, if_neg h2, hk] at h; exact absurd rfl h
  | b1 :: b2 :: op :: modrm :: t =>
    by_cases h1 : b1.extractLsb' 0 5 ≠ 0b00010#5
    · simp only [decodeVex, List.cons_append, if_pos h1]
    · by_cases h2 : b2.extractLsb' 7 1 ≠ 1#1 ∨ b2.extractLsb' 0 2 ≠ 0b01#2
      · simp only [decodeVex, List.cons_append, if_neg h1, if_pos h2]
      · cases hk : kindOfOpcode op with
        | none => simp only [decodeVex, List.cons_append, if_neg h1, if_neg h2, hk]
        | some k =>
          simp only [decodeVex, if_neg h1, if_neg h2, hk] at h
          simp only [decodeVex, List.cons_append, if_neg h1, if_neg h2, hk]
          exact vexOperands_append r h

theorem decodeEvex_append {pfx : List LegacyPrefix} (l r : List Byte) (h : decodeEvex pfx l ≠ .truncated) :
    decodeEvex pfx (l ++ r) = decodeEvex pfx l := by
  match l with
  | [] => exact absurd rfl h
  | [p0] =>
    by_cases h1 : p0.extractLsb' 0 2 ≠ 0b10#2
    · simp only [decodeEvex, List.cons_append, if_pos h1]
    · simp only [decodeEvex, if_neg h1] at h; exact absurd rfl h
  | [p0, p1] =>
    by_cases h1 : p0.extractLsb' 0 2 ≠ 0b10#2
    · simp only [decodeEvex, List.cons_append, if_pos h1]
    · by_cases h2 : p1.extractLsb' 7 1 ≠ 1#1 ∨ p1.extractLsb' 0 2 ≠ 0b01#2
      · simp only [decodeEvex, List.cons_append, if_neg h1, if_pos h2]
      · simp only [decodeEvex, if_neg h1, if_neg h2] at h; exact absurd rfl h
  | [p0, p1, p2] =>
    by_cases h1 : p0.extractLsb' 0 2 ≠ 0b10#2
    · simp only [decodeEvex, List.cons_append, if_pos h1]
    · by_cases h2 : p1.extractLsb' 7 1 ≠ 1#1 ∨ p1.extractLsb' 0 2 ≠ 0b01#2
      · simp only [decodeEvex, List.cons_append, if_neg h1, if_pos h2]
      · simp only [decodeEvex, if_neg h1, if_neg h2] at h; exact absurd rfl h
  | [p0, p1, p2, op] =>
    by_cases h1 : p0.extractLsb' 0 2 ≠ 0b10#2
    · simp only [decodeEvex, List.cons_append, if_pos h1]
    · by_cases h2 : p1.extractLsb' 7 1 ≠ 1#1 ∨ p1.extractLsb' 0 2 ≠ 0b01#2
      · simp only [decodeEvex, List.cons_append, if_neg h1, if_pos h2]
      · cases hk : kindOfOpcode op with
        | none => simp only [decodeEvex, List.cons_append, if_neg h1, if_neg h2, hk]
        | some k => simp only [decodeEvex, if_neg h1, if_neg h2, hk] at h; exact absurd rfl h
  | p0 :: p1 :: p2 :: op :: modrm :: t =>
    by_cases h1 : p0.extractLsb' 0 2 ≠ 0b10#2
    · simp only [decodeEvex, List.cons_append, if_pos h1]
    · by_cases h2 : p1.extractLsb' 7 1 ≠ 1#1 ∨ p1.extractLsb' 0 2 ≠ 0b01#2
      · simp only [decodeEvex, List.cons_append, if_neg h1, if_pos h2]
      · cases hk : kindOfOpcode op with
        | none => simp only [decodeEvex, List.cons_append, if_neg h1, if_neg h2, hk]
        | some k =>
          simp only [decodeEvex, if_neg h1, if_neg h2, hk] at h
          simp only [decodeEvex, List.cons_append, if_neg h1, if_neg h2, hk]
          exact evexOperands_append r h

/-- Bytes that follow a decided instruction, refusal or reserved encoding do not change it. -/
theorem decode_append {l : List Byte} (r : List Byte) (h : decode l ≠ .truncated) : decode (l ++ r) = decode l := by
  obtain ⟨he, hn⟩ := splitPrefixes_spec l
  cases hb : (splitPrefixes l).2 with
  | nil => exact absurd (by simp only [decode, hb]; rfl) h
  | cons b rest =>
    have hnone := hn b rest hb
    rw [hb] at he
    have e1 : decode (l ++ r) = decodeBody (splitPrefixes l).1 (b :: (rest ++ r)) := by
      conv_lhs => rw [he, List.append_assoc, List.cons_append]
      exact decode_map_append _ _ hnone
    have e2 : decode l = decodeBody (splitPrefixes l).1 (b :: rest) := by simp only [decode, hb]
    rw [e1, e2]
    rw [e2] at h
    simp only [decodeBody] at h ⊢
    by_cases hc : b = 0xC4#8
    · simp only [if_pos hc] at h ⊢
      exact decodeVex_append _ _ h
    · by_cases hd : b = 0x62#8
      · simp only [if_neg hc, if_pos hd] at h ⊢
        exact decodeEvex_append _ _ h
      · simp only [if_neg hc, if_neg hd]

end Sys2Proof
end

