-- ==== Sys2Proof/Laws/Memory.lean ====
section
/-! SUPPORT. Memory: a read after a write, the canonical form kept by every operation, and what it means. -/

namespace Sys2Proof.Machine

/-- Bytes below the start of a list in canonical form read as unlisted. -/
theorem read_below {m : Memory} {lo c : Nat} (h : Memory.wfFrom lo m = true) (hc : c < lo) :
    Memory.read m c = unlistedByte := by
  induction m generalizing lo with
  | nil => rfl
  | cons e rest ih =>
    obtain ⟨c0, w⟩ := e
    simp only [Memory.wfFrom, Bool.and_eq_true, decide_eq_true_eq] at h
    have h1 : c ≠ c0 := by omega
    simp only [Memory.read, if_neg h1]
    exact ih h.2 (by omega)

/-- A read after a write gives the value written at its address and the old byte elsewhere. -/
theorem read_write_of_wfFrom (m : Memory) (a b : Nat) (v : Byte) :
    ∀ lo, Memory.wfFrom lo m = true →
      Memory.read (Memory.write m a v) b = if b = a then v else Memory.read m b := by
  induction m with
  | nil =>
    intro lo _
    by_cases hv : v = unlistedByte
    · by_cases hb : b = a <;> simp [Memory.write, Memory.read, hv, hb]
    · by_cases hb : b = a <;> simp [Memory.write, Memory.read, hv, hb]
  | cons e rest ih =>
    obtain ⟨c, w⟩ := e
    intro lo h
    simp only [Memory.wfFrom, Bool.and_eq_true, decide_eq_true_eq] at h
    unfold Memory.write
    by_cases h1 : a < c
    · have hlow := read_below h.2 (show a < c + 1 by omega)
      have hac : a ≠ c := by omega
      by_cases hv : v = unlistedByte
      · simp only [if_pos h1, if_pos hv]
        by_cases hb : b = a
        · subst hb; simp [Memory.read, hac, hlow, hv]
        · simp [hb]
      · simp only [if_pos h1, if_neg hv]
        by_cases hb : b = a <;> simp [Memory.read, hb]
    · by_cases h2 : a = c
      · subst h2
        simp only [if_neg h1, if_true]
        have hlow := read_below h.2 (show a < a + 1 by omega)
        by_cases hv : v = unlistedByte
        · simp only [if_pos hv]
          by_cases hb : b = a
          · subst hb; simp [hlow, hv]
          · simp [Memory.read, hb]
        · simp only [if_neg hv]
          by_cases hb : b = a <;> simp [Memory.read, hb]
      · simp only [if_neg h1, if_neg h2, Memory.read]
        by_cases hb : b = c
        · subst hb
          have : b ≠ a := fun e => h2 e.symm
          simp [this]
        · simp only [if_neg hb]
          exact ih (c + 1) h.2

/-- A read after a write in a memory in canonical form. -/
theorem read_write {m : Memory} (h : Memory.wf m = true) (a b : Nat) (v : Byte) :
    Memory.read (Memory.write m a v) b = if b = a then v else Memory.read m b :=
  read_write_of_wfFrom m a b v 0 h

/-- A lower start keeps the canonical form. -/
theorem wfFrom_mono {m : Memory} {lo lo' : Nat} (hl : lo' ≤ lo) (h : Memory.wfFrom lo m = true) :
    Memory.wfFrom lo' m = true := by
  cases m with
  | nil => rfl
  | cons e rest =>
    simp only [Memory.wfFrom, Bool.and_eq_true, decide_eq_true_eq] at h ⊢
    exact ⟨⟨by omega, h.1.2⟩, h.2⟩

/-- A write keeps the canonical form above any address not above the written one. -/
theorem wfFrom_write (m : Memory) (a : Nat) (v : Byte) :
    ∀ lo, Memory.wfFrom lo m = true → lo ≤ a → Memory.wfFrom lo (Memory.write m a v) = true := by
  induction m with
  | nil =>
    intro lo _ hl
    by_cases hv : v = unlistedByte <;> simp [Memory.write, Memory.wfFrom, hv, hl]
  | cons e rest ih =>
    obtain ⟨c, w⟩ := e
    intro lo h hl
    have h' := h
    simp only [Memory.wfFrom, Bool.and_eq_true, decide_eq_true_eq] at h
    unfold Memory.write
    by_cases h1 : a < c
    · by_cases hv : v = unlistedByte
      · simpa only [if_pos h1, if_pos hv] using h'
      · simp only [if_pos h1, if_neg hv, Memory.wfFrom, Bool.and_eq_true, decide_eq_true_eq, bne_iff_ne]
        exact ⟨⟨hl, hv⟩, ⟨by omega, by simpa using h.1.2⟩, h.2⟩
    · by_cases h2 : a = c
      · subst h2
        by_cases hv : v = unlistedByte
        · simp only [if_neg h1, if_true, if_pos hv]
          exact wfFrom_mono (by omega) h.2
        · simp only [if_neg h1, if_true, if_neg hv, Memory.wfFrom, Bool.and_eq_true, decide_eq_true_eq, bne_iff_ne]
          exact ⟨⟨hl, hv⟩, h.2⟩
      · simp only [if_neg h1, if_neg h2, Memory.wfFrom, Bool.and_eq_true, decide_eq_true_eq]
        exact ⟨h.1, ih (c + 1) h.2 (by omega)⟩

/-- `Memory.write` keeps the canonical form. -/
theorem wf_write {m : Memory} (h : Memory.wf m = true) (a : Nat) (v : Byte) :
    Memory.wf (Memory.write m a v) = true :=
  wfFrom_write m a v 0 h (Nat.zero_le a)

/-- `Memory.writeBytes` keeps the canonical form. -/
theorem wf_writeBytes (vs : List Byte) :
    ∀ (m : Memory) (a : Nat), Memory.wf m = true → Memory.wf (Memory.writeBytes m a vs) = true := by
  induction vs with
  | nil => intro m a h; exact h
  | cons v vs ih => intro m a h; exact ih _ _ (wf_write h a v)

/-- `placeBytes` keeps the canonical form. -/
theorem wf_placeBytes (vs : List Byte) :
    ∀ (m : Memory) (a : Addr), Memory.wf m = true → Memory.wf (placeBytes m a vs) = true := by
  induction vs with
  | nil => intro m a h; exact h
  | cons v vs ih => intro m a h; exact ih _ _ (wf_write h a.toNat v)

/-- The memory at reset is in canonical form. -/
theorem wf_reset : Memory.wf State.reset.mem = true := rfl

/-- Placing an instruction keeps the canonical form. -/
theorem wf_placeAtFetch {s : State} (h : Memory.wf s.mem = true) (bs : List Byte) :
    Memory.wf (placeAtFetch s bs).mem = true :=
  wf_placeBytes bs s.mem (fetchBase s) h

/-- Equal contents are equal data: two memories in canonical form that read alike everywhere are the same list. -/
theorem eq_of_read_eq {m n : Memory} {lo : Nat} (hm : Memory.wfFrom lo m = true) (hn : Memory.wfFrom lo n = true)
    (h : ∀ a, Memory.read m a = Memory.read n a) : m = n := by
  induction m generalizing n lo with
  | nil =>
    cases n with
    | nil => rfl
    | cons e rest =>
      obtain ⟨c, w⟩ := e
      simp only [Memory.wfFrom, Bool.and_eq_true, bne_iff_ne] at hn
      have := h c
      simp only [Memory.read, if_true] at this
      exact absurd this.symm hn.1.2
  | cons e rest ih =>
    obtain ⟨c, w⟩ := e
    have hm' := hm
    simp only [Memory.wfFrom, Bool.and_eq_true, decide_eq_true_eq, bne_iff_ne] at hm
    cases n with
    | nil =>
      have := h c
      simp only [Memory.read, if_true] at this
      exact absurd this hm.1.2
    | cons e' rest' =>
      obtain ⟨d, u⟩ := e'
      have hn' := hn
      simp only [Memory.wfFrom, Bool.and_eq_true, decide_eq_true_eq, bne_iff_ne] at hn
      have hcd : c = d := by
        rcases Nat.lt_trichotomy c d with hlt | heq | hgt
        · have h1 := h c
          simp only [Memory.read, if_true, if_neg (Nat.ne_of_lt hlt), read_below hn.2 (Nat.lt_succ_of_lt hlt)] at h1
          exact absurd h1 hm.1.2
        · exact heq
        · have h1 := h d
          simp only [Memory.read, if_true, if_neg (Nat.ne_of_lt hgt), read_below hm.2 (Nat.lt_succ_of_lt hgt)] at h1
          exact absurd h1.symm hn.1.2
      subst hcd
      have hwu : w = u := by
        have h1 := h c
        simpa only [Memory.read, if_true] using h1
      subst hwu
      congr 1
      refine ih hm.2 hn.2 (fun a => ?_)
      have h1 := h a
      by_cases ha : a = c
      · subst ha
        rw [read_below hm.2 (Nat.lt_succ_self a), read_below hn.2 (Nat.lt_succ_self a)]
      · simpa only [Memory.read, if_neg ha] using h1

end Sys2Proof.Machine
end

