-- ==== Sys2Proof/Laws/State.lean ====
section
/-! SUPPORT. One lemma per field per update of the state, and the register accessors after a write. -/

namespace Sys2Proof.Machine

@[simp] theorem writeZmm_x (s : State) (r : VReg) (v : Lanes) : (writeZmm s r v).x = s.x := rfl
@[simp] theorem writeZmm_pc (s : State) (r : VReg) (v : Lanes) : (writeZmm s r v).pc = s.pc := rfl
@[simp] theorem writeZmm_rflags (s : State) (r : VReg) (v : Lanes) : (writeZmm s r v).rflags = s.rflags := rfl
@[simp] theorem writeZmm_k (s : State) (r : VReg) (v : Lanes) : (writeZmm s r v).k = s.k := rfl
@[simp] theorem writeZmm_mxcsr (s : State) (r : VReg) (v : Lanes) : (writeZmm s r v).mxcsr = s.mxcsr := rfl
@[simp] theorem writeZmm_cr0 (s : State) (r : VReg) (v : Lanes) : (writeZmm s r v).cr0 = s.cr0 := rfl
@[simp] theorem writeZmm_cr4 (s : State) (r : VReg) (v : Lanes) : (writeZmm s r v).cr4 = s.cr4 := rfl
@[simp] theorem writeZmm_xcr0 (s : State) (r : VReg) (v : Lanes) : (writeZmm s r v).xcr0 = s.xcr0 := rfl
@[simp] theorem writeZmm_fsBase (s : State) (r : VReg) (v : Lanes) : (writeZmm s r v).fsBase = s.fsBase := rfl
@[simp] theorem writeZmm_gsBase (s : State) (r : VReg) (v : Lanes) : (writeZmm s r v).gsBase = s.gsBase := rfl
@[simp] theorem writeZmm_csBase (s : State) (r : VReg) (v : Lanes) : (writeZmm s r v).csBase = s.csBase := rfl
@[simp] theorem writeZmm_cpl (s : State) (r : VReg) (v : Lanes) : (writeZmm s r v).cpl = s.cpl := rfl
@[simp] theorem writeZmm_mode (s : State) (r : VReg) (v : Lanes) : (writeZmm s r v).mode = s.mode := rfl
@[simp] theorem writeZmm_xlat (s : State) (r : VReg) (v : Lanes) : (writeZmm s r v).xlat = s.xlat := rfl
@[simp] theorem writeZmm_mem (s : State) (r : VReg) (v : Lanes) : (writeZmm s r v).mem = s.mem := rfl
@[simp] theorem writeZmm_fault (s : State) (r : VReg) (v : Lanes) : (writeZmm s r v).fault = s.fault := rfl
@[simp] theorem writeZmm_cfg (s : State) (r : VReg) (v : Lanes) : (writeZmm s r v).cfg = s.cfg := rfl
@[simp] theorem writeZmm_zmm (s : State) (r : VReg) (v : Lanes) :
    (writeZmm s r v).zmm = s.zmm.set r.toNat v r.isLt := rfl

@[simp] theorem placeAtFetch_x (s : State) (bs : List Byte) : (placeAtFetch s bs).x = s.x := rfl
@[simp] theorem placeAtFetch_pc (s : State) (bs : List Byte) : (placeAtFetch s bs).pc = s.pc := rfl
@[simp] theorem placeAtFetch_rflags (s : State) (bs : List Byte) : (placeAtFetch s bs).rflags = s.rflags := rfl
@[simp] theorem placeAtFetch_zmm (s : State) (bs : List Byte) : (placeAtFetch s bs).zmm = s.zmm := rfl
@[simp] theorem placeAtFetch_k (s : State) (bs : List Byte) : (placeAtFetch s bs).k = s.k := rfl
@[simp] theorem placeAtFetch_mxcsr (s : State) (bs : List Byte) : (placeAtFetch s bs).mxcsr = s.mxcsr := rfl
@[simp] theorem placeAtFetch_cr0 (s : State) (bs : List Byte) : (placeAtFetch s bs).cr0 = s.cr0 := rfl
@[simp] theorem placeAtFetch_cr4 (s : State) (bs : List Byte) : (placeAtFetch s bs).cr4 = s.cr4 := rfl
@[simp] theorem placeAtFetch_xcr0 (s : State) (bs : List Byte) : (placeAtFetch s bs).xcr0 = s.xcr0 := rfl
@[simp] theorem placeAtFetch_fsBase (s : State) (bs : List Byte) : (placeAtFetch s bs).fsBase = s.fsBase := rfl
@[simp] theorem placeAtFetch_gsBase (s : State) (bs : List Byte) : (placeAtFetch s bs).gsBase = s.gsBase := rfl
@[simp] theorem placeAtFetch_csBase (s : State) (bs : List Byte) : (placeAtFetch s bs).csBase = s.csBase := rfl
@[simp] theorem placeAtFetch_cpl (s : State) (bs : List Byte) : (placeAtFetch s bs).cpl = s.cpl := rfl
@[simp] theorem placeAtFetch_mode (s : State) (bs : List Byte) : (placeAtFetch s bs).mode = s.mode := rfl
@[simp] theorem placeAtFetch_mem (s : State) (bs : List Byte) :
    (placeAtFetch s bs).mem = placeBytes s.mem (fetchBase s) bs := rfl
@[simp] theorem placeAtFetch_fault (s : State) (bs : List Byte) : (placeAtFetch s bs).fault = none := rfl
@[simp] theorem placeAtFetch_law (s : State) (bs : List Byte) : (placeAtFetch s bs).cfg.law = s.cfg.law := rfl
@[simp] theorem placeAtFetch_xlat (s : State) (bs : List Byte) :
    (placeAtFetch s bs).xlat = if fetchesInPlace s bs.length (fetchBase s) then s.xlat
      else fetchLines bs.length (fetchBase s) ++ s.xlat := rfl

@[simp] theorem launchState_x (s : State) : (launchState s).x = s.x := rfl
@[simp] theorem launchState_pc (s : State) : (launchState s).pc = s.pc := rfl
@[simp] theorem launchState_rflags (s : State) : (launchState s).rflags = s.rflags &&& ~~~0x100#64 := rfl
@[simp] theorem launchState_zmm (s : State) : (launchState s).zmm = s.zmm := rfl
@[simp] theorem launchState_k (s : State) : (launchState s).k = s.k := rfl
@[simp] theorem launchState_mxcsr (s : State) : (launchState s).mxcsr = s.mxcsr &&& 0xFFFF#32 := rfl
@[simp] theorem launchState_cr0 (s : State) : (launchState s).cr0 = s.cr0 := rfl
@[simp] theorem launchState_cr4 (s : State) : (launchState s).cr4 = s.cr4 := rfl
@[simp] theorem launchState_xcr0 (s : State) : (launchState s).xcr0 = s.xcr0 := rfl
@[simp] theorem launchState_fsBase (s : State) : (launchState s).fsBase = s.fsBase := rfl
@[simp] theorem launchState_gsBase (s : State) : (launchState s).gsBase = s.gsBase := rfl
@[simp] theorem launchState_csBase (s : State) : (launchState s).csBase = s.csBase := rfl
@[simp] theorem launchState_cpl (s : State) : (launchState s).cpl = s.cpl := rfl
@[simp] theorem launchState_mode (s : State) : (launchState s).mode = .mode64 := rfl
@[simp] theorem launchState_xlat (s : State) : (launchState s).xlat = s.xlat := rfl
@[simp] theorem launchState_mem (s : State) : (launchState s).mem = s.mem := rfl
@[simp] theorem launchState_fault (s : State) : (launchState s).fault = s.fault := rfl
@[simp] theorem launchState_cfg (s : State) : (launchState s).cfg = s.cfg := rfl
@[simp] theorem fetchBase_launchState (s : State) : fetchBase (launchState s) = s.pc := rfl

/-- Reading a vector register after a write: the written value there, the old one elsewhere. -/
theorem readZmm_writeZmm (s : State) (r q : VReg) (v : Lanes) :
    readZmm (writeZmm s r v) q = if q = r then v else readZmm s q := by
  unfold readZmm writeZmm
  rw [Vector.getElem_set]
  by_cases h : q = r
  · simp [h]
  · have : r.toNat ≠ q.toNat := fun e => h (BitVec.eq_of_toNat_eq e.symm)
    simp [h, this]

@[simp] theorem readZmm_writeZmm_same (s : State) (r : VReg) (v : Lanes) : readZmm (writeZmm s r v) r = v := by
  simp [readZmm_writeZmm]

/-- The vector registers of a state that an instruction without embedded rounding leaves. -/
theorem readZmm_completed (s : State) (d r : VReg) (v : Lanes) (mx : BitVec 32) (p : Addr) :
    readZmm { writeZmm s d v with mxcsr := mx, pc := p } r = if r = d then v else readZmm s r :=
  readZmm_writeZmm s d r v

/-- The vector registers of a state that an instruction with embedded rounding leaves. -/
theorem readZmm_completedEr (s : State) (d r : VReg) (v : Lanes) (p : Addr) :
    readZmm { writeZmm s d v with pc := p } r = if r = d then v else readZmm s r :=
  readZmm_writeZmm s d r v

@[simp] theorem readGpr_writeZmm (s : State) (r : VReg) (v : Lanes) (q : Gpr) :
    readGpr (writeZmm s r v) q = readGpr s q := rfl

@[simp] theorem readK_writeZmm (s : State) (r : VReg) (v : Lanes) (q : OpmaskNum) :
    readK (writeZmm s r v) q = readK s q := rfl

/-- An element of an assembled register. -/
@[simp] theorem lane_ofLanes (f : Nat → E64) (j : Nat) : lane (ofLanes f) j = if j < 8 then f j else 0#64 := by
  unfold lane ofLanes
  by_cases h : j < 8 <;> simp [h]

/-- Assembled registers are equal when their elements below 8 are. -/
theorem ofLanes_congr {f g : Nat → E64} (h : ∀ j, j < 8 → f j = g j) : ofLanes f = ofLanes g := by
  unfold ofLanes
  congr 1
  funext i
  exact h i.val i.isLt

end Sys2Proof.Machine
end

