-- ==== Sys2Proof/Laws/Fetch.lean ====
section
/-! SUPPORT. What fetching answers: the bytes that can be fetched, what stops it, and what the step makes of them; and that loading an
instruction puts its bytes where they are fetched. -/

namespace Sys2Proof.Machine

/-! ## Addresses of consecutive bytes -/

@[simp] theorem byteAddr_zero (a : Addr) : byteAddr a 0 = a := by simp [byteAddr]

theorem byteAddr_succ (a : Addr) (n : Nat) : byteAddr (a + 1#64) n = byteAddr a (n + 1) := by
  simp only [byteAddr, BitVec.ofNat_add, BitVec.add_assoc, BitVec.add_comm (BitVec.ofNat 64 n)]

/-- Offsets below `2^64` name different bytes. -/
theorem byteAddr_inj {a : Addr} {i j : Nat} (hi : i < 2 ^ 64) (hj : j < 2 ^ 64) (h : byteAddr a i = byteAddr a j) : i = j := by
  have h1 : BitVec.ofNat 64 i = BitVec.ofNat 64 j := by
    simpa [byteAddr] using h
  have h2 := congrArg BitVec.toNat h1
  rwa [BitVec.toNat_ofNat, BitVec.toNat_ofNat, Nat.mod_eq_of_lt hi, Nat.mod_eq_of_lt hj] at h2

/-! ## The fetch -/

/-- Bytes that can be fetched are fetched, and the fetch goes on after them. -/
theorem fetchFrom_of_ok (s : State) (bytes : List Byte) :
    ∀ (n : Nat) (a : Addr), (∀ (j : Nat) (h : j < bytes.length), fetchByte s (byteAddr a j) = .ok bytes[j]) →
      fetchFrom s (bytes.length + n) a =
        (bytes ++ (fetchFrom s n (byteAddr a bytes.length)).1, (fetchFrom s n (byteAddr a bytes.length)).2) := by
  induction bytes with
  | nil => intro n a _; simp
  | cons b bs ih =>
    intro n a h
    have h0 : fetchByte s a = .ok b := by
      have := h 0 (by simp)
      rwa [byteAddr_zero] at this
    have hs := ih n (a + 1#64) (fun j hj => by
      have := h (j + 1) (by simp; omega)
      simpa [byteAddr_succ] using this)
    have e : fetchFrom s (bs.length + n + 1) a =
        (b :: (fetchFrom s (bs.length + n) (a + 1#64)).1, (fetchFrom s (bs.length + n) (a + 1#64)).2) := by
      simp only [fetchFrom, h0]
    rw [List.length_cons, show bs.length + 1 + n = bs.length + n + 1 by omega, e, hs, byteAddr_succ, List.cons_append]

/-- The fetch window starts with the bytes that can be fetched. -/
theorem fetchWindow_of_fetches {s : State} {bytes : List Byte} (h : Fetches s bytes) (hl : bytes.length ≤ 15) :
    ∃ rest st, fetchWindow s = (bytes ++ rest, st) := by
  have := fetchFrom_of_ok s bytes (15 - bytes.length) (fetchBase s) h
  rw [show bytes.length + (15 - bytes.length) = maxInstrBytes by unfold maxInstrBytes; omega] at this
  exact ⟨_, _, this⟩

/-- With all 15 bytes fetched, nothing stopped the fetch. -/
theorem fetchWindow_full {s : State} {bytes : List Byte} (h : Fetches s bytes) (hl : bytes.length = 15) :
    fetchWindow s = (bytes, none) := by
  have := fetchFrom_of_ok s bytes 0 (fetchBase s) h
  rw [hl] at this
  simpa [fetchWindow, maxInstrBytes, fetchFrom] using this

/-- A byte that cannot be fetched ends the window. -/
theorem fetchWindow_stop {s : State} {bytes : List Byte} {st : ReadStop} (h : Fetches s bytes) (hl : bytes.length < 15)
    (hs : fetchByte s (byteAddr (fetchBase s) bytes.length) = .error st) : fetchWindow s = (bytes, some st) := by
  have := fetchFrom_of_ok s bytes (14 - bytes.length + 1) (fetchBase s) h
  rw [show bytes.length + (14 - bytes.length + 1) = maxInstrBytes by unfold maxInstrBytes; omega] at this
  simpa [fetchWindow, fetchFrom, hs] using this

/-- What stops the fetch of one byte (R198 d). -/
theorem fetchByte_nonCanonical {s : State} {a : Addr} (h : canonical s.cfg.law a = false) :
    fetchByte s a = .error (.exn .generalProtection) := by simp [fetchByte, h]

theorem fetchByte_pageFault {s : State} {a : Addr} {code : BitVec 32} (h : canonical s.cfg.law a = true)
    (ht : translate s .fetch a = .pageFault code) : fetchByte s a = .error (.exn (.pageFault code a)) := by
  simp [fetchByte, h, ht]

theorem fetchByte_device {s : State} {a : Addr} (h : canonical s.cfg.law a = true)
    (ht : translate s .fetch a = .device) : fetchByte s a = .error .device := by
  simp [fetchByte, h, ht]

theorem fetchByte_storage {s : State} {a : Addr} {p : Nat} (h : canonical s.cfg.law a = true)
    (ht : translate s .fetch a = .storage p) : fetchByte s a = .ok (Memory.read s.mem p) := by
  simp [fetchByte, h, ht]

/-! ## The step -/

/-- In a running state the step decodes what is fetched (R226). -/
theorem fetchInstr_of_running {s : State} (h : Running s) : fetchInstr s = decodeWindow s (fetchWindow s) := by
  simp [fetchInstr, h.noFault, h.notEnded, launch_eq_none h.toAdmitted h.in64]

/-- The step by what the fetched bytes are. -/
theorem step_of_running {s : State} (h : Running s) :
    step s = (match decode (fetchWindow s).1 with
      | .instr i => exec i s
      | .reserved => raise .invalidOpcode s
      | .outside => .refused .outsideFamily
      | .truncated =>
        match (fetchWindow s).2 with
        | some st => stopWith s st
        | none => raise .generalProtection s) := by
  unfold step
  rw [fetchInstr_of_running h]
  unfold decodeWindow
  cases decode (fetchWindow s).1 with
  | instr i => rfl
  | reserved => rfl
  | outside => rfl
  | truncated => cases (fetchWindow s).2 <;> rfl

/-- Bytes that are decided by themselves decide the step, whatever follows them. -/
theorem decode_fetchWindow {s : State} {bytes : List Byte} (h : Fetches s bytes) (hl : bytes.length ≤ 15)
    (hd : decode bytes ≠ .truncated) : decode (fetchWindow s).1 = decode bytes := by
  obtain ⟨rest, st, he⟩ := fetchWindow_of_fetches h hl
  rw [he]
  exact decode_append rest hd

/-! ## Loading -/

/-- What is placed is read back, and the rest of memory is as it was. -/
theorem read_placeBytes (vs : List Byte) :
    ∀ (m : Memory) (a : Addr), Memory.wf m = true → vs.length ≤ 2 ^ 64 →
      (∀ (j : Nat) (h : j < vs.length), Memory.read (placeBytes m a vs) (byteAddr a j).toNat = vs[j]) ∧
      (∀ b : Nat, (∀ j, j < vs.length → b ≠ (byteAddr a j).toNat) → Memory.read (placeBytes m a vs) b = Memory.read m b) := by
  induction vs with
  | nil => intro m a _ _; exact ⟨fun j h => absurd h (by simp), fun b _ => rfl⟩
  | cons v vs ih =>
    intro m a hm hl
    simp only [List.length_cons] at hl
    obtain ⟨h1, h2⟩ := ih (Memory.write m a.toNat v) (a + 1#64) (wf_write hm a.toNat v) (by omega)
    refine ⟨fun j hj => ?_, fun b hb => ?_⟩
    · cases j with
      | zero =>
        have := h2 a.toNat (fun j hj e => by
          rw [byteAddr_succ] at e
          have e' : byteAddr a 0 = byteAddr a (j + 1) := by
            rw [byteAddr_zero]; exact BitVec.eq_of_toNat_eq e
          have := byteAddr_inj (by omega) (by omega) e'
          omega)
        simp only [placeBytes, byteAddr_zero, List.getElem_cons_zero]
        rw [this, read_write hm, if_pos rfl]
      | succ j =>
        simp only [List.length_cons] at hj
        have := h1 j (by omega)
        rw [byteAddr_succ] at this
        simpa only [placeBytes, List.getElem_cons_succ] using this
    · have hb0 : b ≠ a.toNat := by simpa using hb 0 (by simp)
      have := h2 b (fun j hj => by
        rw [byteAddr_succ]
        exact hb (j + 1) (by simp; omega))
      simp only [placeBytes]
      rw [this, read_write hm, if_neg hb0]

/-- Translation depends on the table and the privilege level alone. -/
theorem translate_congr {s t : State} (hx : t.xlat = s.xlat) (hc : t.cpl = s.cpl) (acc : Access) (a : Addr) :
    translate t acc a = translate s acc a := by
  simp only [translate, hx, hc]

/-- With the fetch lines in front, the bytes are fetched from the storage of the same address. -/
theorem translate_fetchLines (s : State) (n : Nat) :
    ∀ (a : Addr) (j : Nat), j < n → s.xlat = fetchLines n a ++ (s.xlat.drop n) → n ≤ 2 ^ 64 →
      translate s .fetch (byteAddr a j) = .storage (byteAddr a j).toNat := by
  have key : ∀ (n : Nat) (a : Addr) (j : Nat) (tail : List XlatRule), j < n → n ≤ 2 ^ 64 →
      (fetchLines n a ++ tail).find? (fun r => r.applies .fetch s.cpl (byteAddr a j)) =
        some { base := (byteAddr a j).toNat, size := 1, access := some .fetch, level := none,
               outcome := .storage (byteAddr a j).toNat } := by
    intro n
    induction n with
    | zero => intro a j tail hj; omega
    | succ n ih =>
      intro a j tail hj hn
      cases j with
      | zero =>
        simp [fetchLines, XlatRule.applies]
      | succ j =>
        have hne : ¬ ((byteAddr a (j + 1)).toNat = a.toNat) := by
          intro e
          have e' : byteAddr a (j + 1) = byteAddr a 0 := by rw [byteAddr_zero]; exact BitVec.eq_of_toNat_eq e
          have := byteAddr_inj (by omega) (by omega) e'
          omega
        have hno : XlatRule.applies ⟨a.toNat, 1, some .fetch, none, .storage a.toNat⟩ .fetch s.cpl (byteAddr a (j + 1)) =
            false := by
          by_cases hlt : a.toNat ≤ (byteAddr a (j + 1)).toNat
          · have : ¬ (byteAddr a (j + 1)).toNat < a.toNat + 1 := by omega
            simp [XlatRule.applies, this]
          · simp [XlatRule.applies, hlt]
        rw [fetchLines, List.cons_append, List.find?_cons_of_neg (by simp [hno]), ← byteAddr_succ]
        exact ih (a + 1#64) j tail (by omega) (by omega)
  intro a j hj hx hn
  unfold translate
  rw [hx, key n a j _ hj hn]
  simp

/-- Where the fetch already is in place, it is so at each byte. -/
theorem translate_of_fetchesInPlace (s : State) (n : Nat) :
    ∀ (a : Addr), fetchesInPlace s n a = true → ∀ j, j < n → translate s .fetch (byteAddr a j) = .storage (byteAddr a j).toNat := by
  induction n with
  | zero => intro a _ j hj; omega
  | succ n ih =>
    intro a h j hj
    simp only [fetchesInPlace, Bool.and_eq_true, beq_iff_eq] at h
    cases j with
    | zero => simpa using h.1
    | succ j =>
      have := ih (a + 1#64) h.2 j (by omega)
      simpa only [byteAddr_succ] using this

theorem length_fetchLines (n : Nat) : ∀ a : Addr, (fetchLines n a).length = n := by
  induction n with
  | zero => intro a; rfl
  | succ n ih => intro a; simp [fetchLines, ih]

@[simp] theorem fetchBase_placeAtFetch (s : State) (bytes : List Byte) : fetchBase (placeAtFetch s bytes) = fetchBase s := rfl

/-- Placed bytes are fetched where the next step looks for its instruction. -/
theorem fetches_placeAtFetch {s : State} {bytes : List Byte} (hm : Memory.wf s.mem = true) (hl : bytes.length ≤ 2 ^ 64)
    (hc : ∀ j, j < bytes.length → canonical s.cfg.law (byteAddr (fetchBase s) j) = true) :
    Fetches (placeAtFetch s bytes) bytes := by
  intro j hj
  have ht : translate (placeAtFetch s bytes) .fetch (byteAddr (fetchBase s) j) = .storage (byteAddr (fetchBase s) j).toNat := by
    by_cases hp : fetchesInPlace s bytes.length (fetchBase s) = true
    · rw [translate_congr (t := placeAtFetch s bytes) (s := s) (by simp [placeAtFetch, hp]) rfl]
      exact translate_of_fetchesInPlace s _ _ hp j hj
    · refine translate_fetchLines _ bytes.length (fetchBase s) j hj ?_ hl
      simp [placeAtFetch, hp, length_fetchLines]
  rw [fetchBase_placeAtFetch, fetchByte_storage (by simpa using hc j hj) ht]
  exact congrArg Except.ok ((read_placeBytes bytes s.mem (fetchBase s) hm hl).1 j hj)

/-- A state with an instruction placed runs on, when it was admitted in 64-bit mode. -/
theorem running_placeAtFetch {s : State} (h : Admitted s) (hm : s.mode = .mode64) (bytes : List Byte) :
    Running (placeAtFetch s bytes) where
  mode := h.mode
  reserved := h.reserved
  noTrap := h.noTrap
  in64 := hm
  noFault := rfl
  notEnded := by
    simp only [placeAtFetch]
    split
    · simp
    · assumption

/-- The launch state meets the premises of a step, whatever the state was. -/
theorem admitted_launchState (s : State) : Admitted (launchState s) where
  mode := .inl rfl
  reserved := by
    rw [launchState_mxcsr, BitVec.eq_of_getLsbD_eq_iff]
    intro i hi
    have : ∀ i, i < 16 → (0xFFFF#32).getLsbD (16 + i) = false := by decide
    simp [BitVec.getLsbD_extractLsb', this i hi]
  noTrap := by simp [launchState]

end Sys2Proof.Machine
end

