-- ==== Sys2Proof/Laws/Fma.lean ====
section
/-! SUPPORT. The format, the exact value and the rounding of the element function: fields and classes of an element, values as multiples
of the unit `2^-2148`, bounds of a rounded magnitude, and the two encodings read back. -/

namespace Sys2Proof.Machine

/-! ## Fields and classes -/

theorem expOf_lt (w : E64) : expOf w < 2048 := (w.extractLsb' 52 11).isLt
theorem fracOf_lt (w : E64) : fracOf w < 2 ^ 52 := (w.extractLsb' 0 52).isLt

theorem expOf_eq (w : E64) : expOf w = w.toNat / 2 ^ 52 % 2048 := by
  simp [expOf, BitVec.extractLsb'_toNat, Nat.shiftRight_eq_div_pow]

theorem fracOf_eq (w : E64) : fracOf w = w.toNat % 2 ^ 52 := by
  simp [fracOf, BitVec.extractLsb'_toNat]

theorem signOf_eq (w : E64) : signOf w = decide (2 ^ 63 ≤ w.toNat) := by
  simp only [signOf]
  rw [BitVec.getLsbD, Nat.testBit_eq_decide_div_mod_eq]
  have := w.isLt
  by_cases h : 2 ^ 63 ≤ w.toNat <;> simp only [h, decide_true, decide_false, decide_eq_true_eq, decide_eq_false_iff_not] <;> omega

/-- The magnitude bits of an element. -/
theorem low63_eq (w : E64) : (w.extractLsb' 0 63).toNat = expOf w * 2 ^ 52 + fracOf w := by
  rw [expOf_eq, fracOf_eq, BitVec.extractLsb'_toNat]
  simp only [Nat.shiftRight_zero]
  omega

theorem toNat_withSign (neg : Bool) (l : BitVec 63) : (withSign neg l).toNat = (if neg then 2 ^ 63 else 0) + l.toNat := by
  have := l.isLt
  unfold withSign
  rw [BitVec.toNat_append, BitVec.toNat_ofBool, ← Nat.shiftLeft_add_eq_or_of_lt l.isLt, Nat.shiftLeft_eq]
  cases neg <;> simp

@[simp] theorem signOf_withSign (neg : Bool) (l : BitVec 63) : signOf (withSign neg l) = neg := by
  have := l.isLt
  rw [signOf_eq, toNat_withSign]
  cases neg <;> simp <;> omega

@[simp] theorem expOf_withSign (neg : Bool) (l : BitVec 63) : expOf (withSign neg l) = l.toNat / 2 ^ 52 := by
  have := l.isLt
  rw [expOf_eq, toNat_withSign]
  cases neg <;> simp <;> omega

@[simp] theorem fracOf_withSign (neg : Bool) (l : BitVec 63) : fracOf (withSign neg l) = l.toNat % 2 ^ 52 := by
  rw [fracOf_eq, toNat_withSign]
  cases neg
  · simp
  · simp only [if_true]
    omega

/-- An element is its sign and its magnitude bits. -/
theorem eq_of_fields {v w : E64} (hs : signOf v = signOf w) (he : expOf v = expOf w) (hf : fracOf v = fracOf w) : v = w := by
  rw [signOf_eq, signOf_eq] at hs
  rw [expOf_eq, expOf_eq] at he
  rw [fracOf_eq, fracOf_eq] at hf
  have := v.isLt
  have := w.isLt
  have h2 : (2 ^ 63 ≤ v.toNat) ↔ (2 ^ 63 ≤ w.toNat) := by simpa using hs
  refine BitVec.eq_of_toNat_eq ?_
  by_cases h : 2 ^ 63 ≤ v.toNat
  · have := h2.mp h; omega
  · have : ¬ 2 ^ 63 ≤ w.toNat := fun h' => h (h2.mpr h'); omega

theorem isFinite_iff (w : E64) : isFinite w = true ↔ expOf w ≠ 2047 := by
  unfold isFinite classOf
  by_cases h0 : expOf w = 0
  · by_cases hf : fracOf w = 0 <;> simp [h0, hf]
  · by_cases h1 : expOf w = 2047
    · by_cases hf : fracOf w = 0
      · simp [h1, hf]
      · cases h : w.getLsbD 51 <;> simp [h1, hf]
    · simp [h0, h1]

theorem isNaN_iff (w : E64) : isNaN w = true ↔ expOf w = 2047 ∧ fracOf w ≠ 0 := by
  unfold isNaN classOf
  by_cases h0 : expOf w = 0
  · by_cases hf : fracOf w = 0 <;> simp [h0, hf]
  · by_cases h1 : expOf w = 2047
    · by_cases hf : fracOf w = 0
      · simp [h1, hf]
      · cases h : w.getLsbD 51 <;> simp [h1, hf]
    · simp [h0, h1]

theorem classOf_infinity_iff (w : E64) : classOf w = .infinity ↔ expOf w = 2047 ∧ fracOf w = 0 := by
  unfold classOf
  by_cases h0 : expOf w = 0
  · by_cases hf : fracOf w = 0 <;> simp [h0, hf]
  · by_cases h1 : expOf w = 2047
    · by_cases hf : fracOf w = 0
      · simp [h1, hf]
      · cases h : w.getLsbD 51 <;> simp [h1, hf]
    · simp [h0, h1]

theorem classOf_zero_iff (w : E64) : classOf w = .zero ↔ expOf w = 0 ∧ fracOf w = 0 := by
  unfold classOf
  by_cases h0 : expOf w = 0
  · by_cases hf : fracOf w = 0 <;> simp [h0, hf]
  · by_cases h1 : expOf w = 2047
    · by_cases hf : fracOf w = 0
      · simp [h1, hf]
      · cases h : w.getLsbD 51 <;> simp [h1, hf]
    · simp [h0, h1]

theorem classOf_normal_iff (w : E64) : classOf w = .normal ↔ expOf w ≠ 0 ∧ expOf w ≠ 2047 := by
  unfold classOf
  by_cases h0 : expOf w = 0
  · by_cases hf : fracOf w = 0 <;> simp [h0, hf]
  · by_cases h1 : expOf w = 2047
    · by_cases hf : fracOf w = 0
      · simp [h1, hf]
      · cases h : w.getLsbD 51 <;> simp [h1, hf]
    · simp [h0, h1]

theorem isNaN_of_isFinite {w : E64} (h : isFinite w = true) : isNaN w = false := by
  rw [isFinite_iff] at h
  have := isNaN_iff w
  cases hn : isNaN w with
  | false => rfl
  | true => exact absurd (this.mp hn).1 h

theorem ne_infinity_of_isFinite {w : E64} (h : isFinite w = true) : classOf w ≠ .infinity := by
  rw [isFinite_iff] at h
  exact fun hc => h ((classOf_infinity_iff w).mp hc).1

/-! ## Values in units -/

/-- The value of a finite element in units of `2^-1074` (R122). -/
theorem realVal_eq (w : E64) : realVal w = (valUnits w : ℚ) * 2 ^ (-1074 : ℤ) := by
  have h2 : (2 : ℚ) ≠ 0 := by norm_num
  have hm : (if expOf w = 0 then (fracOf w : ℚ) * 2 ^ (-1074 : ℤ)
     else ((2 ^ 52 + fracOf w : ℕ) : ℚ) * 2 ^ ((expOf w : ℤ) - 1075)) = (magUnits w : ℚ) * 2 ^ (-1074 : ℤ) := by
    unfold magUnits
    split
    · rfl
    · rename_i h
      have e : (expOf w : ℤ) - 1075 = ((expOf w - 1 : ℕ) : ℤ) + (-1074) := by omega
      rw [e, zpow_add₀ h2, zpow_natCast]
      push_cast
      ring
  unfold realVal valUnits
  rw [hm]
  split <;> simp

/-- The exact intermediate value in units of `2^-2148` (R131). -/
theorem exactVal_units (x y z : E64) : exactVal x y z = (exactUnits x y z : ℚ) * 2 ^ (-2148 : ℤ) := by
  have h2 : (2 : ℚ) ≠ 0 := by norm_num
  unfold exactVal exactUnits
  rw [realVal_eq, realVal_eq, realVal_eq]
  have e : (2 : ℚ) ^ (-2148 : ℤ) = 2 ^ (-1074 : ℤ) * 2 ^ (-1074 : ℤ) := by
    rw [← zpow_add₀ h2]; norm_num
  have e2 : (2 : ℚ) ^ (1074 : ℕ) * 2 ^ (-1074 : ℤ) = 1 := by
    rw [← zpow_natCast, ← zpow_add₀ h2]; norm_num
  push_cast
  rw [e]
  calc _ = (valUnits x : ℚ) * valUnits y * (2 ^ (-1074 : ℤ) * 2 ^ (-1074 : ℤ)) + valUnits z * 1 * 2 ^ (-1074 : ℤ) := by ring
    _ = (valUnits x : ℚ) * valUnits y * (2 ^ (-1074 : ℤ) * 2 ^ (-1074 : ℤ)) +
        valUnits z * (2 ^ (1074 : ℕ) * 2 ^ (-1074 : ℤ)) * 2 ^ (-1074 : ℤ) := by rw [e2]
    _ = _ := by ring

/-- The unit is positive. -/
theorem unit_pos : (0 : ℚ) < 2 ^ (-2148 : ℤ) := by positivity

theorem exactVal_eq_zero_iff (x y z : E64) : exactVal x y z = 0 ↔ exactUnits x y z = 0 := by
  rw [exactVal_units, mul_eq_zero]
  constructor
  · rintro (h | h)
    · exact_mod_cast h
    · exact absurd h (ne_of_gt unit_pos)
  · intro h; left; rw [h]; rfl

theorem exactVal_neg_iff (x y z : E64) : exactVal x y z < 0 ↔ exactUnits x y z < 0 := by
  rw [exactVal_units]
  constructor
  · intro h
    by_contra hc
    have : (0 : ℚ) ≤ exactUnits x y z := by exact_mod_cast not_lt.mp hc
    exact absurd h (not_lt.mpr (mul_nonneg this unit_pos.le))
  · intro h
    have : (exactUnits x y z : ℚ) < 0 := by exact_mod_cast h
    exact mul_neg_of_neg_of_pos this unit_pos

theorem abs_exactVal (x y z : E64) : |exactVal x y z| = ((exactUnits x y z).natAbs : ℚ) * 2 ^ (-2148 : ℤ) := by
  rw [exactVal_units, abs_mul, abs_of_pos unit_pos, Nat.cast_natAbs]
  push_cast
  rfl

/-! ## Rounding a magnitude -/

/-- A rounded index is one of the two neighbours (R133). -/
theorem roundIndex_cases (rc : RoundingMode) (neg : Bool) (g a : Nat) :
    roundIndex rc neg g a = a / 2 ^ g ∨ (a % 2 ^ g ≠ 0 ∧ roundIndex rc neg g a = a / 2 ^ g + 1) := by
  unfold roundIndex
  by_cases h : a % 2 ^ g = 0
  · left; simp [h]
  · by_cases h' : roundsAway rc neg (a / 2 ^ g % 2 == 1) g (a % 2 ^ g) = true
    · right; exact ⟨h, by simp [h, h']⟩
    · left; simp [h']

/-- A multiple of `2^g` is not moved (R133). -/
theorem roundIndex_exact (rc : RoundingMode) (neg : Bool) (g a : Nat) (h : a % 2 ^ g = 0) :
    roundIndex rc neg g a = a / 2 ^ g := by
  rcases roundIndex_cases rc neg g a with e | ⟨e, _⟩
  · exact e
  · exact absurd h e

theorem roundMag_exact (rc : RoundingMode) (neg : Bool) (g a : Nat) (h : a % 2 ^ g = 0) : roundMag rc neg g a = a := by
  unfold roundMag
  rw [roundIndex_exact rc neg g a h]
  exact Nat.div_mul_cancel (Nat.dvd_of_mod_eq_zero h)

/-- A rounded magnitude lies within one step of the magnitude, on the side the mode says (R133). -/
theorem roundMag_bounds (rc : RoundingMode) (neg : Bool) (g a : Nat) :
    a / 2 ^ g * 2 ^ g ≤ roundMag rc neg g a ∧ roundMag rc neg g a ≤ (a / 2 ^ g + 1) * 2 ^ g := by
  unfold roundMag
  constructor <;> refine Nat.mul_le_mul_right _ ?_ <;> rcases roundIndex_cases rc neg g a with e | ⟨_, e⟩ <;> omega

theorem roundMag_mod (rc : RoundingMode) (neg : Bool) (g a : Nat) : roundMag rc neg g a % 2 ^ g = 0 := by
  unfold roundMag; exact Nat.mul_mod_left _ _

/-- Rounding does not reverse an order: a larger magnitude is not rounded below a smaller one. -/
theorem roundIndex_mono (rc : RoundingMode) (neg : Bool) (g : Nat) {a b : Nat} (h : a ≤ b) :
    roundIndex rc neg g a ≤ roundIndex rc neg g b := by
  have hd : a / 2 ^ g ≤ b / 2 ^ g := Nat.div_le_div_right h
  rcases Nat.lt_or_eq_of_le hd with hlt | heq
  · rcases roundIndex_cases rc neg g a with ea | ⟨_, ea⟩ <;> rcases roundIndex_cases rc neg g b with eb | ⟨_, eb⟩ <;> omega
  · have hr : a % 2 ^ g ≤ b % 2 ^ g := by
      have h1 := Nat.div_add_mod a (2 ^ g)
      have h2 := Nat.div_add_mod b (2 ^ g)
      rw [heq] at h1
      omega
    unfold roundIndex
    simp only [heq]
    by_cases ha : a % 2 ^ g = 0
    · simp [ha]; split <;> omega
    · have hb : b % 2 ^ g ≠ 0 := by omega
      have key : roundsAway rc neg (b / 2 ^ g % 2 == 1) g (a % 2 ^ g) = true →
          roundsAway rc neg (b / 2 ^ g % 2 == 1) g (b % 2 ^ g) = true := by
        unfold roundsAway
        cases rc
        · simp only [Bool.or_eq_true, decide_eq_true_eq, Bool.and_eq_true]
          rintro (h1 | ⟨h1, h2⟩)
          · left; omega
          · by_cases h3 : 2 * (b % 2 ^ g) = 2 ^ g
            · right; exact ⟨h3, h2⟩
            · left; omega
        all_goals exact id
      by_cases hk : roundsAway rc neg (b / 2 ^ g % 2 == 1) g (a % 2 ^ g) = true
      · simp [hk, key hk, hb, ha]
      · simp [hk]; split <;> omega

theorem roundMag_mono (rc : RoundingMode) (neg : Bool) (g : Nat) {a b : Nat} (h : a ≤ b) :
    roundMag rc neg g a ≤ roundMag rc neg g b := Nat.mul_le_mul_right _ (roundIndex_mono rc neg g h)

/-- The binade of a rounding to 53 bits (R133): the result has 53 significant bits and stays within the binade or at its end. -/
theorem roundUnbounded_binade (rc : RoundingMode) (neg : Bool) {a : Nat} (h : a ≠ 0) :
    2 ^ Nat.log2 a ≤ roundUnbounded rc neg a ∧ roundUnbounded rc neg a ≤ 2 ^ (Nat.log2 a + 1) ∧
      roundUnbounded rc neg a % 2 ^ (Nat.log2 a - 52) = 0 := by
  have h1 : 2 ^ Nat.log2 a ≤ a := Nat.log2_self_le h
  have h2 : a < 2 ^ (Nat.log2 a + 1) := Nat.lt_log2_self
  refine ⟨?_, ?_, roundMag_mod _ _ _ _⟩
  · have : roundMag rc neg (Nat.log2 a - 52) (2 ^ Nat.log2 a) = 2 ^ Nat.log2 a :=
      roundMag_exact _ _ _ _ (Nat.mod_eq_zero_of_dvd (Nat.pow_dvd_pow 2 (by omega)))
    calc 2 ^ Nat.log2 a = roundMag rc neg (Nat.log2 a - 52) (2 ^ Nat.log2 a) := this.symm
      _ ≤ roundMag rc neg (Nat.log2 a - 52) a := roundMag_mono _ _ _ h1
  · have : roundMag rc neg (Nat.log2 a - 52) (2 ^ (Nat.log2 a + 1)) = 2 ^ (Nat.log2 a + 1) :=
      roundMag_exact _ _ _ _ (Nat.mod_eq_zero_of_dvd (Nat.pow_dvd_pow 2 (by omega)))
    calc roundMag rc neg (Nat.log2 a - 52) a ≤ roundMag rc neg (Nat.log2 a - 52) (2 ^ (Nat.log2 a + 1)) :=
        roundMag_mono _ _ _ (by omega)
      _ = _ := this

/-- A magnitude of at most 53 significant bits is not moved (R133). -/
theorem roundUnbounded_exact (rc : RoundingMode) (neg : Bool) {a : Nat} (h : a % 2 ^ (Nat.log2 a - 52) = 0) :
    roundUnbounded rc neg a = a := roundMag_exact _ _ _ _ h

theorem log2_mono {a b : Nat} (ha : a ≠ 0) (h : a ≤ b) : Nat.log2 a ≤ Nat.log2 b := by
  have hb : b ≠ 0 := by omega
  rw [Nat.le_log2 hb]
  exact le_trans (Nat.log2_self_le ha) h

theorem roundUnbounded_mono (rc : RoundingMode) (neg : Bool) {a b : Nat} (ha : a ≠ 0) (h : a ≤ b) :
    roundUnbounded rc neg a ≤ roundUnbounded rc neg b := by
  have hb : b ≠ 0 := by omega
  rcases Nat.lt_or_eq_of_le (log2_mono ha h) with hlt | heq
  · calc roundUnbounded rc neg a ≤ 2 ^ (Nat.log2 a + 1) := (roundUnbounded_binade rc neg ha).2.1
      _ ≤ 2 ^ Nat.log2 b := Nat.pow_le_pow_right (by omega) hlt
      _ ≤ _ := (roundUnbounded_binade rc neg hb).1
  · unfold roundUnbounded
    rw [heq]
    exact roundMag_mono _ _ _ h

/-! ## Reading the encodings back -/

theorem log2_eq_of_bounds {u n : Nat} (h1 : 2 ^ n ≤ u) (h2 : u < 2 ^ (n + 1)) : Nat.log2 u = n := by
  have hu : u ≠ 0 := by have : 0 < 2 ^ n := Nat.pos_of_ne_zero (by simp); omega
  have a : n ≤ Nat.log2 u := (Nat.le_log2 hu).mpr h1
  have b : Nat.log2 u < n + 1 := (Nat.log2_lt hu).mpr h2
  omega

/-- The normal encoding is a normal number of the value that was encoded (R122, R137). -/
theorem encodeNormal_spec (neg : Bool) {u : Nat} (h1 : tinyUnits ≤ u) (h2 : u < overflowUnits)
    (hd : u % 2 ^ (Nat.log2 u - 52) = 0) :
    signOf (encodeNormal neg u) = neg ∧ classOf (encodeNormal neg u) = .normal ∧
      magUnits (encodeNormal neg u) * 2 ^ 1074 = u := by
  have hu : u ≠ 0 := by
    have : 0 < tinyUnits := Nat.two_pow_pos _
    omega
  have hl1 : 1126 ≤ Nat.log2 u := (Nat.le_log2 hu).mpr h1
  have hl2 : Nat.log2 u < 3172 := (Nat.log2_lt hu).mpr h2
  set L := Nat.log2 u with hL
  have b1 : 2 ^ L ≤ u := Nat.log2_self_le hu
  have b2 : u < 2 ^ (L + 1) := Nat.lt_log2_self
  set m := u / 2 ^ (L - 52) with hm
  have hum : u = m * 2 ^ (L - 52) := (Nat.div_mul_cancel (Nat.dvd_of_mod_eq_zero hd)).symm
  have hp : 0 < 2 ^ (L - 52) := by positivity
  have m1 : 2 ^ 52 ≤ m := by
    refine (Nat.le_div_iff_mul_le hp).mpr ?_
    rw [← pow_add, show 52 + (L - 52) = L by omega]; exact b1
  have m2 : m < 2 ^ 53 := by
    refine (Nat.div_lt_iff_lt_mul hp).mpr ?_
    rw [← pow_add, show 53 + (L - 52) = L + 1 by omega]; exact b2
  have hcode : (BitVec.ofNat 63 ((L - 1126) * 2 ^ 52 + m)).toNat = (L - 1126) * 2 ^ 52 + m := by
    rw [BitVec.toNat_ofNat, Nat.mod_eq_of_lt]
    omega
  have he : expOf (encodeNormal neg u) = L - 1125 := by
    unfold encodeNormal
    rw [expOf_withSign, ← hL, ← hm, hcode]
    omega
  have hf : fracOf (encodeNormal neg u) = m - 2 ^ 52 := by
    unfold encodeNormal
    rw [fracOf_withSign, ← hL, ← hm, hcode]
    omega
  refine ⟨by unfold encodeNormal; rw [signOf_withSign], ?_, ?_⟩
  · rw [classOf_normal_iff, he]; omega
  · unfold magUnits
    rw [he, hf, if_neg (by omega), show 2 ^ 52 + (m - 2 ^ 52) = m by omega, mul_assoc, ← pow_add,
      show L - 1125 - 1 + 1074 = L - 52 by omega, ← hum]

/-- The denormal encoding is a finite element of the value that was encoded (R122, R135 c). -/
theorem encodeDenormal_spec (neg : Bool) {u : Nat} (h : u ≤ tinyUnits) (hd : u % 2 ^ 1074 = 0) :
    signOf (encodeDenormal neg u) = neg ∧ isFinite (encodeDenormal neg u) = true ∧
      magUnits (encodeDenormal neg u) * 2 ^ 1074 = u := by
  set k := u / 2 ^ 1074 with hk
  have huk : u = k * 2 ^ 1074 := (Nat.div_mul_cancel (Nat.dvd_of_mod_eq_zero hd)).symm
  have k1 : k ≤ 2 ^ 52 := by
    refine Nat.div_le_of_le_mul ?_
    rw [← pow_add]; exact h
  have hcode : (BitVec.ofNat 63 k).toNat = k := by
    rw [BitVec.toNat_ofNat, Nat.mod_eq_of_lt]; omega
  have he : expOf (encodeDenormal neg u) = k / 2 ^ 52 := by
    unfold encodeDenormal; rw [expOf_withSign, ← hk, hcode]
  have hf : fracOf (encodeDenormal neg u) = k % 2 ^ 52 := by
    unfold encodeDenormal; rw [fracOf_withSign, ← hk, hcode]
  refine ⟨by unfold encodeDenormal; rw [signOf_withSign], ?_, ?_⟩
  · rw [isFinite_iff, he]; omega
  · unfold magUnits
    rw [he, hf]
    rcases Nat.lt_or_eq_of_le k1 with hlt | heq
    · rw [if_pos (Nat.div_eq_of_lt hlt), Nat.mod_eq_of_lt hlt, ← huk]
    · rw [heq, if_neg (by norm_num), huk, heq]; norm_num

/-- The magnitude bits order finite elements as their magnitudes do (R122). -/
theorem magUnits_lt_iff (v w : E64) : magUnits v < magUnits w ↔ expOf v * 2 ^ 52 + fracOf v < expOf w * 2 ^ 52 + fracOf w := by
  have key : ∀ v w : E64, expOf v * 2 ^ 52 + fracOf v < expOf w * 2 ^ 52 + fracOf w → magUnits v < magUnits w := by
    intro v w h
    have fv := fracOf_lt v
    have fw := fracOf_lt w
    unfold magUnits
    by_cases hv : expOf v = 0
    · by_cases hw : expOf w = 0
      · simp only [hv, hw, if_true]; omega
      · rw [if_pos hv, if_neg hw]
        calc fracOf v < 2 ^ 52 := fv
          _ ≤ 2 ^ 52 + fracOf w := by omega
          _ ≤ _ := Nat.le_mul_of_pos_right _ (by positivity)
    · have hw : expOf w ≠ 0 := by omega
      rw [if_neg hv, if_neg hw]
      rcases Nat.lt_trichotomy (expOf v) (expOf w) with hlt | heq | hgt
      · calc (2 ^ 52 + fracOf v) * 2 ^ (expOf v - 1) < 2 ^ 53 * 2 ^ (expOf v - 1) :=
            Nat.mul_lt_mul_of_pos_right (by omega) (by positivity)
          _ = 2 ^ 52 * 2 ^ (expOf v) := by
            rw [← pow_add, ← pow_add]; congr 1; omega
          _ ≤ 2 ^ 52 * 2 ^ (expOf w - 1) := Nat.mul_le_mul_left _ (Nat.pow_le_pow_right (by omega) (by omega))
          _ ≤ _ := Nat.mul_le_mul_right _ (by omega)
      · rw [heq]
        exact Nat.mul_lt_mul_of_pos_right (by omega) (by positivity)
      · omega
  refine ⟨fun h => ?_, key v w⟩
  by_contra hc
  rcases Nat.lt_or_eq_of_le (not_lt.mp hc) with hlt | heq
  · exact absurd (key w v hlt) (by omega)
  · have fv := fracOf_lt v
    have fw := fracOf_lt w
    have he : expOf v = expOf w := by omega
    have hf : fracOf v = fracOf w := by omega
    unfold magUnits at h
    rw [he, hf] at h
    omega

/-! ## The element function on finite operands -/

/-- Without denormals-are-zero and with finite operands the cases come down to rounding the exact value (R124). -/
theorem fma64_finite {p : FpControl} {x y z : E64} (hd : p.daz = false) (hx : isFinite x = true) (hy : isFinite y = true)
    (hz : isFinite z = true) :
    fma64 p x y z = ⟨(fmaFinite p x y z).1, ⟨false, someDenormal x y z⟩, (fmaFinite p x y z).2⟩ := by
  have ix := ne_infinity_of_isFinite hx
  have iy := ne_infinity_of_isFinite hy
  have iz := ne_infinity_of_isFinite hz
  have e : ∀ w : E64, dazOperand p.daz w = w := by intro w; simp [dazOperand, hd]
  unfold fma64
  simp only [e]
  unfold fmaCases
  simp [isNaN_of_isFinite hx, isNaN_of_isFinite hy, isNaN_of_isFinite hz, invalidOp, infTimesZero, infMinusInf, ix, iy, iz]

/-- With a nonzero exact value it is rounded (R133 to R137). -/
theorem fma64_nonzero {p : FpControl} {x y z : E64} (hd : p.daz = false) (hx : isFinite x = true) (hy : isFinite y = true)
    (hz : isFinite z = true) (he : exactVal x y z ≠ 0) :
    fma64 p x y z =
      ⟨(roundNonzero p (decide (exactVal x y z < 0)) (exactUnits x y z).natAbs).1, ⟨false, someDenormal x y z⟩,
        (roundNonzero p (decide (exactVal x y z < 0)) (exactUnits x y z).natAbs).2⟩ := by
  have h0 : exactUnits x y z ≠ 0 := fun h => he ((exactVal_eq_zero_iff x y z).mpr h)
  rw [fma64_finite hd hx hy hz]
  unfold fmaFinite
  simp only [if_neg h0, exactVal_neg_iff]

/-! ## The modes in reals -/

/-- The machine's rounding of a magnitude is the mode's choice between its two neighbours (R133). -/
theorem chosenMagnitude_eq (rc : RoundingMode) (g a : Nat) (q : ℤ) (e u : ℚ) (hu : 0 < u) (he : |e| = a * u)
    (hq : (2 : ℚ) ^ q = 2 ^ g * u) :
    chosenMagnitude rc (a / 2 ^ g) q e = (roundMag rc (decide (e < 0)) g a : ℚ) * u := by
  have hdm : (a : ℚ) = (a / 2 ^ g : ℕ) * 2 ^ g + (a % 2 ^ g : ℕ) := by
    have := Nat.div_add_mod a (2 ^ g)
    rw [mul_comm] at this
    exact_mod_cast this.symm
  set n := a / 2 ^ g with hn
  set r := a % 2 ^ g with hr
  have hrl : r < 2 ^ g := Nat.mod_lt _ (by positivity)
  have lo : (n : ℚ) * 2 ^ q = (n * 2 ^ g : ℕ) * u := by rw [hq]; push_cast; ring
  have hi : ((n : ℚ) + 1) * 2 ^ q = ((n + 1) * 2 ^ g : ℕ) * u := by rw [hq]; push_cast; ring
  have hlo : |e| - (n : ℚ) * 2 ^ q = r * u := by rw [he, hdm, lo]; push_cast; ring
  have hhi : ((n : ℚ) + 1) * 2 ^ q - |e| = ((2 ^ g - r : ℕ) : ℚ) * u := by
    rw [he, hdm, hi, Nat.cast_sub hrl.le]; push_cast; ring
  have heq : |e| = (n : ℚ) * 2 ^ q ↔ r = 0 := by
    constructor
    · intro h
      have h0 : (r : ℚ) * u = 0 := by rw [← hlo, h, sub_self]
      rcases mul_eq_zero.mp h0 with h1 | h1
      · exact_mod_cast h1
      · exact absurd h1 (ne_of_gt hu)
    · intro h
      have : |e| - (n : ℚ) * 2 ^ q = 0 := by rw [hlo, h]; simp
      linarith
  have hc1 : |e| - (n : ℚ) * 2 ^ q < ((n : ℚ) + 1) * 2 ^ q - |e| ↔ 2 * r < 2 ^ g := by
    rw [hlo, hhi, mul_lt_mul_iff_left₀ hu]
    norm_cast
    omega
  have hc2 : ((n : ℚ) + 1) * 2 ^ q - |e| < |e| - (n : ℚ) * 2 ^ q ↔ 2 ^ g < 2 * r := by
    rw [hlo, hhi, mul_lt_mul_iff_left₀ hu]
    norm_cast
    omega
  unfold chosenMagnitude roundMag roundIndex
  simp only [← hn, ← hr, heq, hc1, hc2]
  by_cases h0 : r = 0
  · simp only [h0, if_true, ne_eq, not_true_eq_false, decide_false, Bool.false_and, Bool.false_eq_true, if_false]
    exact lo
  · simp only [h0, if_false, ne_eq, not_false_eq_true, decide_true, Bool.true_and, lo, hi]
    unfold roundsAway
    cases rc
    · simp only
      by_cases a1 : 2 * r < 2 ^ g
      · have b1 : ¬ 2 ^ g < 2 * r := by omega
        have b2 : ¬ 2 * r = 2 ^ g := by omega
        simp [a1, b1, b2]
      · by_cases a2 : 2 ^ g < 2 * r
        · simp [a1, a2]
        · have b2 : 2 * r = 2 ^ g := by omega
          by_cases h2 : n % 2 = 0
          · simp [b2, h2]
          · have : n % 2 = 1 := by omega
            simp [b2, this]
    · by_cases hneg : e < 0 <;> simp [hneg]
    · by_cases hneg : e < 0 <;> simp [hneg]
    · simp

end Sys2Proof.Machine
end

