-- ==== Sys2Proof/Laws/PerInstr.lean ====
section
/-! SUPPORT. Statements made of every instruction as syntax, one lemma per constructor: the encoding of an instruction has the length
that the machine adds to `pc` (R95). -/

namespace Sys2Proof

theorem length_encodeVex (k : Kind) (w : VexLen) (pfx : List LegacyPrefix) (d v : BitVec 4) (r : VexSrc3) :
    (encodeVex k w pfx d v r).length = vexSize pfx r := by
  cases r with
  | reg r => simp [encodeVex, vexSize, regFields]
  | mem m => simp [encodeVex, vexSize, length_memFields_tail]; omega

theorem length_encodeEvexFields (k : Kind) (ll : BitVec 2) (b : BitVec 1) (pfx : List LegacyPrefix) (mk : Masking)
    (d v : VReg) (f : MemFields) : (encodeEvexFields k ll b pfx mk d v f).length = pfx.length + 4 + 2 + f.tail.length := by
  simp [encodeEvexFields]
  omega

theorem length_encodeEvex (k : Kind) (w : EvexLen) (pfx : List LegacyPrefix) (mk : Masking) (d v : VReg) (r : EvexSrc3) :
    (encodeEvex k w pfx mk d v r).length = evexSize pfx r := by
  cases r <;> simp only [encodeEvex, length_encodeEvexFields, evexSize, regFields5, length_memFields_tail, List.length_nil]

theorem length_encodeEr (k : Kind) (pfx : List LegacyPrefix) (rc : RoundingMode) (mk : Masking) (d v r : VReg) :
    (encodeEr k pfx rc mk d v r).length = evexSize pfx (.reg r) := by
  simp only [encodeEr, length_encodeEvexFields, evexSize, regFields5, List.length_nil]

namespace Laws.EncodedLength

/-- The encoding of the instruction is as long as the instruction says. -/
def Statement (i : Instr) : Prop := (encode i).length = i.size

theorem vfmadd132pdVex128 (pfx : List LegacyPrefix) (d v : BitVec 4) (r : VexSrc3) :
    Statement (.vfmadd132pdVex128 pfx d v r) :=
  length_encodeVex .k132 .v128 pfx d v r

theorem vfmadd213pdVex128 (pfx : List LegacyPrefix) (d v : BitVec 4) (r : VexSrc3) :
    Statement (.vfmadd213pdVex128 pfx d v r) :=
  length_encodeVex .k213 .v128 pfx d v r

theorem vfmadd231pdVex128 (pfx : List LegacyPrefix) (d v : BitVec 4) (r : VexSrc3) :
    Statement (.vfmadd231pdVex128 pfx d v r) :=
  length_encodeVex .k231 .v128 pfx d v r

theorem vfmadd132pdVex256 (pfx : List LegacyPrefix) (d v : BitVec 4) (r : VexSrc3) :
    Statement (.vfmadd132pdVex256 pfx d v r) :=
  length_encodeVex .k132 .v256 pfx d v r

theorem vfmadd213pdVex256 (pfx : List LegacyPrefix) (d v : BitVec 4) (r : VexSrc3) :
    Statement (.vfmadd213pdVex256 pfx d v r) :=
  length_encodeVex .k213 .v256 pfx d v r

theorem vfmadd231pdVex256 (pfx : List LegacyPrefix) (d v : BitVec 4) (r : VexSrc3) :
    Statement (.vfmadd231pdVex256 pfx d v r) :=
  length_encodeVex .k231 .v256 pfx d v r

theorem vfmadd132pdEvex128 (pfx : List LegacyPrefix) (mk : Masking) (d v : VReg) (r : EvexSrc3) :
    Statement (.vfmadd132pdEvex128 pfx mk d v r) :=
  length_encodeEvex .k132 .v128 pfx mk d v r

theorem vfmadd213pdEvex128 (pfx : List LegacyPrefix) (mk : Masking) (d v : VReg) (r : EvexSrc3) :
    Statement (.vfmadd213pdEvex128 pfx mk d v r) :=
  length_encodeEvex .k213 .v128 pfx mk d v r

theorem vfmadd231pdEvex128 (pfx : List LegacyPrefix) (mk : Masking) (d v : VReg) (r : EvexSrc3) :
    Statement (.vfmadd231pdEvex128 pfx mk d v r) :=
  length_encodeEvex .k231 .v128 pfx mk d v r

theorem vfmadd132pdEvex256 (pfx : List LegacyPrefix) (mk : Masking) (d v : VReg) (r : EvexSrc3) :
    Statement (.vfmadd132pdEvex256 pfx mk d v r) :=
  length_encodeEvex .k132 .v256 pfx mk d v r

theorem vfmadd213pdEvex256 (pfx : List LegacyPrefix) (mk : Masking) (d v : VReg) (r : EvexSrc3) :
    Statement (.vfmadd213pdEvex256 pfx mk d v r) :=
  length_encodeEvex .k213 .v256 pfx mk d v r

theorem vfmadd231pdEvex256 (pfx : List LegacyPrefix) (mk : Masking) (d v : VReg) (r : EvexSrc3) :
    Statement (.vfmadd231pdEvex256 pfx mk d v r) :=
  length_encodeEvex .k231 .v256 pfx mk d v r

theorem vfmadd132pdEvex512 (pfx : List LegacyPrefix) (mk : Masking) (d v : VReg) (r : EvexSrc3) :
    Statement (.vfmadd132pdEvex512 pfx mk d v r) :=
  length_encodeEvex .k132 .v512 pfx mk d v r

theorem vfmadd213pdEvex512 (pfx : List LegacyPrefix) (mk : Masking) (d v : VReg) (r : EvexSrc3) :
    Statement (.vfmadd213pdEvex512 pfx mk d v r) :=
  length_encodeEvex .k213 .v512 pfx mk d v r

theorem vfmadd231pdEvex512 (pfx : List LegacyPrefix) (mk : Masking) (d v : VReg) (r : EvexSrc3) :
    Statement (.vfmadd231pdEvex512 pfx mk d v r) :=
  length_encodeEvex .k231 .v512 pfx mk d v r

theorem vfmadd132pdEvex512Er (pfx : List LegacyPrefix) (rc : RoundingMode) (mk : Masking) (d v r : VReg) :
    Statement (.vfmadd132pdEvex512Er pfx rc mk d v r) :=
  length_encodeEr .k132 pfx rc mk d v r

theorem vfmadd213pdEvex512Er (pfx : List LegacyPrefix) (rc : RoundingMode) (mk : Masking) (d v r : VReg) :
    Statement (.vfmadd213pdEvex512Er pfx rc mk d v r) :=
  length_encodeEr .k213 pfx rc mk d v r

theorem vfmadd231pdEvex512Er (pfx : List LegacyPrefix) (rc : RoundingMode) (mk : Masking) (d v r : VReg) :
    Statement (.vfmadd231pdEvex512Er pfx rc mk d v r) :=
  length_encodeEr .k231 pfx rc mk d v r

end Laws.EncodedLength

end Sys2Proof
end

