-- ==== Sys2Proof/Laws/Reads.lean ====
section
/-! SUPPORT. What a memory read can do (R54, R56, R60 to R62): which bytes it accesses, when it delivers its elements, and what stops
it. -/

namespace Sys2Proof.Machine

/-! ## Masks -/

/-- Without a mask every element is active. -/
theorem noMask_getLsbD {j : Nat} (h : j < 8) : noMask.getLsbD j = true := by
  have : ∀ j : Fin 8, noMask.getLsbD j.val = true := by decide
  exact this ⟨j, h⟩

/-- The mask the machine computes is `M[j]` of R161. -/
theorem maskBits_getLsbD (s : State) (mk : Masking) {j : Nat} (h : j < 8) : (maskBits s mk).getLsbD j = maskOn s mk j := by
  unfold maskBits maskOn
  by_cases h0 : mk.aaa = 0#3
  · simp [h0, noMask_getLsbD h]
  · simp [h0, h]

theorem vexKl_eq (w : VexLen) : vexKl w = w.elements := by cases w <;> rfl
theorem evexKl_eq (w : EvexLen) : evexKl w = w.elements := by cases w <;> rfl
theorem evexScale_eq (w : EvexLen) : evexScale w = w.dispScale := by cases w <;> rfl
theorem vexElements_le (w : VexLen) : w.elements ≤ 4 := by cases w <;> decide
theorem evexElements_le (w : EvexLen) : w.elements ≤ 8 := by cases w <;> decide
theorem vexElements_pos (w : VexLen) : 0 < w.elements := by cases w <;> decide
theorem evexElements_pos (w : EvexLen) : 0 < w.elements := by cases w <;> decide

/-- The active elements the machine computes are those of R161. -/
theorem activeLanes_maskBits (s : State) (mk : Masking) {kl : Nat} (h : kl ≤ 8) :
    activeLanes kl (maskBits s mk) = activeBelow s mk kl := by
  unfold activeLanes activeBelow
  refine List.filter_congr (fun j hj => ?_)
  exact maskBits_getLsbD s mk (by have := List.mem_range.mp hj; omega)

/-- Without a mask all elements are active. -/
theorem activeLanes_noMask {kl : Nat} (h : kl ≤ 8) : activeLanes kl noMask = List.range kl := by
  unfold activeLanes
  rw [List.filter_eq_self]
  intro j hj
  exact noMask_getLsbD (by have := List.mem_range.mp hj; omega)

theorem mem_activeBelow {s : State} {mk : Masking} {kl j : Nat} :
    j ∈ activeBelow s mk kl ↔ j < kl ∧ maskOn s mk j = true := by
  simp [activeBelow]

/-- The merged destination is that of R161 and R164. -/
theorem mergeLanes_maskBits (s : State) (mk : Masking) (d : VReg) (kl : Nat) (f : Nat → FmaResult) :
    mergeLanes kl (maskBits s mk) mk.z (lane (readZmm s d)) (fun j => (f j).res) = maskedResult s mk d kl f := by
  unfold mergeLanes maskedResult
  refine ofLanes_congr (fun j hj => ?_)
  by_cases hk : j < kl
  · rw [if_neg (by omega), if_pos hk, maskBits_getLsbD s mk hj]
  · rw [if_pos (by omega), if_neg hk]

/-- Without a mask the merged destination is the results and zeros above (R24). -/
theorem mergeLanes_noMask (kl : Nat) (z : Bool) (old : Nat → E64) (f : Nat → FmaResult) :
    mergeLanes kl noMask z old (fun j => (f j).res) = vexResult kl f := by
  unfold mergeLanes vexResult
  refine ofLanes_congr (fun j hj => ?_)
  by_cases hk : j < kl
  · rw [if_neg (by omega), if_pos hk, noMask_getLsbD hj]
    rfl
  · rw [if_pos (by omega), if_neg hk]

/-! ## Accessed bytes -/

@[simp] theorem mem_elementOffsets {j o : Nat} : o ∈ elementOffsets j ↔ o / 8 = j := by
  simp only [elementOffsets, List.mem_map, List.mem_range]
  constructor
  · rintro ⟨b, hb, rfl⟩
    omega
  · intro h
    exact ⟨o % 8, by omega, by omega⟩

/-- The bytes a full-vector read accesses (R54, R56). -/
theorem mem_fullOffsets {s : State} {kl o : Nat} {m : BitVec 8} :
    o ∈ fullOffsets s kl m ↔ o < 8 * kl ∧ (s.cfg.faultSuppression = true → m.getLsbD (o / 8) = true) := by
  simp only [fullOffsets, List.mem_flatMap, List.mem_filter, List.mem_range, mem_elementOffsets, Bool.or_eq_true,
    Bool.not_eq_true']
  constructor
  · rintro ⟨j, ⟨hj, hm⟩, rfl⟩
    refine ⟨by omega, fun h => ?_⟩
    rcases hm with hm | hm
    · simp [h] at hm
    · exact hm
  · rintro ⟨ho, hm⟩
    refine ⟨o / 8, ⟨by omega, ?_⟩, rfl⟩
    cases hs : s.cfg.faultSuppression
    · exact .inl rfl
    · exact .inr (hm hs)

/-- The bytes a broadcast read accesses (R54, R56). -/
theorem mem_bcastOffsets {s : State} {kl o : Nat} {m : BitVec 8} :
    o ∈ bcastOffsets s kl m ↔ o < 8 ∧ (s.cfg.faultSuppression = true → ∃ j, j < kl ∧ m.getLsbD j = true) := by
  unfold bcastOffsets
  cases hs : s.cfg.faultSuppression
  · simp
  · by_cases h : ∃ j, j < kl ∧ m.getLsbD j = true
    · have : (List.range kl).any (fun j => m.getLsbD j) = true := by
        simpa using h
      simp only [Bool.not_true, Bool.false_or, this, if_true, mem_elementOffsets, forall_const, h, and_true]
      omega
    · have : (List.range kl).any (fun j => m.getLsbD j) = false := by
        rw [List.any_eq_false]
        intro j hj hm
        exact h ⟨j, List.mem_range.mp hj, hm⟩
      simp only [Bool.not_true, Bool.false_or, this, Bool.false_eq_true, if_false, List.not_mem_nil, forall_const, h,
        and_false]

/-- `FullAccessed` is what the machine accesses. -/
theorem mem_fullOffsets_iff {s : State} {w : EvexLen} {mk : Masking} {o : Nat} :
    o ∈ fullOffsets s (evexKl w) (maskBits s mk) ↔ FullAccessed s w mk o := by
  rw [mem_fullOffsets, evexKl_eq]
  unfold FullAccessed
  have := evexElements_le w
  constructor
  · rintro ⟨h1, h2⟩
    exact ⟨h1, fun h => by rw [← maskBits_getLsbD s mk (by omega)]; exact h2 h⟩
  · rintro ⟨h1, h2⟩
    exact ⟨h1, fun h => by rw [maskBits_getLsbD s mk (by omega)]; exact h2 h⟩

/-- `BcastAccessed` is what the machine accesses. -/
theorem mem_bcastOffsets_iff {s : State} {w : EvexLen} {mk : Masking} {o : Nat} :
    o ∈ bcastOffsets s (evexKl w) (maskBits s mk) ↔ BcastAccessed s w mk o := by
  rw [mem_bcastOffsets, evexKl_eq]
  unfold BcastAccessed
  have hle := evexElements_le w
  constructor
  · rintro ⟨h1, h2⟩
    refine ⟨h1, fun h => ?_⟩
    obtain ⟨j, hj, hm⟩ := h2 h
    exact ⟨j, hj, by rw [← maskBits_getLsbD s mk (by omega)]; exact hm⟩
  · rintro ⟨h1, h2⟩
    refine ⟨h1, fun h => ?_⟩
    obtain ⟨j, hj, hm⟩ := h2 h
    exact ⟨j, hj, by rw [maskBits_getLsbD s mk (by omega)]; exact hm⟩

/-- A VEX form accesses its whole range (R56). -/
theorem mem_fullOffsets_vex {s : State} {w : VexLen} {o : Nat} :
    o ∈ fullOffsets s (vexKl w) noMask ↔ o < 8 * w.elements := by
  rw [mem_fullOffsets, vexKl_eq]
  have := vexElements_le w
  exact ⟨fun h => h.1, fun h => ⟨h, fun _ => noMask_getLsbD (by omega)⟩⟩

/-- The accessed bytes are listed in rising order. -/
theorem fullOffsets_sorted (s : State) (kl : Nat) (m : BitVec 8) : (fullOffsets s kl m).Pairwise (· < ·) := by
  unfold fullOffsets
  rw [List.pairwise_flatMap]
  refine ⟨fun j _ => ?_, ?_⟩
  · unfold elementOffsets
    rw [List.pairwise_map]
    exact List.Pairwise.imp (fun h => by omega) List.pairwise_lt_range
  · refine List.Pairwise.filter _ ?_
    refine List.Pairwise.imp ?_ List.pairwise_lt_range
    intro a b hab x hx y hy
    rw [mem_elementOffsets] at hx hy
    omega

/-- The accessed bytes of a broadcast are listed in rising order. -/
theorem bcastOffsets_sorted (s : State) (kl : Nat) (m : BitVec 8) : (bcastOffsets s kl m).Pairwise (· < ·) := by
  unfold bcastOffsets
  split
  · unfold elementOffsets
    rw [List.pairwise_map]
    exact List.Pairwise.imp (fun h => by omega) List.pairwise_lt_range
  · exact List.Pairwise.nil

/-- In a list that rises by `key` the first stop is that of the lowest stopping element. -/
theorem findSome_of_lowest {f : Nat → Option ReadStop} {key : Nat → Nat} {l : List Nat}
    (hs : l.Pairwise (fun a b => key a < key b)) {o : Nat} (ho : o ∈ l)
    (hlow : ∀ q ∈ l, key q < key o → f q = none) {st : ReadStop} (hf : f o = some st) : l.findSome? f = some st := by
  induction l with
  | nil => cases ho
  | cons a l ih =>
    rw [List.pairwise_cons] at hs
    rcases List.mem_cons.mp ho with rfl | h
    · simp [List.findSome?, hf]
    · have := hlow a List.mem_cons_self (hs.1 o h)
      simp only [List.findSome?, this]
      exact ih hs.2 h (fun q hq hlt => hlow q (List.mem_cons_of_mem a hq) hlt)

/-! ## The order of addresses -/

@[simp] theorem mem_addressOrder {la : Addr} {offs : List Nat} {o : Nat} : o ∈ addressOrder la offs ↔ o ∈ offs := by
  simp only [addressOrder, List.mem_append, List.mem_filter, Bool.not_eq_true', decide_eq_true_eq, decide_eq_false_iff_not]
  tauto

/-- The address of an accessed byte, as a number, before and past the top of the address space (R57). -/
theorem toNat_byteAddr {la : Addr} {o : Nat} (h : o < 2 ^ 64) :
    (byteAddr la o).toNat = if 2 ^ 64 ≤ la.toNat + o then la.toNat + o - 2 ^ 64 else la.toNat + o := by
  have hl : la.toNat < 2 ^ 64 := la.isLt
  rw [byteAddr, BitVec.toNat_add, BitVec.toNat_ofNat, Nat.mod_eq_of_lt h]
  split
  · rw [Nat.mod_eq_sub_mod (by omega), Nat.mod_eq_of_lt (by omega)]
  · rw [Nat.mod_eq_of_lt (by omega)]

/-- Offsets in the order of their addresses (R61 b). -/
theorem addressOrder_sorted {la : Addr} {offs : List Nat} (hp : offs.Pairwise (· < ·)) (hb : ∀ o ∈ offs, o < 2 ^ 64) :
    (addressOrder la offs).Pairwise (fun a b => (byteAddr la a).toNat < (byteAddr la b).toNat) := by
  unfold addressOrder
  rw [List.pairwise_append]
  refine ⟨?_, ?_, ?_⟩
  · rw [List.pairwise_filter]
    refine List.Pairwise.imp_of_mem ?_ hp
    intro a b ha hb' hlt h1 h2
    rw [toNat_byteAddr (hb a ha), toNat_byteAddr (hb b hb')]
    simp only [decide_eq_true_eq] at h1 h2
    rw [if_pos h1, if_pos h2]
    omega
  · rw [List.pairwise_filter]
    refine List.Pairwise.imp_of_mem ?_ hp
    intro a b ha hb' hlt h1 h2
    rw [toNat_byteAddr (hb a ha), toNat_byteAddr (hb b hb')]
    simp only [Bool.not_eq_true', decide_eq_false_iff_not] at h1 h2
    rw [if_neg h1, if_neg h2]
    omega
  · intro a ha b hb'
    simp only [List.mem_filter, decide_eq_true_eq, Bool.not_eq_true', decide_eq_false_iff_not] at ha hb'
    rw [toNat_byteAddr (hb a ha.1), toNat_byteAddr (hb b hb'.1), if_pos ha.2, if_neg hb'.2]
    have := hb a ha.1
    omega

/-! ## Stops -/

theorem byteStop_none_iff {s : State} {a : Addr} : byteStop s a = none ↔ ∃ p, translate s .dataRead a = .storage p := by
  unfold byteStop
  cases translate s .dataRead a <;> simp

/-- The alignment test of the machine, as a remainder (R53, R199). -/
theorem low3_eq_zero_iff (a : Addr) : a.extractLsb' 0 3 = 0#3 ↔ a.toNat % 8 = 0 := by
  rw [BitVec.toNat_eq]
  simp [BitVec.extractLsb'_toNat]

theorem alignCheck_iff (s : State) : alignCheck s = true ↔ AlignmentChecked s := by
  simp only [alignCheck, alignMask, flagAC, AlignmentChecked, Bool.and_eq_true, beq_iff_eq, and_assoc]

/-- A read stops with the given exception when an accessed byte is not canonical (R62 step 1). -/
theorem readStop_nonCanonical {s : State} {nc : Exn} {al : Bool} {la : Addr} {offs : List Nat}
    (h : ∃ o ∈ offs, canonical s.cfg.law (byteAddr la o) = false) : readStop s nc al la offs = some (.exn nc) := by
  obtain ⟨o, ho, hc⟩ := h
  have : offs.any (fun o => !canonical s.cfg.law (byteAddr la o)) = true :=
    List.any_eq_true.mpr ⟨o, ho, by simp [hc]⟩
  simp [readStop, this]

/-- What a read stops with when its bytes are canonical (R62 steps 2 and 3). -/
theorem readStop_canonical {s : State} {nc : Exn} {al : Bool} {la : Addr} {offs : List Nat}
    (h : ∀ o ∈ offs, canonical s.cfg.law (byteAddr la o) = true) :
    readStop s nc al la offs =
      if al && alignCheck s && !offs.isEmpty && la.extractLsb' 0 3 != 0#3 then some (.exn .alignmentCheck)
      else (addressOrder la offs).findSome? (fun o => byteStop s (byteAddr la o)) := by
  have : offs.any (fun o => !canonical s.cfg.law (byteAddr la o)) = false := by
    rw [List.any_eq_false]
    intro o ho
    simp [h o ho]
  simp [readStop, this]

/-- A read whose accessed bytes are readable, and which is aligned where that is checked, does not stop. -/
theorem readStop_none {s : State} {nc : Exn} {al : Bool} {la : Addr} {offs : List Nat}
    (h : ∀ o ∈ offs, ByteReadable s (byteAddr la o))
    (ha : al = true → alignCheck s = true → offs ≠ [] → la.toNat % 8 = 0) : readStop s nc al la offs = none := by
  rw [readStop_canonical (fun o ho => (h o ho).canonical)]
  have h1 : (al && alignCheck s && !offs.isEmpty && la.extractLsb' 0 3 != 0#3) = false := by
    rw [← Bool.not_eq_true]
    simp only [Bool.and_eq_true, Bool.not_eq_true', bne_iff_ne]
    rintro ⟨⟨⟨h1, h2⟩, h3⟩, h4⟩
    refine h4 ((low3_eq_zero_iff la).mpr (ha h1 h2 ?_))
    intro e
    simp [e] at h3
  rw [h1]
  simp only [Bool.false_eq_true, if_false, List.findSome?_eq_none_iff]
  intro o ho
  exact byteStop_none_iff.mpr (h o (mem_addressOrder.mp ho)).mapped

/-- A read that does not stop has readable bytes, and is aligned where that is checked. -/
theorem readable_of_readStop {s : State} {nc : Exn} {al : Bool} {la : Addr} {offs : List Nat}
    (h : readStop s nc al la offs = none) :
    (∀ o ∈ offs, ByteReadable s (byteAddr la o)) ∧ (al = true → alignCheck s = true → offs ≠ [] → la.toNat % 8 = 0) := by
  have hc : ∀ o ∈ offs, canonical s.cfg.law (byteAddr la o) = true := by
    intro o ho
    by_contra hn
    rw [readStop_nonCanonical ⟨o, ho, by simpa using hn⟩] at h
    cases h
  rw [readStop_canonical hc] at h
  split at h
  · cases h
  · rename_i hal
    rw [List.findSome?_eq_none_iff] at h
    refine ⟨fun o ho => ⟨hc o ho, byteStop_none_iff.mp (h o (mem_addressOrder.mpr ho))⟩, fun h1 h2 h3 => ?_⟩
    by_contra hn
    apply hal
    simp [h1, h2, h3, mt (low3_eq_zero_iff la).mp hn]

/-- What a read can stop with (R62, R198, R199, U11). -/
theorem readStop_cases {s : State} {nc : Exn} {al : Bool} {la : Addr} {offs : List Nat} {st : ReadStop}
    (h : readStop s nc al la offs = some st) :
    st = .exn nc ∨
    (st = .exn .alignmentCheck ∧ al = true ∧ alignCheck s = true ∧ offs ≠ [] ∧ la.toNat % 8 ≠ 0 ∧
      ∀ o ∈ offs, canonical s.cfg.law (byteAddr la o) = true) ∨
    (∃ o ∈ offs, ∃ code, st = .exn (.pageFault code (byteAddr la o))) ∨ st = .device := by
  unfold readStop at h
  split at h
  · exact .inl (by simpa using h.symm)
  · rename_i hcan
    split at h
    · rename_i hal
      simp only [Bool.and_eq_true, Bool.not_eq_true', bne_iff_ne] at hal
      obtain ⟨⟨⟨h1, h2⟩, h3⟩, h4⟩ := hal
      refine .inr (.inl ⟨by simpa using h.symm, h1, h2, ?_, mt (low3_eq_zero_iff la).mpr h4, ?_⟩)
      · intro e
        simp [e] at h3
      · simpa using hcan
    · rw [List.findSome?_eq_some_iff] at h
      obtain ⟨l, o, l', hl, hb, _⟩ := h
      have ho : o ∈ offs := mem_addressOrder.mp (by rw [hl]; simp)
      unfold byteStop at hb
      cases ht : translate s .dataRead (byteAddr la o) with
      | storage p => simp [ht] at hb
      | pageFault code =>
        simp only [ht, Option.some.injEq] at hb
        exact .inr (.inr (.inl ⟨o, ho, code, hb.symm⟩))
      | device =>
        simp only [ht, Option.some.injEq] at hb
        exact .inr (.inr (.inr hb.symm))

theorem byteStop_pageFault {s : State} {a : Addr} {code : BitVec 32} (h : translate s .dataRead a = .pageFault code) :
    byteStop s a = some (.exn (.pageFault code a)) := by
  simp [byteStop, h]

theorem byteStop_device {s : State} {a : Addr} (h : translate s .dataRead a = .device) : byteStop s a = some .device := by
  simp [byteStop, h]

/-- With canonical bytes, and aligned where that is checked, the accessed byte of the lowest address among those not in storage
stops the read (R61 b, R62 step 3). -/
theorem readStop_lowest {s : State} {nc : Exn} {al : Bool} {la : Addr} {offs : List Nat} (hp : offs.Pairwise (· < ·))
    (hb64 : ∀ q ∈ offs, q < 2 ^ 64) {o : Nat} (ho : o ∈ offs) (hc : ∀ q ∈ offs, canonical s.cfg.law (byteAddr la q) = true)
    (ha : al = true → alignCheck s = true → la.toNat % 8 = 0)
    (hl : ∀ q ∈ offs, (byteAddr la q).toNat < (byteAddr la o).toNat → ByteReadable s (byteAddr la q))
    {st : ReadStop} (hb : byteStop s (byteAddr la o) = some st) :
    readStop s nc al la offs = some st := by
  rw [readStop_canonical hc]
  have : (al && alignCheck s && !offs.isEmpty && la.extractLsb' 0 3 != 0#3) = false := by
    rw [← Bool.not_eq_true]
    simp only [Bool.and_eq_true, bne_iff_ne, not_and, not_not]
    intro h1
    exact (low3_eq_zero_iff la).mpr (ha h1.1.1 h1.1.2)
  rw [this]
  simp only [Bool.false_eq_true, if_false]
  exact findSome_of_lowest (key := fun q => (byteAddr la q).toNat) (addressOrder_sorted hp hb64) (mem_addressOrder.mpr ho)
    (fun q hq hlt => byteStop_none_iff.mpr (hl q (mem_addressOrder.mp hq) hlt).mapped) hb

/-! ## The segment of an operand -/

/-- Prefixes without a segment override do not move the choice (R60). -/
theorem foldl_segStep_of_noOverride (pfx : List LegacyPrefix) (h : ∀ p ∈ pfx, isSegmentOverride p = false) (sel : SegSel) :
    pfx.foldl segStep sel = sel := by
  induction pfx generalizing sel with
  | nil => rfl
  | cons p ps ih =>
    have hp := h p List.mem_cons_self
    rw [List.foldl_cons]
    have : segStep sel p = sel := by cases p <;> simp_all [isSegmentOverride, segStep]
    rw [this]
    exact ih (fun q hq => h q (List.mem_cons_of_mem _ hq)) sel

/-- With `FS` or `GS` among the prefixes a segment stays chosen (R60). -/
theorem foldl_segStep_ne_none (pfx : List LegacyPrefix)
    (sel : SegSel) (hs : sel ≠ .none ∨ .fs ∈ pfx ∨ .gs ∈ pfx) : pfx.foldl segStep sel ≠ .none := by
  induction pfx generalizing sel with
  | nil => simpa using hs
  | cons p ps ih =>
    rw [List.foldl_cons]
    refine ih _ ?_
    cases p <;> simp_all [segStep]

/-- Prefixes without `FS` and `GS` keep the choice (R60). -/
theorem foldl_segStep_of_ignored (pfx : List LegacyPrefix) (h1 : .fs ∉ pfx) (h2 : .gs ∉ pfx) (sel : SegSel) :
    pfx.foldl segStep sel = sel := by
  induction pfx generalizing sel with
  | nil => rfl
  | cons p ps ih =>
    simp only [List.mem_cons, not_or] at h1 h2
    rw [List.foldl_cons, show segStep sel p = sel by cases p <;> simp_all [segStep]]
    exact ih h1.2 h2.2 sel

/-- Without `FS` and `GS` no base is added (R60). -/
theorem segSel_eq_none {pfx : List LegacyPrefix} (h1 : .fs ∉ pfx) (h2 : .gs ∉ pfx) : segSel pfx = .none :=
  foldl_segStep_of_ignored pfx h1 h2 .none

/-- The exception the machine reports for a non-canonical address is one R60 and U9 admit. -/
theorem nonCanonicalExn_report (pfx : List LegacyPrefix) (m : MemOperand) (la : Addr) :
    NonCanonicalReport pfx m (nonCanonicalExn pfx m la) := by
  refine ⟨?_, ?_, ?_, ?_⟩
  · unfold nonCanonicalExn
    repeat' split
    all_goals simp
  · intro h
    have h0 : segSel pfx = .none := foldl_segStep_of_noOverride pfx h .none
    have h1 : pfx.any ignoredOverride = false := by
      rw [List.any_eq_false]
      intro p hp
      have := h p hp
      cases p <;> simp_all [isSegmentOverride, ignoredOverride]
    have h2 : pfx.any (fun p => p == .ss) = false := by
      rw [List.any_eq_false]
      intro p hp
      have := h p hp
      cases p <;> simp_all [isSegmentOverride]
    unfold nonCanonicalExn
    simp [h0, h1, h2]
  · intro h
    have h0 : segSel pfx ≠ .none := foldl_segStep_ne_none pfx .none (.inr h)
    unfold nonCanonicalExn
    simp [h0]
  · intro h1 h2
    have h3 : pfx.any (fun p => p == .ss) = false := by
      rw [List.any_eq_false]
      intro p hp hc
      simp at hc
      exact h2 (hc ▸ hp)
    unfold nonCanonicalExn
    simp [h1, h3]

/-! ## Third sources -/

/-- A VEX third source that can be read does not stop the instruction. -/
theorem vexSrc3_stop_none {s : State} {pfx : List LegacyPrefix} {w : VexLen} {r : VexSrc3} (h : vexReadable s pfx w r) :
    (vexSrc3 s pfx w (s.pc + BitVec.ofNat 64 (vexSize pfx r)) r).stop = none := by
  cases r with
  | reg r => rfl
  | mem m =>
    refine readStop_none (fun o ho => h o (mem_fullOffsets_vex.mp ho)) (fun hc => ?_)
    cases hc

/-- The elements of a VEX third source. -/
theorem vexSrc3_elems (s : State) (pfx : List LegacyPrefix) (w : VexLen) (r : VexSrc3) :
    (vexSrc3 s pfx w (s.pc + BitVec.ofNat 64 (vexSize pfx r)) r).elems = vexElem s pfx r := by
  cases r <;> rfl

/-- An EVEX third source that can be read does not stop the instruction. -/
theorem evexSrc3_stop_none {s : State} {pfx : List LegacyPrefix} {w : EvexLen} {mk : Masking} {r : EvexSrc3}
    (h : evexReadable s pfx w mk r) :
    (evexSrc3 s pfx w (s.pc + BitVec.ofNat 64 (evexSize pfx r)) (maskBits s mk) r).stop = none := by
  cases r with
  | reg r => rfl
  | full m =>
    simp only [evexSrc3, fullSrc3, evexScale_eq]
    refine readStop_none (fun o ho => h o (mem_fullOffsets_iff.mp ho)) (fun hc => ?_)
    cases hc
  | bcast m =>
    refine readStop_none (fun o ho => h.1 o (mem_bcastOffsets_iff.mp ho)) (fun _ hc hne => ?_)
    obtain ⟨o, ho⟩ := List.exists_mem_of_ne_nil _ hne
    have := mem_bcastOffsets_iff.mp ho
    exact h.2 ((alignCheck_iff s).mp hc) ⟨by omega, this.2⟩

/-- The elements of an EVEX third source. -/
theorem evexSrc3_elems (s : State) (pfx : List LegacyPrefix) (w : EvexLen) (m : BitVec 8) (r : EvexSrc3) :
    (evexSrc3 s pfx w (s.pc + BitVec.ofNat 64 (evexSize pfx r)) m r).elems = evexElem s pfx w r := by
  cases r with
  | reg r => rfl
  | full mo => simp only [evexSrc3, fullSrc3, evexScale_eq]; rfl
  | bcast mo => rfl

end Sys2Proof.Machine
end

