-- ==== Sys2Proof/Laws/Templates.lean ====
section
/-! SUPPORT. What the templates of R146 and R160 can do: their outcome when the checks pass and the operand is read, and, the other way,
what a next state or a fault says. Later proofs cite these and do not unfold the templates. -/

namespace Sys2Proof.Machine

/-! ## The control inputs -/

theorem mxControl_eq (s : State) : mxControl s = mxcsrControl s := rfl
theorem erControl_eq (rc : RoundingMode) (s : State) : erControl rc s = embeddedControl rc s := rfl

theorem fmaLane_eq (k : Kind) (rule : FmaRule) (p : FpControl) (a b c : E64) :
    fmaLane k rule p a b c = operationLine k rule p a b c := by
  cases k <;> rfl

/-! ## The common end -/

/-- The element results of a template, written with the operation line. -/
theorem laneResults_eq (k : Kind) (p : FpControl) (s : State) (d s2 : VReg) (c : Nat → E64) :
    laneResults k p s d s2 c = fun j => operationLine k s.cfg.fmaRule p (lane (readZmm s d) j) (lane (readZmm s s2) j) (c j) := by
  funext j
  rw [laneResults, fmaLane_eq]

/-- The two outcomes of the common end: a next state when the commit raises nothing, else the exception of R197. -/
theorem fmaddCommit_cases (k : Kind) (kl : Nat) (m : BitVec 8) (z : Bool) (d s2 : VReg) (c : Nat → E64) (size : Nat)
    (s : State) :
    let f := laneResults k (mxControl s) s d s2 c
    let cm := fpCommit s.mxcsr ((activeLanes kl m).map f)
    (cm.raises = false ∧ fmaddCommit k kl m z d s2 c size s =
      .next { writeZmm s d (mergeLanes kl m z (lane (readZmm s d)) (fun j => (f j).res)) with
        mxcsr := cm.mxcsr, pc := s.pc + BitVec.ofNat 64 size }) ∨
    (cm.raises = true ∧ fmaddCommit k kl m z d s2 c size s = raise (simdExn s) { s with mxcsr := cm.mxcsr }) := by
  intro f cm
  cases h : cm.raises with
  | false =>
    refine .inl ⟨rfl, ?_⟩
    have h' : (fpCommit s.mxcsr ((activeLanes kl m).map (laneResults k (mxControl s) s d s2 c))).raises = false := h
    simp only [fmaddCommit, h', Bool.false_eq_true, if_false]
    rfl
  | true =>
    refine .inr ⟨rfl, ?_⟩
    have h' : (fpCommit s.mxcsr ((activeLanes kl m).map (laneResults k (mxControl s) s d s2 c))).raises = true := h
    simp only [fmaddCommit, h', if_true]
    rfl

/-- With every active element masked the common end completes. -/
theorem fmaddCommit_masked {k : Kind} {kl : Nat} {m : BitVec 8} {z : Bool} {d s2 : VReg} {c : Nat → E64} {size : Nat}
    {s : State} (h : ∀ j ∈ activeLanes kl m, laneMasked s.mxcsr (laneResults k (mxControl s) s d s2 c j) = true) :
    fmaddCommit k kl m z d s2 c size s =
      .next { writeZmm s d (mergeLanes kl m z (lane (readZmm s d)) (fun j => (laneResults k (mxControl s) s d s2 c j).res)) with
        mxcsr := s.mxcsr ||| flagsOf ((activeLanes kl m).map (laneResults k (mxControl s) s d s2 c))
        pc := s.pc + BitVec.ofNat 64 size } := by
  have hc := fpCommit_masked (m := s.mxcsr) (rs := (activeLanes kl m).map (laneResults k (mxControl s) s d s2 c)) (by
    intro r hr
    obtain ⟨j, hj, rfl⟩ := List.mem_map.mp hr
    exact h j hj)
  rcases fmaddCommit_cases k kl m z d s2 c size s with ⟨_, e⟩ | ⟨hr, _⟩
  · rw [e, hc]
  · rw [hc] at hr; cases hr

/-- With an active element unmasked the common end raises. -/
theorem fmaddCommit_unmasked {k : Kind} {kl : Nat} {m : BitVec 8} {z : Bool} {d s2 : VReg} {c : Nat → E64} {size : Nat}
    {s : State} (h : ∃ j ∈ activeLanes kl m, laneMasked s.mxcsr (laneResults k (mxControl s) s d s2 c j) = false) :
    fmaddCommit k kl m z d s2 c size s = raise (if s.cr4.getLsbD 10 then .simdFloatingPoint else .invalidOpcode)
      { s with mxcsr := mxcsrAtSimdFault s.mxcsr ((activeLanes kl m).map (laneResults k (mxControl s) s d s2 c)) } := by
  have hc := fpCommit_unmasked (m := s.mxcsr) (rs := (activeLanes kl m).map (laneResults k (mxControl s) s d s2 c)) (by
    obtain ⟨j, hj, hl⟩ := h
    exact ⟨_, List.mem_map.mpr ⟨j, hj, rfl⟩, hl⟩)
  rcases fmaddCommit_cases k kl m z d s2 c size s with ⟨hr, _⟩ | ⟨_, e⟩
  · rw [hc] at hr; cases hr
  · rw [e, hc, simdExn_eq]

/-! ## The templates, forwards -/

/-- A VEX form that passes the checks and reads its operand goes on to the common end. -/
theorem vexFmadd_ready {k : Kind} {w : VexLen} {pfx : List LegacyPrefix} {d s2 : BitVec 4} {r : VexSrc3} {s : State}
    (h : VexReady pfx s) (hr : vexReadable s pfx w r) :
    vexFmadd k w pfx d s2 r s =
      fmaddCommit k (vexKl w) noMask false (d.setWidth 5) (s2.setWidth 5) (vexElem s pfx r) (vexSize pfx r) s := by
  simp only [vexFmadd, gate_vexReady h, vexSrc3_stop_none hr, vexSrc3_elems]

/-- An EVEX form that passes the checks and reads its operand goes on to the common end. -/
theorem evexFmadd_ready {k : Kind} {w : EvexLen} {pfx : List LegacyPrefix} {mk : Masking} {d s2 : VReg} {r : EvexSrc3}
    {s : State} (h : EvexReady w.needsVL pfx mk s) (hr : evexReadable s pfx w mk r) :
    evexFmadd k w pfx mk d s2 r s =
      fmaddCommit k (evexKl w) (maskBits s mk) mk.z d s2 (evexElem s pfx w r) (evexSize pfx r) s := by
  simp only [evexFmadd, needsVL_eq, gate_evexReady h, evexSrc3_stop_none hr, evexSrc3_elems]

/-- An embedded-rounding form that passes the checks completes. -/
theorem erFmadd_ready {k : Kind} {pfx : List LegacyPrefix} {rc : RoundingMode} {mk : Masking} {d s2 s3 : VReg} {s : State}
    (h : EvexReady false pfx mk s) :
    erFmadd k pfx rc mk d s2 s3 s = .next
      { writeZmm s d (maskedResult s mk d 8 (erLaneResult s k rc d s2 s3)) with
        pc := s.pc + BitVec.ofNat 64 (evexSize pfx (.reg s3)) } := by
  simp only [erFmadd, gate_evexReady h, fmaddSuppressed, laneResults_eq, erControl_eq, retire, writeZmm]
  rw [mergeLanes_maskBits]
  rfl

/-- A VEX form whose operand stops the read ends so. -/
theorem vexFmadd_stop {k : Kind} {w : VexLen} {pfx : List LegacyPrefix} {d s2 : BitVec 4} {r : VexSrc3} {s : State}
    {st : ReadStop} (h : VexReady pfx s)
    (hs : (vexSrc3 s pfx w (s.pc + BitVec.ofNat 64 (vexSize pfx r)) r).stop = some st) :
    vexFmadd k w pfx d s2 r s = stopWith s st := by
  simp only [vexFmadd, gate_vexReady h, hs]

/-- An EVEX form whose operand stops the read ends so. -/
theorem evexFmadd_stop {k : Kind} {w : EvexLen} {pfx : List LegacyPrefix} {mk : Masking} {d s2 : VReg} {r : EvexSrc3}
    {s : State} {st : ReadStop} (h : EvexReady w.needsVL pfx mk s)
    (hs : (evexSrc3 s pfx w (s.pc + BitVec.ofNat 64 (evexSize pfx r)) (maskBits s mk) r).stop = some st) :
    evexFmadd k w pfx mk d s2 r s = stopWith s st := by
  simp only [evexFmadd, needsVL_eq, gate_evexReady h, hs]

/-! ## The templates, backwards -/

/-- Everything a VEX form can do. -/
theorem vexFmadd_cases (k : Kind) (w : VexLen) (pfx : List LegacyPrefix) (d s2 : BitVec 4) (r : VexSrc3) (s : State) :
    (gate (vexUndefined pfx s) s = some (vexFmadd k w pfx d s2 r s)) ∨
    (VexReady pfx s ∧ ∃ st, (vexSrc3 s pfx w (s.pc + BitVec.ofNat 64 (vexSize pfx r)) r).stop = some st ∧
      vexFmadd k w pfx d s2 r s = stopWith s st) ∨
    (VexReady pfx s ∧ (vexSrc3 s pfx w (s.pc + BitVec.ofNat 64 (vexSize pfx r)) r).stop = none ∧
      vexFmadd k w pfx d s2 r s =
        fmaddCommit k (vexKl w) noMask false (d.setWidth 5) (s2.setWidth 5) (vexElem s pfx r) (vexSize pfx r) s) := by
  cases hg : gate (vexUndefined pfx s) s with
  | some o => exact .inl (by simp only [vexFmadd, hg])
  | none =>
    obtain ⟨ha, hu, ht⟩ := gate_eq_none hg
    have hready : VexReady pfx s := by
      rw [← Bool.not_eq_true, vexUndefined_eq_true_iff] at hu
      simp only [not_or, not_exists, not_and, Bool.not_eq_true, ne_eq, not_not, Bool.not_eq_false] at hu
      exact ⟨⟨hu.1, ha.reserved, ha.noTrap, hu.2.1, hu.2.2.1, hu.2.2.2.1, hu.2.2.2.2⟩, ht⟩
    cases hs : (vexSrc3 s pfx w (s.pc + BitVec.ofNat 64 (vexSize pfx r)) r).stop with
    | some st => exact .inr (.inl ⟨hready, st, rfl, vexFmadd_stop hready hs⟩)
    | none => exact .inr (.inr ⟨hready, rfl, by simp only [vexFmadd, hg, hs, vexSrc3_elems]⟩)

/-- Passing the checks of R194 and R195 is being ready. -/
theorem evexReady_of_gate {vl : Bool} {pfx : List LegacyPrefix} {mk : Masking} {s : State}
    (hg : gate (evexUndefined vl pfx mk s) s = none) : EvexReady vl pfx mk s := by
  obtain ⟨ha, hu, ht⟩ := gate_eq_none hg
  rw [← Bool.not_eq_true, evexUndefined_eq_true_iff] at hu
  simp only [not_or, not_exists, not_and, Bool.not_eq_true, ne_eq, not_not, Bool.not_eq_false] at hu
  exact ⟨⟨hu.1, ha.reserved, ha.noTrap, hu.2.1, hu.2.2.1, hu.2.2.2.1, hu.2.2.2.2.1, hu.2.2.2.2.2.1, hu.2.2.2.2.2.2.1,
    hu.2.2.2.2.2.2.2⟩, ht⟩

/-- Everything an EVEX form without embedded rounding can do. -/
theorem evexFmadd_cases (k : Kind) (w : EvexLen) (pfx : List LegacyPrefix) (mk : Masking) (d s2 : VReg) (r : EvexSrc3)
    (s : State) :
    (gate (evexUndefined w.needsVL pfx mk s) s = some (evexFmadd k w pfx mk d s2 r s)) ∨
    (EvexReady w.needsVL pfx mk s ∧ ∃ st,
      (evexSrc3 s pfx w (s.pc + BitVec.ofNat 64 (evexSize pfx r)) (maskBits s mk) r).stop = some st ∧
      evexFmadd k w pfx mk d s2 r s = stopWith s st) ∨
    (EvexReady w.needsVL pfx mk s ∧
      (evexSrc3 s pfx w (s.pc + BitVec.ofNat 64 (evexSize pfx r)) (maskBits s mk) r).stop = none ∧
      evexFmadd k w pfx mk d s2 r s =
        fmaddCommit k (evexKl w) (maskBits s mk) mk.z d s2 (evexElem s pfx w r) (evexSize pfx r) s) := by
  cases hg : gate (evexUndefined w.needsVL pfx mk s) s with
  | some o => exact .inl (by simp only [evexFmadd, needsVL_eq, hg])
  | none =>
    have hready := evexReady_of_gate hg
    cases hs : (evexSrc3 s pfx w (s.pc + BitVec.ofNat 64 (evexSize pfx r)) (maskBits s mk) r).stop with
    | some st => exact .inr (.inl ⟨hready, st, rfl, evexFmadd_stop hready hs⟩)
    | none => exact .inr (.inr ⟨hready, rfl, by simp only [evexFmadd, needsVL_eq, hg, hs, evexSrc3_elems]⟩)

/-- Everything an embedded-rounding form can do. -/
theorem erFmadd_cases (k : Kind) (pfx : List LegacyPrefix) (rc : RoundingMode) (mk : Masking) (d s2 s3 : VReg) (s : State) :
    (gate (evexUndefined false pfx mk s) s = some (erFmadd k pfx rc mk d s2 s3 s)) ∨
    (EvexReady false pfx mk s ∧ erFmadd k pfx rc mk d s2 s3 s = .next
      { writeZmm s d (maskedResult s mk d 8 (erLaneResult s k rc d s2 s3)) with
        pc := s.pc + BitVec.ofNat 64 (evexSize pfx (.reg s3)) }) := by
  cases hg : gate (evexUndefined false pfx mk s) s with
  | some o => exact .inl (by simp only [erFmadd, hg])
  | none => exact .inr ⟨evexReady_of_gate hg, erFmadd_ready (evexReady_of_gate hg)⟩

/-- The checks never end in a next state. -/
theorem gate_ne_next {undef : Bool} {s t : State} : gate undef s ≠ some (.next t) := by
  intro h
  rcases gate_cases undef s with ⟨r, _, e⟩ | ⟨_, _, e⟩ | ⟨_, _, _, e⟩ | ⟨_, _, _, e⟩ <;> rw [e] at h <;> cases h

/-- A stopped read never gives a next state. -/
theorem stopWith_ne_next {s t : State} {st : ReadStop} : stopWith s st ≠ .next t := by
  intro h
  cases st <;> cases h

/-- A next state of the common end: the destination, `MXCSR` and `pc` (R146 steps 7 to 9, R160 steps 8 to 11). -/
theorem fmaddCommit_next {k : Kind} {kl : Nat} {m : BitVec 8} {z : Bool} {d s2 : VReg} {c : Nat → E64} {size : Nat} {s t : State}
    (h : fmaddCommit k kl m z d s2 c size s = .next t) :
    (∀ j ∈ activeLanes kl m, laneMasked s.mxcsr (laneResults k (mxControl s) s d s2 c j) = true) ∧
    t = { writeZmm s d (mergeLanes kl m z (lane (readZmm s d)) (fun j => (laneResults k (mxControl s) s d s2 c j).res)) with
        mxcsr := s.mxcsr ||| flagsOf ((activeLanes kl m).map (laneResults k (mxControl s) s d s2 c))
        pc := s.pc + BitVec.ofNat 64 size } := by
  by_cases hm : ∀ j ∈ activeLanes kl m, laneMasked s.mxcsr (laneResults k (mxControl s) s d s2 c j) = true
  · rw [fmaddCommit_masked hm] at h
    exact ⟨hm, by cases h; rfl⟩
  · have : ∃ j ∈ activeLanes kl m, laneMasked s.mxcsr (laneResults k (mxControl s) s d s2 c j) = false := by
      simpa using hm
    rw [fmaddCommit_unmasked this] at h
    cases h

/-- A fault of the checks: `#UD` or `#NM`, with nothing changed but the record of it. -/
theorem gate_fault {undef : Bool} {s : State} {f : Fault} (h : gate undef s = some (.fault f)) :
    ∃ e, f = .exception e { s with fault := some e } ∧ (e = .invalidOpcode ∨ e = .deviceNotAvailable) := by
  rcases gate_cases undef s with ⟨r, _, e⟩ | ⟨_, _, e⟩ | ⟨_, _, _, e⟩ | ⟨_, _, _, e⟩
  · rw [e] at h; cases h
  · rw [e] at h; cases h; exact ⟨_, rfl, .inl rfl⟩
  · rw [e] at h; cases h; exact ⟨_, rfl, .inr rfl⟩
  · rw [e] at h; cases h

/-- A fault of a stopped read: its exception, with nothing changed but the record of it. -/
theorem stopWith_fault {s : State} {st : ReadStop} {f : Fault} (h : stopWith s st = .fault f) :
    ∃ e, f = .exception e { s with fault := some e } ∧ st = .exn e := by
  cases st with
  | exn e => cases h; exact ⟨e, rfl, rfl⟩
  | device => cases h

/-- A fault of the common end: the exception of R197, with nothing changed but the record of it and sticky flags. -/
theorem fmaddCommit_fault {k : Kind} {kl : Nat} {m : BitVec 8} {z : Bool} {d s2 : VReg} {c : Nat → E64} {size : Nat} {s : State}
    {f : Fault} (h : fmaddCommit k kl m z d s2 c size s = .fault f) :
    f = .exception (simdExn s) { s with
      mxcsr := mxcsrAtSimdFault s.mxcsr ((activeLanes kl m).map (laneResults k (mxControl s) s d s2 c))
      fault := some (simdExn s) } ∧
    ∃ j ∈ activeLanes kl m, laneMasked s.mxcsr (laneResults k (mxControl s) s d s2 c j) = false := by
  by_cases hm : ∃ j ∈ activeLanes kl m, laneMasked s.mxcsr (laneResults k (mxControl s) s d s2 c j) = false
  · rw [fmaddCommit_unmasked hm] at h
    simp only [raise, Host.Outcome.fault.injEq] at h
    exact ⟨by rw [← h, simdExn_eq], hm⟩
  · have : ∀ j ∈ activeLanes kl m, laneMasked s.mxcsr (laneResults k (mxControl s) s d s2 c j) = true := by
      simpa using hm
    rw [fmaddCommit_masked this] at h
    cases h

/-- The common end never refuses. -/
theorem fmaddCommit_ne_refused {k : Kind} {kl : Nat} {m : BitVec 8} {z : Bool} {d s2 : VReg} {c : Nat → E64} {size : Nat}
    {s : State} {r : Refusal} : fmaddCommit k kl m z d s2 c size s ≠ .refused r := by
  intro h
  rcases fmaddCommit_cases k kl m z d s2 c size s with ⟨_, e⟩ | ⟨_, e⟩ <;> rw [e] at h <;> cases h

end Sys2Proof.Machine
end

