-- ==== Sys2Proof/Tests/Slice0.lean ====
section
/-! SUPPORT. Tests of well-formedness, of decoding, and of single steps, with expected results taken from spec/95_test_vectors.md
(the vector is named at each test), and a witness for the hypotheses of every statement of Certificates/Slice0/Obligations.lean. -/

namespace Sys2Proof.Machine

set_option Elab.async false

/-! ## Helpers -/

/-- Setup A of spec/95_test_vectors.md section 2.2: 64-bit mode, everything enabled, `ZMM1` eight times 2.0, `ZMM2` eight times 3.0,
element i of `ZMM3` the double i, `k1 = A5H`, `RAX = 2000H`, `pc = 1000H`. -/
def ready : State :=
  { State.reset with
    x := (Vector.replicate 16 0#64).set 0 0x2000#64
    pc := 0x1000#64
    zmm := (((Vector.replicate 32 (Vector.replicate 8 0#64)).set 1 (Vector.replicate 8 0x4000000000000000#64)).set 2
      (Vector.replicate 8 0x4008000000000000#64)).set 3
      #v[0x0#64, 0x3FF0000000000000#64, 0x4000000000000000#64, 0x4008000000000000#64, 0x4010000000000000#64,
        0x4014000000000000#64, 0x4018000000000000#64, 0x401C000000000000#64]
    k := (Vector.replicate 8 0#64).set 1 0xA5#64
    cr0 := 0x80000031#64
    cr4 := 0x40600#64
    xcr0 := 0xE7#64
    csBase := 0#64
    cpl := 3#2
    mode := .mode64 }

/-- Eight bytes of an element, little-endian (R51). -/
def bytesOf64 (v : E64) : List Byte := (List.range 8).map (fun o => v.extractLsb' (8 * o) 8)

/-- Setup A with the doubles 1.0 to 3.0 at `2000H` to `2017H`. -/
def readyMem : State :=
  { ready with
    mem := Memory.writeBytes [] 0x2000
      (bytesOf64 0x3FF0000000000000#64 ++ bytesOf64 0x4000000000000000#64 ++ bytesOf64 0x4008000000000000#64) }

/-- Setup A with the storage addresses `2000H` to `207FH` mapped for reading, as in spec/95_test_vectors.md. -/
def readyHole : State :=
  { ready with xlat := [{ base := 0x2000, size := 0x80, access := some .dataRead, level := none, outcome := .storage 0x2000 }] }

/-- Setup A with device memory from `2008H` on. -/
def readyDevice : State :=
  { ready with
    xlat := { base := 0x2008, size := 0x1000, access := some .dataRead, level := none, outcome := .device } :: identityXlat }

/-- Setup A with alignment checking on (R53). -/
def readyChecked : State := { ready with cr0 := 0x80040031#64, rflags := 0x40002#64 }

/-- Setup A with `RAX` eight bytes below the canonical limit. -/
def readyHigh : State := { ready with x := (Vector.replicate 16 0#64).set 0 0x00007FFFFFFFFFF8#64 }

/-- Setup A, an SNaN in element 1 of `ZMM3` and the invalid operation unmasked. -/
def readyUnmasked : State :=
  { ready with
    zmm := ready.zmm.set 3 (ofLanes (fun j => if j = 1 then 0x7FF0000000000001#64 else 0x3FF0000000000000#64))
    mxcsr := 0x1F00#32 }

/-- Setup B of section 2.3: every register eight times 1.0, but for one that holds `2^-53`; and a value for `MXCSR`. -/
def readyTie (r : Nat) (m : BitVec 32) : State :=
  { ready with
    zmm := Vector.ofFn (fun i : Fin 32 => Vector.replicate 8 (if i.val = r then 0x3CA0000000000000#64 else 0x3FF0000000000000#64))
    mxcsr := m }

/-- Load an instruction and step once. -/
def runOne (s : State) (bytes : List Byte) : StepOutcome := step (placeAtFetch s bytes)

/-- The elements of a register after a completed step. -/
def lanesAfter (o : StepOutcome) (r : VReg) : Option (List E64) :=
  match o with
  | .next t => some (readZmm t r).toList
  | .fault _ => none
  | .refused _ => none

/-- `pc` and `MXCSR` after a completed step. -/
def controlAfter (o : StepOutcome) : Option (Addr × BitVec 32) :=
  match o with
  | .next t => some (t.pc, t.mxcsr)
  | .fault _ => none
  | .refused _ => none

/-- The exception of a faulted step, and `MXCSR` at the fault. -/
def raisedBy (o : StepOutcome) : Option (Exn × BitVec 32) :=
  match o with
  | .next _ => none
  | .fault (.exception e t) => some (e, t.mxcsr)
  | .refused _ => none

/-- The step is refused, for this reason. -/
def refusedBy (o : StepOutcome) : Option Refusal :=
  match o with
  | .next _ => none
  | .fault _ => none
  | .refused r => some r

theorem next_of_control {o : StepOutcome} {p : Addr × BitVec 32} (h : controlAfter o = some p) : ∃ t, o = .next t := by
  cases o with
  | next t => exact ⟨t, rfl⟩
  | fault f => cases h
  | refused r => cases h

theorem fault_of_raised {o : StepOutcome} {e : Exn} {m : BitVec 32} (h : raisedBy o = some (e, m)) :
    ∃ t, o = .fault (.exception e t) := by
  cases o with
  | next t => cases h
  | fault f =>
    cases f with
    | exception e' t =>
      simp only [raisedBy, Option.some.injEq, Prod.mk.injEq] at h
      exact ⟨t, by rw [h.1]⟩
  | refused r => cases h

/-! ## Well-formedness: each check refuses an ill-formed term -/

/-- A base numbered `x100b` needs a SIB byte (R57). -/
theorem test_wf_based_x100b : (Instr.vfmadd213pdVex128 [] 0 1 (.mem (.based 12 (.disp8 0)))).wf = false := by decide

/-- A base numbered `x101b` needs a displacement, without a SIB byte (R57). -/
theorem test_wf_based_x101b : (Instr.vfmadd213pdVex256 [] 0 1 (.mem (.based 5 .none))).wf = false := by decide

/-- A base numbered `x101b` needs a displacement, with a SIB byte (R57). -/
theorem test_wf_sib_x101b : (Instr.vfmadd213pdEvex512 [] ⟨0, false⟩ 0 1 (.full (.sib 0 1 13 .none))).wf = false := by decide

/-- The operand of a broadcast is checked too. -/
theorem test_wf_bcast : (Instr.vfmadd132pdEvex256 [] ⟨0, false⟩ 0 1 (.bcast (.based 4 .none))).wf = false := by decide

/-- An instruction of 16 bytes is too long (R80). -/
theorem test_wf_length16 :
    (Instr.vfmadd213pdEvex512 [.ds, .ds, .ds, .ds, .ds] ⟨0, false⟩ 1 2 (.full (.sib 0 1 0 (.disp32 0)))).wf = false := by decide

/-- An instruction of 15 bytes is not (R80), and an embedded-rounding form is well-formed. -/
theorem test_wf_length15 :
    (Instr.vfmadd213pdEvex512 [.ds, .ds, .ds, .ds] ⟨0, false⟩ 1 2 (.full (.sib 0 1 0 (.disp32 0)))).wf = true ∧
    (Instr.vfmadd213pdEvex512Er [] .rz ⟨7, true⟩ 31 30 29).wf = true := by decide

/-! ## Decoding: words of spec/95_test_vectors.md section 2.4 -/

/-- A1. -/
theorem test_decode_row1 : decode [0xC4#8, 0xE2#8, 0xE9#8, 0x98#8, 0xCB#8] = .instr (.vfmadd132pdVex128 [] 1 2 (.reg 3)) := by decide
/-- A11: RIP-relative. -/
theorem test_decode_row2 : decode [0xC4#8, 0xE2#8, 0xF1#8, 0xA8#8, 0x05#8, 0x00#8, 0x01#8, 0x00#8, 0x00#8] =
    .instr (.vfmadd213pdVex128 [] 0 1 (.mem (.ripRel 0x100))) := by decide
/-- A9: extension bits. -/
theorem test_decode_row3 : decode [0xC4#8, 0x42#8, 0xA9#8, 0xB8#8, 0xCB#8] = .instr (.vfmadd231pdVex128 [] 9 10 (.reg 11)) := by
  decide
/-- A4. -/
theorem test_decode_row4 : decode [0xC4#8, 0xE2#8, 0xED#8, 0x98#8, 0xCB#8] = .instr (.vfmadd132pdVex256 [] 1 2 (.reg 3)) := by decide
/-- A8. -/
theorem test_decode_row5 : decode [0xC4#8, 0xE2#8, 0xED#8, 0xA8#8, 0x08#8] =
    .instr (.vfmadd213pdVex256 [] 1 2 (.mem (.based 0 .none))) := by decide
/-- A10: the worked decoding. -/
theorem test_decode_row6 : decode [0xC4#8, 0x02#8, 0x85#8, 0xB8#8, 0x44#8, 0xEC#8, 0x40#8] =
    .instr (.vfmadd231pdVex256 [] 8 15 (.mem (.sib 3 13 12 (.disp8 0x40)))) := by decide
/-- A28: mask and zeroing. -/
theorem test_decode_row7 : decode [0x62#8, 0xF2#8, 0xED#8, 0x89#8, 0x98#8, 0xCB#8] =
    .instr (.vfmadd132pdEvex128 [] ⟨1, true⟩ 1 2 (.reg 3)) := by decide
/-- A55: a high destination. -/
theorem test_decode_row8 : decode [0x62#8, 0xE2#8, 0xED#8, 0x08#8, 0xA8#8, 0xC3#8] =
    .instr (.vfmadd213pdEvex128 [] ⟨0, false⟩ 16 2 (.reg 3)) := by decide
/-- A21. -/
theorem test_decode_row9 : decode [0x62#8, 0xF2#8, 0xED#8, 0x08#8, 0xB8#8, 0xCB#8] =
    .instr (.vfmadd231pdEvex128 [] ⟨0, false⟩ 1 2 (.reg 3)) := by decide
/-- A22. -/
theorem test_decode_row10 : decode [0x62#8, 0xF2#8, 0xED#8, 0x28#8, 0x98#8, 0xCB#8] =
    .instr (.vfmadd132pdEvex256 [] ⟨0, false⟩ 1 2 (.reg 3)) := by decide
/-- A42: broadcast. -/
theorem test_decode_row11 : decode [0x62#8, 0xF2#8, 0xED#8, 0x38#8, 0xA8#8, 0x48#8, 0x01#8] =
    .instr (.vfmadd213pdEvex256 [] ⟨0, false⟩ 1 2 (.bcast (.based 0 (.disp8 1)))) := by decide
/-- A24. -/
theorem test_decode_row12 : decode [0x62#8, 0xF2#8, 0xED#8, 0x28#8, 0xB8#8, 0xCB#8] =
    .instr (.vfmadd231pdEvex256 [] ⟨0, false⟩ 1 2 (.reg 3)) := by decide
/-- A25. -/
theorem test_decode_row13 : decode [0x62#8, 0xF2#8, 0xED#8, 0x48#8, 0x98#8, 0xCB#8] =
    .instr (.vfmadd132pdEvex512 [] ⟨0, false⟩ 1 2 (.reg 3)) := by decide
/-- A52: SIB with extension bits and an 8-bit displacement. -/
theorem test_decode_row14 : decode [0x62#8, 0x92#8, 0xED#8, 0x48#8, 0xA8#8, 0x4C#8, 0x88#8, 0x02#8] =
    .instr (.vfmadd213pdEvex512 [] ⟨0, false⟩ 1 2 (.full (.sib 2 9 8 (.disp8 2)))) := by decide
/-- A32: the worked decoding, all extension bits. -/
theorem test_decode_row15 : decode [0x62#8, 0x02#8, 0x8D#8, 0x45#8, 0xB8#8, 0xFD#8] =
    .instr (.vfmadd231pdEvex512 [] ⟨5, false⟩ 31 30 (.reg 29)) := by decide
/-- A49: round up. -/
theorem test_decode_row16 : decode [0x62#8, 0xF2#8, 0xED#8, 0x58#8, 0x98#8, 0xCB#8] =
    .instr (.vfmadd132pdEvex512Er [] .ru ⟨0, false⟩ 1 2 3) := by decide
/-- S4 of section 2.3: round toward zero, `L'L = 11b` is legal here. -/
theorem test_decode_row17 : decode [0x62#8, 0xF2#8, 0xED#8, 0x78#8, 0xA8#8, 0xCB#8] =
    .instr (.vfmadd213pdEvex512Er [] .rz ⟨0, false⟩ 1 2 3) := by decide
/-- A51: mask and zeroing with embedded rounding. -/
theorem test_decode_row18 : decode [0x62#8, 0xF2#8, 0xED#8, 0xDB#8, 0xB8#8, 0xCB#8] =
    .instr (.vfmadd231pdEvex512Er [] .ru ⟨3, true⟩ 1 2 3) := by decide
/-- I1, I5 to I7 of section 2.5: reserved encodings. -/
theorem test_decode_reserved :
    decode [0x62#8, 0xF2#8, 0xED#8, 0x68#8, 0xA8#8, 0xCB#8] = .reserved ∧
    decode [0x62#8, 0xF6#8, 0xED#8, 0x48#8, 0xA8#8, 0xCB#8] = .reserved ∧
    decode [0x62#8, 0xFA#8, 0xED#8, 0x48#8, 0xA8#8, 0xCB#8] = .reserved ∧
    decode [0x62#8, 0xF2#8, 0xE9#8, 0x48#8, 0xA8#8, 0xCB#8] = .reserved := by decide
/-- I24 to I30 of section 2.5: not this family. -/
theorem test_decode_outside :
    decode [0xC4#8, 0xE2#8, 0x69#8, 0xA8#8, 0xCB#8] = .outside ∧ decode [0x62#8, 0xF2#8, 0x6D#8, 0x48#8, 0xA8#8, 0xCB#8] = .outside ∧
    decode [0xC4#8, 0xE2#8, 0xE8#8, 0xA8#8, 0xCB#8] = .outside ∧ decode [0xC4#8, 0xE2#8, 0xE9#8, 0x99#8, 0xCB#8] = .outside ∧
    decode [0xC4#8, 0xE1#8, 0xE9#8, 0xA8#8, 0xCB#8] = .outside ∧ decode [0xC5#8, 0xE9#8, 0xA8#8, 0xCB#8] = .outside ∧
    decode [0x90#8] = .outside := by decide

/-! ## One step: vectors of spec/95_test_vectors.md -/

/-- X1: `2*i + 3`. -/
theorem test_x1 : lanesAfter (runOne ready [0xC4#8, 0xE2#8, 0xE9#8, 0x98#8, 0xCB#8]) 1 =
    some [0x4008000000000000#64, 0x4014000000000000#64, 0, 0, 0, 0, 0, 0] := by decide +kernel
/-- X2: `3*2 + i`; `pc` and `MXCSR`. -/
theorem test_x2 : lanesAfter (runOne ready [0xC4#8, 0xE2#8, 0xE9#8, 0xA8#8, 0xCB#8]) 1 =
      some [0x4018000000000000#64, 0x401C000000000000#64, 0, 0, 0, 0, 0, 0] ∧
    controlAfter (runOne ready [0xC4#8, 0xE2#8, 0xE9#8, 0xA8#8, 0xCB#8]) = some (0x1005#64, 0x1F80#32) := by decide +kernel
/-- X3: `3*i + 2`. -/
theorem test_x3 : lanesAfter (runOne ready [0xC4#8, 0xE2#8, 0xE9#8, 0xB8#8, 0xCB#8]) 1 =
    some [0x4000000000000000#64, 0x4014000000000000#64, 0, 0, 0, 0, 0, 0] := by decide +kernel
/-- X4. -/
theorem test_x4 : lanesAfter (runOne ready [0xC4#8, 0xE2#8, 0xED#8, 0x98#8, 0xCB#8]) 1 =
    some [0x4008000000000000#64, 0x4014000000000000#64, 0x401C000000000000#64, 0x4022000000000000#64, 0, 0, 0, 0] := by decide +kernel
/-- X5. -/
theorem test_x5 : lanesAfter (runOne ready [0xC4#8, 0xE2#8, 0xED#8, 0xA8#8, 0xCB#8]) 1 =
    some [0x4018000000000000#64, 0x401C000000000000#64, 0x4020000000000000#64, 0x4022000000000000#64, 0, 0, 0, 0] := by decide +kernel
/-- X6. -/
theorem test_x6 : lanesAfter (runOne ready [0xC4#8, 0xE2#8, 0xED#8, 0xB8#8, 0xCB#8]) 1 =
    some [0x4000000000000000#64, 0x4014000000000000#64, 0x4020000000000000#64, 0x4026000000000000#64, 0, 0, 0, 0] := by decide +kernel
/-- As X7 and X8: a memory source, here 1.0 and 2.0 at `2000H`. -/
theorem test_memory_source : lanesAfter (runOne readyMem [0xC4#8, 0xE2#8, 0xE9#8, 0xA8#8, 0x08#8]) 1 =
    some [0x401C000000000000#64, 0x4020000000000000#64, 0, 0, 0, 0, 0, 0] := by decide +kernel
/-- E1. -/
theorem test_e1 : lanesAfter (runOne ready [0x62#8, 0xF2#8, 0xED#8, 0x08#8, 0xA8#8, 0xCB#8]) 1 =
    some [0x4018000000000000#64, 0x401C000000000000#64, 0, 0, 0, 0, 0, 0] := by decide +kernel
/-- Row 7 on setup A: `2*i + 3` in the two elements, as X1. -/
theorem test_row7 : lanesAfter (runOne ready [0x62#8, 0xF2#8, 0xED#8, 0x08#8, 0x98#8, 0xCB#8]) 1 =
    some [0x4008000000000000#64, 0x4014000000000000#64, 0, 0, 0, 0, 0, 0] := by decide +kernel
/-- Row 9 on setup A: `3*i + 2`, as X3. -/
theorem test_row9 : lanesAfter (runOne ready [0x62#8, 0xF2#8, 0xED#8, 0x08#8, 0xB8#8, 0xCB#8]) 1 =
    some [0x4000000000000000#64, 0x4014000000000000#64, 0, 0, 0, 0, 0, 0] := by decide +kernel
/-- Row 10 on setup A, as X4. -/
theorem test_row10 : lanesAfter (runOne ready [0x62#8, 0xF2#8, 0xED#8, 0x28#8, 0x98#8, 0xCB#8]) 1 =
    some [0x4008000000000000#64, 0x4014000000000000#64, 0x401C000000000000#64, 0x4022000000000000#64, 0, 0, 0, 0] := by decide +kernel
/-- E2: merging under a mask. -/
theorem test_e2 : lanesAfter (runOne ready [0x62#8, 0xF2#8, 0xED#8, 0x29#8, 0xA8#8, 0xCB#8]) 1 =
    some [0x4018000000000000#64, 0x4000000000000000#64, 0x4020000000000000#64, 0x4000000000000000#64, 0, 0, 0, 0] := by decide +kernel
/-- Row 12 on setup A, as X6. -/
theorem test_row12 : lanesAfter (runOne ready [0x62#8, 0xF2#8, 0xED#8, 0x28#8, 0xB8#8, 0xCB#8]) 1 =
    some [0x4000000000000000#64, 0x4014000000000000#64, 0x4020000000000000#64, 0x4026000000000000#64, 0, 0, 0, 0] := by decide +kernel
/-- E6. -/
theorem test_e6 : lanesAfter (runOne ready [0x62#8, 0xF2#8, 0xED#8, 0x48#8, 0x98#8, 0xCB#8]) 1 =
    some [0x4008000000000000#64, 0x4014000000000000#64, 0x401C000000000000#64, 0x4022000000000000#64, 0x4026000000000000#64,
      0x402A000000000000#64, 0x402E000000000000#64, 0x4031000000000000#64] := by decide +kernel
/-- E3: zeroing under a mask. -/
theorem test_e3 : lanesAfter (runOne ready [0x62#8, 0xF2#8, 0xED#8, 0xC9#8, 0xA8#8, 0xCB#8]) 1 =
    some [0x4018000000000000#64, 0, 0x4020000000000000#64, 0, 0, 0x4026000000000000#64, 0, 0x402A000000000000#64] := by decide +kernel
/-- E4: merging under a mask, 512 bits. -/
theorem test_e4 : lanesAfter (runOne ready [0x62#8, 0xF2#8, 0xED#8, 0x49#8, 0xA8#8, 0xCB#8]) 1 =
    some [0x4018000000000000#64, 0x4000000000000000#64, 0x4020000000000000#64, 0x4000000000000000#64, 0x4000000000000000#64,
      0x4026000000000000#64, 0x4000000000000000#64, 0x402A000000000000#64] := by decide +kernel
/-- E7. -/
theorem test_e7 : lanesAfter (runOne ready [0x62#8, 0xF2#8, 0xED#8, 0x48#8, 0xB8#8, 0xCB#8]) 1 =
    some [0x4000000000000000#64, 0x4014000000000000#64, 0x4020000000000000#64, 0x4026000000000000#64, 0x402C000000000000#64,
      0x4031000000000000#64, 0x4034000000000000#64, 0x4037000000000000#64] := by decide +kernel
/-- As E10: a broadcast, here of 2.0 at `2008H` (the 8-bit displacement 1 scaled by 8): `3*2 + 2` in every element. -/
theorem test_broadcast : lanesAfter (runOne readyMem [0x62#8, 0xF2#8, 0xED#8, 0x58#8, 0xA8#8, 0x48#8, 0x01#8]) 1 =
    some (List.replicate 8 0x4020000000000000#64) := by decide +kernel
/-- E17: no element active, the operand's address unmapped: nothing is read and the destination keeps its value. -/
theorem test_e17 : lanesAfter (runOne { readyHole with x := Vector.replicate 16 0x7000#64, k := Vector.replicate 8 0#64 }
    [0x62#8, 0xF2#8, 0xED#8, 0x49#8, 0xA8#8, 0x08#8]) 1 = some (List.replicate 8 0x4000000000000000#64) := by decide +kernel
/-- As S7, with row 16: round up, everything unmasked; `2*i + 3` is exact, so the same as E6, and `MXCSR` is not written. -/
theorem test_er16 : controlAfter (runOne { ready with mxcsr := 0#32 } [0x62#8, 0xF2#8, 0xED#8, 0x58#8, 0x98#8, 0xCB#8]) =
    some (0x1006#64, 0#32) := by decide +kernel
/-- S3 and S8: setup B, `1*1 + 2^-53` is a tie; the prefix's mode decides, with everything unmasked. -/
theorem test_s3 : lanesAfter (runOne (readyTie 3 0#32) [0x62#8, 0xF2#8, 0xED#8, 0x58#8, 0xA8#8, 0xCB#8]) 1 =
    some (List.replicate 8 0x3FF0000000000001#64) := by decide +kernel
/-- S1 with row 18, the addend in `ZMM1`: round to nearest keeps the tie at 1.0 although `MXCSR` says round up. -/
theorem test_er18 : lanesAfter (runOne (readyTie 1 0x5F80#32) [0x62#8, 0xF2#8, 0xED#8, 0x18#8, 0xB8#8, 0xCB#8]) 1 =
    some (List.replicate 8 0x3FF0000000000000#64) := by decide +kernel
/-- F1: an unmasked operand exception sets the operand flags alone. -/
theorem test_f1 : raisedBy (runOne readyUnmasked [0xC4#8, 0xE2#8, 0xE9#8, 0xA8#8, 0xCB#8]) =
    some (.simdFloatingPoint, 0x1F01#32) := by decide +kernel
/-- With `CR4.OSXMMEXCPT = 0` the same is reported as `#UD` (R197). -/
theorem test_f1_ud : raisedBy (runOne { readyUnmasked with cr4 := 0x40000#64 } [0xC4#8, 0xE2#8, 0xE9#8, 0xA8#8, 0xCB#8]) =
    some (.invalidOpcode, 0x1F01#32) := by decide +kernel
/-- M1: the lowest faulting byte, error code 4. -/
theorem test_m1 : raisedBy (runOne { readyHole with x := Vector.replicate 16 0x2048#64 }
    [0x62#8, 0xF2#8, 0xED#8, 0x48#8, 0xA8#8, 0x08#8]) = some (.pageFault 4#32 0x2080#64, 0x1F80#32) := by decide +kernel
/-- M4: element 0 straddles the end of the mapped bytes. -/
theorem test_m4 : raisedBy (runOne { readyHole with x := Vector.replicate 16 0x207C#64 }
    [0xC4#8, 0xE2#8, 0xE9#8, 0xA8#8, 0x08#8]) = some (.pageFault 4#32 0x2080#64, 0x1F80#32) := by decide +kernel
/-- M5 to M7: a non-canonical address under three segments. -/
theorem test_m5_to_m7 :
    raisedBy (runOne { ready with x := Vector.replicate 16 0x800000000000#64 } [0x62#8, 0xF2#8, 0xED#8, 0x48#8, 0xA8#8, 0x08#8]) =
      some (.generalProtection, 0x1F80#32) ∧
    raisedBy (runOne { ready with x := Vector.replicate 16 0x800000000000#64 }
      [0x62#8, 0xF2#8, 0xED#8, 0x48#8, 0xA8#8, 0x4D#8, 0x00#8]) = some (.stackSegment, 0x1F80#32) ∧
    raisedBy (runOne { ready with x := Vector.replicate 16 0x800000000000#64 }
      [0x64#8, 0x62#8, 0xF2#8, 0xED#8, 0x48#8, 0xA8#8, 0x4D#8, 0x00#8]) = some (.generalProtection, 0x1F80#32) := by decide +kernel
/-- M11: a misaligned broadcast under alignment checking. -/
theorem test_m11 : raisedBy (runOne { readyChecked with x := Vector.replicate 16 0x2041#64 }
    [0x62#8, 0xF2#8, 0xED#8, 0x58#8, 0xA8#8, 0x08#8]) = some (.alignmentCheck, 0x1F80#32) := by decide +kernel
/-- M24: longer than 15 bytes. -/
theorem test_m24 : raisedBy (runOne ready [0x3E#8, 0x3E#8, 0x3E#8, 0x3E#8, 0x3E#8, 0x62#8, 0xF2#8, 0xED#8, 0x48#8, 0xA8#8, 0x8C#8,
    0x08#8, 0x00#8, 0x00#8, 0x00#8, 0x00#8]) = some (.generalProtection, 0x1F80#32) := by decide +kernel
/-- I24 and I30 of section 2.5 are refused. -/
theorem test_refused : refusedBy (runOne ready [0xC4#8, 0xE2#8, 0x69#8, 0xA8#8, 0xCB#8]) = some .outsideFamily ∧
    refusedBy (runOne ready [0x90#8]) = some .outsideFamily := by decide +kernel
/-- M6 with an ignored override on either side of `64H` (R60): the base of `FS` decides, `#GP(0)`. -/
theorem test_segment_ignored_override :
    raisedBy (runOne { ready with x := Vector.replicate 16 0x800000000000#64 }
      [0x36#8, 0x64#8, 0x3E#8, 0x62#8, 0xF2#8, 0xED#8, 0x48#8, 0xA8#8, 0x4D#8, 0x00#8]) = some (.generalProtection, 0x1F80#32) ∧
    linearAddr { ready with fsBase := 0x100#64 } [.fs, .ds] 1 0#64 (.based 0 .none) = 0x2100#64 := by decide +kernel
/-- An operand that wraps past the top of the address space, nothing of it mapped: the lowest address is reported (R61 b). -/
theorem test_lowest_address_wraps : raisedBy (runOne { ready with x := Vector.replicate 16 0xFFFFFFFFFFFFFFF8#64, xlat := [] }
    [0xC4#8, 0xE2#8, 0xE9#8, 0xA8#8, 0x08#8]) = some (.pageFault 4#32 0#64, 0x1F80#32) := by decide +kernel
/-- The launch premises L1 and L7 (R222): after reset, in compatibility mode and with `RFLAGS.TF = 1` no step runs. -/
theorem test_not_launched : refusedBy (step State.reset) = some .modeNotAdmitted ∧
    refusedBy (runOne { ready with mode := .virtual8086 } [0xC4#8, 0xE2#8, 0xE9#8, 0xA8#8, 0xCB#8]) = some .modeNotAdmitted ∧
    refusedBy (runOne { ready with rflags := 0x102#64 } [0xC4#8, 0xE2#8, 0xE9#8, 0xA8#8, 0xCB#8]) = some .singleStep := by
  decide +kernel
/-- V2: single rounding; V43: tininess after rounding; V86 shape: the first NaN. -/
theorem test_fma_vectors :
    (fma64 ⟨.rn, false, false, true, true, .firstOperand⟩ 0x3FF0000000000001 0x3FF0000000000001 0xBFF0000000000002).res =
      0x3970000000000000 ∧
    fma64 ⟨.rn, false, false, true, true, .firstOperand⟩ 0x000FFFFFFFFFFFFF 0x3FF0000000000001 0 =
      ⟨0x0010000000000000, ⟨false, true⟩, ⟨false, false, true⟩⟩ ∧
    fma64 ⟨.rz, false, false, true, true, .firstOperand⟩ 0x001FFFFFFFFFFFFF 0x3FE0000000000000 0 =
      ⟨0x000FFFFFFFFFFFFF, ⟨false, false⟩, ⟨false, true, true⟩⟩ := by decide +kernel

/-! ## Witnesses: states and operands that meet the hypotheses of the statements, clause by clause -/

/-- A state with a value in `RAX`. -/
def withRax (s : State) (v : Addr) : State := { s with x := (Vector.replicate 16 0#64).set 0 v }

/-- The hypotheses of `VexReady` as one test. -/
def vexOk (pfx : List LegacyPrefix) (s : State) : Bool :=
  decide (s.mode = .mode64) && decide (s.mxcsr.extractLsb' 16 16 = 0#16) && !s.rflags.getLsbD 8 && s.cfg.hasFMA && s.cr4.getLsbD 18 &&
    decide (s.xcr0.extractLsb' 1 2 = 0b11#2) && pfx.all (fun p => !forbiddenPrefix p) && !s.cr0.getLsbD 3

theorem vexReady_of_ok {pfx : List LegacyPrefix} {s : State} (h : vexOk pfx s = true) : VexReady pfx s := by
  simp only [vexOk, Bool.and_eq_true, decide_eq_true_eq, List.all_eq_true, Bool.not_eq_true'] at h
  obtain ⟨⟨⟨⟨⟨⟨⟨h1, h2⟩, ht⟩, h3⟩, h4⟩, h5⟩, h6⟩, h7⟩ := h
  exact ⟨⟨h1, h2, ht, h3, h4, h5, h6⟩, h7⟩

/-- The hypotheses of `EvexReady` as one test. -/
def evexOk (vl : Bool) (pfx : List LegacyPrefix) (mk : Masking) (s : State) : Bool :=
  decide (s.mode = .mode64) && decide (s.mxcsr.extractLsb' 16 16 = 0#16) && !s.rflags.getLsbD 8 && s.cfg.hasAVX512F &&
    (!vl || s.cfg.hasAVX512VL) && s.cr4.getLsbD 18 && decide (s.xcr0.extractLsb' 1 2 = 0b11#2) && decide (s.xcr0.extractLsb' 5 3 = 0b111#3) &&
    pfx.all (fun p => !forbiddenPrefix p) && (!mk.z || mk.aaa != 0#3) && !s.cr0.getLsbD 3

theorem evexReady_of_ok {vl : Bool} {pfx : List LegacyPrefix} {mk : Masking} {s : State} (h : evexOk vl pfx mk s = true) :
    EvexReady vl pfx mk s := by
  simp only [evexOk, Bool.and_eq_true, decide_eq_true_eq, List.all_eq_true, Bool.not_eq_true', Bool.or_eq_true, bne_iff_ne] at h
  obtain ⟨⟨⟨⟨⟨⟨⟨⟨⟨⟨h1, h2⟩, ht⟩, h3⟩, h4⟩, h5⟩, h6⟩, h7⟩, h8⟩, h9⟩, h10⟩ := h
  refine ⟨⟨h1, h2, ht, h3, fun hv => ?_, h5, h6, h7, h8, fun hz => ?_⟩, h10⟩
  · simpa [hv] using h4
  · simpa [hz] using h9

theorem ready_admitted : Admitted ready := ⟨.inl rfl, by decide, by decide⟩

/-- With the identity translation every canonical byte is readable. -/
theorem identity_readable {s : State} {a : Addr} (hx : s.xlat = identityXlat) (hc : canonical s.cfg.law a = true) :
    ByteReadable s a := by
  refine ⟨hc, a.toNat, ?_⟩
  have h1 : XlatRule.applies ⟨0, 2 ^ 64, none, none, .storage 0⟩ .dataRead s.cpl a = true := by
    have : a.toNat < 2 ^ 64 := a.isLt
    simp only [XlatRule.applies, Nat.zero_le, Nat.zero_add, this, decide_true]
    rfl
  have h2 : s.xlat.find? (fun r => r.applies .dataRead s.cpl a) = some ⟨0, 2 ^ 64, none, none, .storage 0⟩ := by
    rw [hx]
    exact List.find?_cons_of_pos h1
  simp only [translate, h2, Nat.zero_add, Nat.sub_zero]

/-- What is placed in setup A is fetched there. -/
theorem ready_fetches (bytes : List Byte) (h : bytes.length ≤ 15) : Fetches (placeAtFetch ready bytes) bytes := by
  have hc : ∀ j, j < 15 → canonical ready.cfg.law (byteAddr (fetchBase ready) j) = true := by decide +kernel
  exact fetches_placeAtFetch (by decide) (by omega) (fun j hj => hc j (by omega))

theorem ready_running (bytes : List Byte) : Running (placeAtFetch ready bytes) :=
  running_placeAtFetch ready_admitted rfl bytes

/-! ### Encoding -/

/-- The longest instruction, 15 bytes. -/
theorem witness_DecodeEncodeRoundTrip :
    (Instr.vfmadd213pdEvex512 [.ds, .ds, .ds, .ds] ⟨0, false⟩ 1 2 (.full (.sib 0 1 0 (.disp32 0)))).wf = true := by decide

theorem witness_DecodeFollowsOpcodeTable :
    decode [0x62#8, 0xF2#8, 0xED#8, 0x78#8, 0xA8#8, 0xCB#8] = .instr (.vfmadd213pdEvex512Er [] .rz ⟨0, false⟩ 1 2 3) ∧
    firstRow (splitPrefixes [0x62#8, 0xF2#8, 0xED#8, 0x78#8, 0xA8#8, 0xCB#8]).2 = some 17 := by decide +kernel

/-- M25 of spec/95_test_vectors.md: exactly 15 bytes. -/
theorem witness_DecodedIsWellFormed :
    [0x3E#8, 0x3E#8, 0x3E#8, 0x3E#8, 0x62#8, 0xF2#8, 0xED#8, 0x48#8, 0xA8#8, 0x8C#8, 0x08#8, 0#8, 0#8, 0#8, 0#8].length ≤ 15 ∧
    decode [0x3E#8, 0x3E#8, 0x3E#8, 0x3E#8, 0x62#8, 0xF2#8, 0xED#8, 0x48#8, 0xA8#8, 0x8C#8, 0x08#8, 0#8, 0#8, 0#8, 0#8] =
      .instr (.vfmadd213pdEvex512 [.ds, .ds, .ds, .ds] ⟨0, false⟩ 1 2 (.full (.sib 0 1 0 (.disp32 0)))) := by decide

theorem witness_DecodeReadsItsOwnBytes :
    decode [0xC4#8, 0xE2#8, 0xE9#8, 0x98#8, 0xCB#8, 0xFF#8] = .instr (.vfmadd132pdVex128 [] 1 2 (.reg 3)) := by decide

theorem witness_InstructionLength :
    decode ([LegacyPrefix.ds, .addr32].map byteOfPrefix ++ 0xC4#8 :: 0xE2#8 :: 0xE9#8 :: 0xA8#8 :: 0xCB#8 :: []) =
      .instr (.vfmadd213pdVex128 [.ds, .addr32] 1 2 (.reg 3)) ∧
    decode ([LegacyPrefix.fs].map byteOfPrefix ++ 0x62#8 :: 0xF2#8 :: 0xED#8 :: 0x48#8 :: 0xA8#8 :: 0x4D#8 :: [0x00#8]) =
      .instr (.vfmadd213pdEvex512 [.fs] ⟨0, false⟩ 1 2 (.full (.based 5 (.disp8 0)))) ∧
    (prefixOfByte 0xC5#8 = none ∧ 0xC5#8 ≠ 0xC4#8 ∧ 0xC5#8 ≠ 0x62#8) := by decide

/-- I5: `P0[2] = 1`. -/
theorem witness_ReservedBitsRaiseUD_p0 :
    Running (placeAtFetch ready [0x62#8, 0xF6#8, 0xED#8, 0x48#8, 0xA8#8, 0xCB#8]) ∧
    Fetches (placeAtFetch ready [0x62#8, 0xF6#8, 0xED#8, 0x48#8, 0xA8#8, 0xCB#8])
      (([] : List LegacyPrefix).map byteOfPrefix ++ [0x62#8, 0xF6#8, 0xED#8, 0x48#8, 0xA8#8, 0xCB#8] ++ []) ∧
    operandTail 0xCB#8 [] ≤ 0 ∧ (0xF6#8).extractLsb' 0 2 = 0b10#2 ∧ (0xED#8).extractLsb' 7 1 = 1#1 ∧
    (0xED#8).extractLsb' 0 2 = 0b01#2 ∧ (0xF6#8).extractLsb' 2 2 ≠ 0b00#2 :=
  ⟨ready_running _, ready_fetches _ (by decide), by decide⟩

/-- I7: `P1[2] = 0`. -/
theorem witness_ReservedBitsRaiseUD_p1 :
    Running (placeAtFetch ready [0x62#8, 0xF2#8, 0xE9#8, 0x48#8, 0xA8#8, 0xCB#8]) ∧
    Fetches (placeAtFetch ready [0x62#8, 0xF2#8, 0xE9#8, 0x48#8, 0xA8#8, 0xCB#8])
      (([] : List LegacyPrefix).map byteOfPrefix ++ [0x62#8, 0xF2#8, 0xE9#8, 0x48#8, 0xA8#8, 0xCB#8] ++ []) ∧
    operandTail 0xCB#8 [] ≤ 0 ∧ (0xF2#8).extractLsb' 0 2 = 0b10#2 ∧ (0xE9#8).extractLsb' 7 1 = 1#1 ∧
    (0xE9#8).extractLsb' 0 2 = 0b01#2 ∧ (0xE9#8).extractLsb' 2 1 ≠ 1#1 :=
  ⟨ready_running _, ready_fetches _ (by decide), by decide⟩

/-- I3: a broadcast with `L'L = 11b`, here behind eight prefixes and with an 8-bit displacement: 15 bytes. -/
theorem witness_ReservedLengthRaisesUD :
    Running (placeAtFetch ready (List.replicate 8 0x3E#8 ++ [0x62#8, 0xF2#8, 0xED#8, 0x78#8, 0xA8#8, 0x48#8, 0x01#8])) ∧
    Fetches (placeAtFetch ready (List.replicate 8 0x3E#8 ++ [0x62#8, 0xF2#8, 0xED#8, 0x78#8, 0xA8#8, 0x48#8, 0x01#8]))
      ((List.replicate 8 LegacyPrefix.ds).map byteOfPrefix ++ [0x62#8, 0xF2#8, 0xED#8, 0x78#8, 0xA8#8, 0x48#8] ++ [0x01#8]) ∧
    (List.replicate 8 LegacyPrefix.ds).length + 6 + [0x01#8].length ≤ 15 ∧ operandTail 0x48#8 [0x01#8] ≤ 1 ∧
    (0xF2#8).extractLsb' 0 2 = 0b10#2 ∧ (0xED#8).extractLsb' 7 1 = 1#1 ∧ (0xED#8).extractLsb' 0 2 = 0b01#2 ∧
    (0x78#8).extractLsb' 5 2 = 0b11#2 ∧ ¬((0x78#8).extractLsb' 4 1 = 1#1 ∧ (0x48#8).extractLsb' 6 2 = 0b11#2) :=
  ⟨ready_running _, ready_fetches _ (by decide), by decide⟩

theorem witness_ZeroingWithoutMaskRaisesUD : Admitted ready := ready_admitted

/-- I30, I24 and I25, one for each clause. -/
theorem witness_OutsideFamilyRefused :
    (Running (placeAtFetch ready [0x90#8]) ∧ Fetches (placeAtFetch ready [0x90#8]) (([] : List LegacyPrefix).map byteOfPrefix ++ [0x90#8]) ∧
      prefixOfByte 0x90#8 = none) ∧
    (Fetches (placeAtFetch ready [0xC4#8, 0xE2#8, 0x69#8, 0xA8#8])
      (([] : List LegacyPrefix).map byteOfPrefix ++ [0xC4#8, 0xE2#8, 0x69#8, 0xA8#8]) ∧ (0x69#8).extractLsb' 7 1 ≠ 1#1) ∧
    (Fetches (placeAtFetch ready [0x62#8, 0xF2#8, 0x6D#8, 0x48#8, 0xA8#8])
      (([] : List LegacyPrefix).map byteOfPrefix ++ [0x62#8, 0xF2#8, 0x6D#8, 0x48#8, 0xA8#8]) ∧ (0x6D#8).extractLsb' 7 1 ≠ 1#1) :=
  ⟨⟨ready_running _, ready_fetches _ (by decide), by decide⟩, ⟨ready_fetches _ (by decide), by decide⟩,
    ⟨ready_fetches _ (by decide), by decide⟩⟩

/-! ### The step -/

theorem witness_StepRunsDecoded :
    Running (placeAtFetch ready [0xC4#8, 0xE2#8, 0xE9#8, 0x98#8, 0xCB#8]) ∧
    decode (fetchWindow (placeAtFetch ready [0xC4#8, 0xE2#8, 0xE9#8, 0x98#8, 0xCB#8])).1 =
      .instr (.vfmadd132pdVex128 [] 1 2 (.reg 3)) :=
  ⟨ready_running _, by decide +kernel⟩

theorem witness_StepRunsEncoded :
    Running (placeAtFetch ready (encode (.vfmadd132pdVex128 [] 1 2 (.reg 3)))) ∧
    (Instr.vfmadd132pdVex128 [] 1 2 (.reg 3)).wf = true ∧
    Fetches (placeAtFetch ready (encode (.vfmadd132pdVex128 [] 1 2 (.reg 3)))) (encode (.vfmadd132pdVex128 [] 1 2 (.reg 3))) :=
  ⟨ready_running _, by decide, ready_fetches _ (by decide)⟩

/-- One state for each clause. -/
theorem witness_StepEnds :
    { ready with fault := some .invalidOpcode }.fault = some .invalidOpcode ∧
    ({ ready with cfg := { ready.cfg with endAddr := some 0x1000#64 } }.fault = none ∧
      { ready with cfg := { ready.cfg with endAddr := some 0x1000#64 } }.cfg.endAddr = some ready.pc) ∧
    ({ ready with mode := .compatibility }.fault = none ∧ { ready with mode := .compatibility }.cfg.endAddr ≠ some ready.pc ∧
      { ready with mode := .compatibility }.mode ≠ .mode64) ∧
    (State.reset.fault = none ∧ State.reset.cfg.endAddr ≠ some State.reset.pc ∧ State.reset.mode ≠ .mode64) ∧
    ({ ready with mxcsr := 0x10000#32 }.mode = .mode64 ∧ ({ ready with mxcsr := 0x10000#32 }.mxcsr).extractLsb' 16 16 ≠ 0#16 ∧
      { ready with mxcsr := 0x10000#32 }.cfg.endAddr ≠ some ready.pc) ∧
    (ready.mode = .mode64 ∧ { ready with rflags := 0x102#64 }.mxcsr.extractLsb' 16 16 = 0#16 ∧
      { ready with rflags := 0x102#64 }.rflags.getLsbD 8 = true ∧ { ready with rflags := 0x102#64 }.fault = none ∧
      { ready with rflags := 0x102#64 }.cfg.endAddr ≠ some ready.pc) := by decide

/-- M24: 16 bytes, of which 15 are fetched. -/
theorem witness_OverlongInstruction :
    let i := Instr.vfmadd213pdEvex512 [.ds, .ds, .ds, .ds, .ds] ⟨0, false⟩ 1 2 (.full (.sib 0 1 0 (.disp32 0)))
    Running (placeAtFetch ready ((encode i).take 15)) ∧ i.operandsWf = true ∧ 15 < i.size ∧
      Fetches (placeAtFetch ready ((encode i).take 15)) ((encode i).take 15) :=
  ⟨ready_running _, by decide, by decide, ready_fetches _ (by decide)⟩

/-- The instruction starts two bytes below the canonical limit. -/
theorem witness_FetchFault_nonCanonical :
    let i := Instr.vfmadd213pdVex128 [] 1 2 (.reg 3)
    let s := placeAtFetch { ready with pc := 0x7FFFFFFFFFFE#64 } ((encode i).take 2)
    Running s ∧ i.wf = true ∧ 2 < i.size ∧ Fetches s ((encode i).take 2) ∧
      canonical s.cfg.law (byteAddr (fetchBase s) 2) = false := by
  have hc : ∀ j, j < 2 → canonical ready.cfg.law (byteAddr 0x7FFFFFFFFFFE#64 j) = true := by decide +kernel
  refine ⟨running_placeAtFetch ⟨.inl rfl, by decide, by decide⟩ rfl _, by decide, by decide, ?_, by decide +kernel⟩
  exact fetches_placeAtFetch (by decide) (by decide) hc

/-- Two bytes of the instruction are mapped, the third is not. -/
theorem witness_FetchFault_pageFault :
    let i := Instr.vfmadd213pdVex128 [] 1 2 (.reg 3)
    let s := placeAtFetch { ready with xlat := [] } ((encode i).take 2)
    Running s ∧ i.wf = true ∧ 2 < i.size ∧ Fetches s ((encode i).take 2) ∧
      canonical s.cfg.law (byteAddr (fetchBase s) 2) = true ∧
      Machine.translate s .fetch (byteAddr (fetchBase s) 2) = .pageFault 0x14#32 := by
  have hc : ∀ j, j < 2 → canonical ready.cfg.law (byteAddr 0x1000#64 j) = true := by decide +kernel
  refine ⟨running_placeAtFetch ⟨.inl rfl, by decide, by decide⟩ rfl _, by decide, by decide, ?_, by decide +kernel, by decide +kernel⟩
  exact fetches_placeAtFetch (by decide) (by decide) hc

/-- From a state that is launched, and from the state after reset. -/
theorem witness_LoadedWordRuns :
    (Memory.wf ready.mem = true ∧ ∀ j, j < 15 → canonical ready.cfg.law (byteAddr ready.pc j) = true) ∧
    (Memory.wf State.reset.mem = true ∧ ∀ j, j < 15 → canonical State.reset.cfg.law (byteAddr State.reset.pc j) = true) ∧
    decodeTableWord 40 0xCB98E9E2C4 = some (.vfmadd132pdVex128 [] 1 2 (.reg 3)) :=
  ⟨⟨by decide, by decide +kernel⟩, ⟨by decide, by decide +kernel⟩, by decide +kernel⟩

/-! ### Checks before the operands -/

/-- Each condition of R192 in a state of its own. -/
theorem witness_VexUndefined :
    (Admitted State.reset ∧ State.reset.mode ≠ .mode64) ∧
    (Admitted { ready with cfg := { ready.cfg with hasFMA := false } }) ∧
    (Admitted { ready with cr4 := 0#64 } ∧ (0#64).getLsbD 18 = false) ∧
    (Admitted { ready with xcr0 := 3#64 } ∧ (3#64).extractLsb' 1 2 ≠ 0b11#2) ∧
    (Admitted ready ∧ ∃ p ∈ [LegacyPrefix.rex 8], forbiddenPrefix p = true) :=
  ⟨⟨⟨.inr (.inl rfl), by decide, by decide⟩, by decide⟩, ⟨.inl rfl, by decide, by decide⟩,
    ⟨⟨.inl rfl, by decide, by decide⟩, by decide⟩, ⟨⟨.inl rfl, by decide, by decide⟩, by decide⟩, ⟨ready_admitted, by decide⟩⟩

/-- Each condition of R194 that R192 does not have, in a state of its own. -/
theorem witness_EvexUndefined :
    Admitted { ready with cfg := { ready.cfg with hasAVX512F := false } } ∧
    (Admitted { ready with cfg := { ready.cfg with hasAVX512VL := false } } ∧ EvexLen.v256.needsVL = true) ∧
    (Admitted { ready with xcr0 := 0x67#64 } ∧ (0x67#64).extractLsb' 5 3 ≠ 0b111#3) ∧
    (Admitted ready ∧ (⟨0#3, true⟩ : Masking).z = true) :=
  ⟨⟨.inl rfl, by decide, by decide⟩, ⟨⟨.inl rfl, by decide, by decide⟩, rfl⟩, ⟨⟨.inl rfl, by decide, by decide⟩, by decide⟩,
    ⟨ready_admitted, rfl⟩⟩

theorem witness_DeviceNotAvailable :
    { ready with cr0 := 0x80000039#64 }.cr0.getLsbD 3 = true ∧ VexEnabled [] { ready with cr0 := 0x80000039#64 } ∧
    EvexEnabled true [] ⟨1, true⟩ { ready with cr0 := 0x80000039#64 } :=
  ⟨by decide, ⟨rfl, by decide, by decide, rfl, by decide, by decide, by decide⟩,
    ⟨rfl, by decide, by decide, rfl, fun _ => rfl, by decide, by decide, by decide, by decide, fun _ => by decide⟩⟩

/-! ### Results -/

theorem witness_VexResult_reg :
    VexReady [] ready ∧ vexReadable ready [] .v256 (.reg 3) ∧
    (∀ j, j < VexLen.v256.elements → laneMasked ready.mxcsr (vexLaneResult ready .k213 [] 1 2 (.reg 3) j) = true) :=
  ⟨vexReady_of_ok (by decide +kernel), trivial, by decide +kernel⟩

/-- The last 16 bytes below the canonical limit. -/
theorem witness_VexResult_mem :
    VexReady [] (withRax ready 0x7FFFFFFFFFF0#64) ∧
    vexReadable (withRax ready 0x7FFFFFFFFFF0#64) [] .v128 (.mem (.based 0 .none)) ∧
    (∀ j, j < VexLen.v128.elements → laneMasked ready.mxcsr
      (vexLaneResult (withRax ready 0x7FFFFFFFFFF0#64) .k132 [] 1 2 (.mem (.based 0 .none)) j) = true) := by
  have hc : ∀ o, o < 16 → canonical .bits48
      (byteAddr (vexAddr (withRax ready 0x7FFFFFFFFFF0#64) [] (.based 0 .none)) o) = true := by decide +kernel
  exact ⟨vexReady_of_ok (by decide +kernel), fun o ho => identity_readable rfl (hc o ho), by decide +kernel⟩

theorem witness_EvexResult_reg :
    EvexReady EvexLen.v512.needsVL [] ⟨1, true⟩ ready ∧ evexReadable ready [] .v512 ⟨1, true⟩ (.reg 3) ∧
    (∀ j ∈ activeBelow ready ⟨1, true⟩ EvexLen.v512.elements,
      laneMasked ready.mxcsr (evexLaneResult ready .k213 .v512 [] 1 2 (.reg 3) j) = true) :=
  ⟨evexReady_of_ok (by decide +kernel), trivial, by decide +kernel⟩

/-- As M9: the last element lies beyond the canonical limit and is masked off. -/
theorem witness_EvexResult_full :
    let s := { withRax ready 0x7FFFFFFFFFC8#64 with k := (Vector.replicate 8 0#64).set 1 0x7F#64 }
    EvexReady EvexLen.v512.needsVL [] ⟨1, false⟩ s ∧ evexReadable s [] .v512 ⟨1, false⟩ (.full (.based 0 .none)) ∧
    (∀ j ∈ activeBelow s ⟨1, false⟩ EvexLen.v512.elements,
      laneMasked s.mxcsr (evexLaneResult s .k231 .v512 [] 1 2 (.full (.based 0 .none)) j) = true) := by
  intro s
  have hc : ∀ o, o < 64 → maskOn s ⟨1, false⟩ (o / 8) = true →
      canonical .bits48 (byteAddr (fullAddr s [] .v512 (.based 0 .none)) o) = true := by decide +kernel
  exact ⟨evexReady_of_ok (by decide +kernel), fun o ho => identity_readable rfl (hc o ho.1 (ho.2 rfl)), by decide +kernel⟩

/-- An aligned broadcast with alignment checking on. -/
theorem witness_EvexResult_bcast :
    EvexReady EvexLen.v128.needsVL [] ⟨0, false⟩ readyChecked ∧
    evexReadable readyChecked [] .v128 ⟨0, false⟩ (.bcast (.based 0 (.disp8 1))) ∧ AlignmentChecked readyChecked ∧
    (∀ j ∈ activeBelow readyChecked ⟨0, false⟩ EvexLen.v128.elements,
      laneMasked readyChecked.mxcsr (evexLaneResult readyChecked .k132 .v128 [] 1 2 (.bcast (.based 0 (.disp8 1))) j) = true) := by
  have hc : ∀ o, o < 8 → canonical .bits48 (byteAddr (bcastAddr readyChecked [] (.based 0 (.disp8 1))) o) = true := by
    decide +kernel
  exact ⟨evexReady_of_ok (by decide +kernel),
    ⟨fun o ho => identity_readable rfl (hc o ho.1), fun _ _ => by decide +kernel⟩, ⟨by decide, by decide, by decide⟩,
    by decide +kernel⟩

theorem witness_EmbeddedRoundingResult : EvexReady false [] ⟨1, true⟩ { ready with mxcsr := 0#32 } :=
  evexReady_of_ok (by decide +kernel)

/-- E17. -/
theorem witness_NoActiveElementCompletes :
    let s := { ready with k := Vector.replicate 8 0#64 }
    EvexReady EvexLen.v512.needsVL [] ⟨1, false⟩ s ∧ s.cfg.faultSuppression = true ∧
      (∀ j, j < EvexLen.v512.elements → maskOn s ⟨1, false⟩ j = false) :=
  ⟨evexReady_of_ok (by decide +kernel), rfl, by decide +kernel⟩

/-! ### Exceptions -/

/-- The first non-canonical byte is the ninth accessed one, or the last one of a broadcast. -/
theorem witness_NonCanonicalRead :
    (VexReady [] readyHigh ∧ 8 < 8 * VexLen.v128.elements ∧
      canonical readyHigh.cfg.law (byteAddr (vexAddr readyHigh [] (.based 0 .none)) 8) = false) ∧
    (EvexReady EvexLen.v128.needsVL [] ⟨0, false⟩ readyHigh ∧ FullAccessed readyHigh .v128 ⟨0, false⟩ 8 ∧
      canonical readyHigh.cfg.law (byteAddr (fullAddr readyHigh [] .v128 (.based 0 .none)) 8) = false) ∧
    (EvexReady EvexLen.v128.needsVL [] ⟨0, false⟩ (withRax ready 0x7FFFFFFFFFF9#64) ∧
      BcastAccessed (withRax ready 0x7FFFFFFFFFF9#64) .v128 ⟨0, false⟩ 7 ∧
      canonical .bits48 (byteAddr (bcastAddr (withRax ready 0x7FFFFFFFFFF9#64) [] (.based 0 .none)) 7) = false) :=
  ⟨⟨vexReady_of_ok (by decide +kernel), by decide, by decide +kernel⟩,
    ⟨evexReady_of_ok (by decide +kernel), ⟨by decide, fun _ => by decide +kernel⟩, by decide +kernel⟩,
    ⟨evexReady_of_ok (by decide +kernel), ⟨by decide, fun _ => ⟨0, by decide, by decide +kernel⟩⟩, by decide +kernel⟩⟩

/-- A byte whose address is below that of byte `o` stands before it, in an operand that does not wrap. -/
theorem before_of_lower {la : Addr} {q o : Nat} (hq : la.toNat + q < 2 ^ 64) (ho : la.toNat + o < 2 ^ 64)
    (h : (byteAddr la q).toNat < (byteAddr la o).toNat) : q < o := by
  simp only [byteAddr, BitVec.toNat_add, BitVec.toNat_ofNat] at h
  omega

/-- The ninth byte of a VEX operand is not present; and is device memory. -/
theorem witness_LowestFaultingByte_vex :
    let s := withRax readyHole 0x2078#64
    VexReady [] s ∧ (∀ q, q < 8 * VexLen.v128.elements → canonical s.cfg.law (byteAddr (vexAddr s [] (.based 0 .none)) q) = true) ∧
    (∀ q, q < 8 * VexLen.v128.elements →
      (byteAddr (vexAddr s [] (.based 0 .none)) q).toNat < (byteAddr (vexAddr s [] (.based 0 .none)) 8).toNat →
      ByteReadable s (byteAddr (vexAddr s [] (.based 0 .none)) q)) ∧
    Machine.translate s .dataRead (byteAddr (vexAddr s [] (.based 0 .none)) 8) = .pageFault 4#32 ∧
    Machine.translate readyDevice .dataRead (byteAddr (vexAddr readyDevice [] (.based 0 .none)) 8) = .device := by
  intro s
  have ha : vexAddr s [] (.based 0 .none) = 0x2078#64 := by decide +kernel
  have hc : ∀ q, q < 8 → canonical s.cfg.law (byteAddr 0x2078#64 q) = true ∧
      Machine.translate s .dataRead (byteAddr 0x2078#64 q) = .storage (0x2078 + q) := by decide +kernel
  refine ⟨vexReady_of_ok (by decide +kernel), by decide +kernel, fun q hq hl => ?_, by decide +kernel, by decide +kernel⟩
  have hq' : q < 16 := hq
  rw [ha] at hl ⊢
  have h8 := before_of_lower (by change 0x2078 + q < _; omega) (by decide) hl
  exact ⟨(hc q h8).1, _, (hc q h8).2⟩

/-- The operand wraps: its last eight bytes, at addresses 0 to 7, are lower than its first eight, and no byte is present. -/
theorem witness_LowestFaultingByte_wraps :
    let s := withRax { ready with xlat := [] } 0xFFFFFFFFFFFFFFF8#64
    VexReady [] s ∧ (∀ q, q < 8 * VexLen.v128.elements → canonical s.cfg.law (byteAddr (vexAddr s [] (.based 0 .none)) q) = true) ∧
    (byteAddr (vexAddr s [] (.based 0 .none)) 8).toNat = 0 ∧
    Machine.translate s .dataRead (byteAddr (vexAddr s [] (.based 0 .none)) 8) = .pageFault 4#32 :=
  ⟨vexReady_of_ok (by decide +kernel), by decide +kernel, by decide +kernel, by decide +kernel⟩

/-- The ninth byte of a full-vector EVEX operand is not present; and is device memory. -/
theorem witness_LowestFaultingByte_full :
    let s := withRax readyHole 0x2078#64
    EvexReady EvexLen.v128.needsVL [] ⟨0, false⟩ s ∧ FullAccessed s .v128 ⟨0, false⟩ 8 ∧
    (∀ q, FullAccessed s .v128 ⟨0, false⟩ q →
      (byteAddr (fullAddr s [] .v128 (.based 0 .none)) q).toNat < (byteAddr (fullAddr s [] .v128 (.based 0 .none)) 8).toNat →
      ByteReadable s (byteAddr (fullAddr s [] .v128 (.based 0 .none)) q)) ∧
    Machine.translate s .dataRead (byteAddr (fullAddr s [] .v128 (.based 0 .none)) 8) = .pageFault 4#32 ∧
    Machine.translate readyDevice .dataRead (byteAddr (fullAddr readyDevice [] .v128 (.based 0 .none)) 8) = .device := by
  intro s
  have ha : fullAddr s [] .v128 (.based 0 .none) = 0x2078#64 := by decide +kernel
  have hc : ∀ q, q < 8 → canonical s.cfg.law (byteAddr 0x2078#64 q) = true ∧
      Machine.translate s .dataRead (byteAddr 0x2078#64 q) = .storage (0x2078 + q) := by decide +kernel
  refine ⟨evexReady_of_ok (by decide +kernel), ⟨by decide, fun _ => by decide +kernel⟩, fun q hq hl => ?_, by decide +kernel,
    by decide +kernel⟩
  have hq' : q < 16 := hq.1
  rw [ha] at hl ⊢
  have h8 := before_of_lower (by change 0x2078 + q < _; omega) (by decide) hl
  exact ⟨(hc q h8).1, _, (hc q h8).2⟩

/-- The last byte of a broadcast operand is not present; and is device memory. -/
theorem witness_LowestFaultingByte_bcast :
    let s := withRax readyHole 0x2079#64
    EvexReady EvexLen.v512.needsVL [] ⟨0, false⟩ s ∧ BcastAccessed s .v512 ⟨0, false⟩ 7 ∧ ¬AlignmentChecked s ∧
    (∀ q, q < 8 →
      (byteAddr (bcastAddr s [] (.based 0 .none)) q).toNat < (byteAddr (bcastAddr s [] (.based 0 .none)) 7).toNat →
      ByteReadable s (byteAddr (bcastAddr s [] (.based 0 .none)) q)) ∧
    Machine.translate s .dataRead (byteAddr (bcastAddr s [] (.based 0 .none)) 7) = .pageFault 4#32 ∧
    Machine.translate (withRax readyDevice 0x2001#64) .dataRead
      (byteAddr (bcastAddr (withRax readyDevice 0x2001#64) [] (.based 0 .none)) 7) = .device := by
  intro s
  have ha : bcastAddr s [] (.based 0 .none) = 0x2079#64 := by decide +kernel
  have hc : ∀ q, q < 7 → canonical s.cfg.law (byteAddr 0x2079#64 q) = true ∧
      Machine.translate s .dataRead (byteAddr 0x2079#64 q) = .storage (0x2079 + q) := by decide +kernel
  refine ⟨evexReady_of_ok (by decide +kernel), ⟨by decide, fun _ => ⟨0, by decide, by decide +kernel⟩⟩,
    fun h => absurd h.1 (by decide), fun q hq hl => ?_, by decide +kernel, by decide +kernel⟩
  rw [ha] at hl ⊢
  have h7 := before_of_lower (by change 0x2079 + q < _; omega) (by decide) hl
  exact ⟨(hc q h7).1, _, (hc q h7).2⟩

theorem witness_AlignmentCheckOnlyBroadcast :
    let s := withRax readyChecked 0x2041#64
    EvexReady EvexLen.v512.needsVL [] ⟨0, false⟩ s ∧ AlignmentChecked s ∧ BcastAccessed s .v512 ⟨0, false⟩ 0 ∧
    (∀ q, q < 8 → canonical s.cfg.law (byteAddr (bcastAddr s [] (.based 0 .none)) q) = true) ∧
    (bcastAddr s [] (.based 0 .none)).toNat % 8 ≠ 0 ∧
    ∃ t, exec (.vfmadd213pdEvex512 [] ⟨0, false⟩ 1 2 (.bcast (.based 0 .none))) s = .fault (.exception .alignmentCheck t) :=
  ⟨evexReady_of_ok (by decide +kernel), ⟨by decide, by decide, by decide⟩,
    ⟨by decide, fun _ => ⟨0, by decide, by decide +kernel⟩⟩, by decide +kernel, by decide +kernel,
    fault_of_raised (m := 0x1F80#32) (by decide +kernel)⟩

/-- The exception is in the last element of a VEX form. -/
theorem witness_UnmaskedExceptionRaises_vex :
    VexReady [] readyUnmasked ∧ vexReadable readyUnmasked [] .v128 (.reg 3) ∧
    (∃ j, j < VexLen.v128.elements ∧
      laneMasked readyUnmasked.mxcsr (vexLaneResult readyUnmasked .k213 [] 1 2 (.reg 3) j) = false) :=
  ⟨vexReady_of_ok (by decide +kernel), trivial, 1, by decide, by decide +kernel⟩

/-- E22: the exception is in the one active element. -/
theorem witness_UnmaskedExceptionRaises_evex :
    let s := { readyUnmasked with k := (Vector.replicate 8 0#64).set 1 2#64 }
    EvexReady EvexLen.v512.needsVL [] ⟨1, false⟩ s ∧ evexReadable s [] .v512 ⟨1, false⟩ (.reg 3) ∧
    (∃ j ∈ activeBelow s ⟨1, false⟩ EvexLen.v512.elements,
      laneMasked s.mxcsr (evexLaneResult s .k213 .v512 [] 1 2 (.reg 3) j) = false) :=
  ⟨evexReady_of_ok (by decide +kernel), trivial, 1, by decide +kernel, by decide +kernel⟩

/-! ### The element function -/

/-- The control inputs of round to nearest with everything masked. -/
def plainControl : FpControl := ⟨.rn, false, false, true, true, .firstOperand⟩

theorem witness_DenormalsAreZero : { plainControl with daz := true }.daz = true ∧ classOf 0x000FFFFFFFFFFFFF#64 = .denormal := by
  decide +kernel

theorem witness_NaNOperand : plainControl.daz = false ∧ isNaN 0x7FF0000000000001#64 = true ∧ isNaN 0xFFFFFFFFFFFFFFFF#64 = true ∧
    classOf 0x7FF7FFFFFFFFFFFF#64 = .snan ∧ classOf 0x7FF8000000000000#64 = .qnan := by decide +kernel

theorem witness_NaNPickChoice : plainControl.daz = false ∧ plainControl.nanRule = .firstOperand ∧
    isNaN 0x7FF8000000000000#64 = true := by decide +kernel

/-- One for each of the four forms of an invalid operation. -/
theorem witness_InvalidOperation :
    plainControl.daz = false ∧ isNaN 0x7FF0000000000000#64 = false ∧
    (classOf 0x7FF0000000000000#64 = .infinity ∧ classOf 0x8000000000000000#64 = .zero) ∧
    (classOf 0x0000000000000001#64 ≠ .zero ∧ classOf 0xFFF0000000000000#64 = .infinity ∧
      (signOf 0x7FF0000000000000#64 ^^ signOf 0x0000000000000001#64) ≠ signOf 0xFFF0000000000000#64) := by decide +kernel

theorem witness_DenormalOperand :
    plainControl.daz = false ∧ isNaN 0x0000000000000001#64 = false ∧ isNaN 0x7FF0000000000000#64 = false ∧
    invalidOp 0x0000000000000001#64 0x7FF0000000000000#64 0x7FF0000000000000#64 = false := by decide +kernel

theorem witness_InfiniteOperand :
    invalidOp 0xFFF0000000000000#64 0x3FF0000000000000#64 0xFFF0000000000000#64 = false ∧
    classOf 0xFFF0000000000000#64 = .infinity ∧ invalidOp 0x7FEFFFFFFFFFFFFF#64 0x7FEFFFFFFFFFFFFF#64 0xFFF0000000000000#64 = false ∧
    classOf 0x7FEFFFFFFFFFFFFF#64 ≠ .infinity := by decide +kernel

/-- A power of two is its own rounding. -/
theorem isRound53_pow (rc : RoundingMode) (e : ℤ) : IsRound53 rc ((2 : ℚ) ^ e) ((2 : ℚ) ^ e) := by
  have h2 : (2 : ℚ) ≠ 0 := by norm_num
  have hp : (0 : ℚ) < 2 ^ (e - 52) := by positivity
  have h52 : ((2 ^ 52 : ℕ) : ℚ) = (2 : ℚ) ^ (52 : ℤ) := by norm_num
  have he : ((2 ^ 52 : ℕ) : ℚ) * 2 ^ (e - 52) = 2 ^ e := by
    rw [h52, ← zpow_add₀ h2, add_sub_cancel]
  have ha : |(2 : ℚ) ^ e| = 2 ^ e := abs_of_pos (by positivity)
  have hn : ¬ (2 : ℚ) ^ e < 0 := not_lt.mpr (by positivity)
  refine ⟨2 ^ 52, e - 52, le_refl _, by norm_num, by rw [he, ha], ?_, ?_⟩
  · rw [add_mul, he, ha, one_mul]
    linarith
  · simp only [withSignOf, if_neg hn, chosenMagnitude, he, ha, if_true]

/-- The exact value of a product of powers of two, plus zero. -/
theorem exactVal_pow (x y : E64) (k l : Nat) (hx : valUnits x = 2 ^ k) (hy : valUnits y = 2 ^ l) :
    exactVal x y 0#64 = (2 : ℚ) ^ ((k : ℤ) + l - 2148) := by
  have h2 : (2 : ℚ) ≠ 0 := by norm_num
  have hz : valUnits 0#64 = 0 := by decide +kernel
  rw [exactVal_units, exactUnits, hx, hy, hz, sub_eq_add_neg, zpow_add₀ h2, zpow_add₀ h2, zpow_natCast, zpow_natCast]
  push_cast
  ring

/-- `2^-1022`, `2^1023`, `2^1024` and `2^-1023`, the values at which the rules for results meet. -/
theorem exactVal_boundaries :
    exactVal 0x0010000000000000#64 0x3FF0000000000000#64 0#64 = (2 : ℚ) ^ (-1022 : ℤ) ∧
    exactVal 0x7FE0000000000000#64 0x3FF0000000000000#64 0#64 = (2 : ℚ) ^ (1023 : ℤ) ∧
    exactVal 0x7FE0000000000000#64 0x4000000000000000#64 0#64 = (2 : ℚ) ^ (1024 : ℤ) ∧
    exactVal 0x0010000000000000#64 0x3FE0000000000000#64 0#64 = (2 : ℚ) ^ (-1023 : ℤ) :=
  ⟨exactVal_pow _ _ 52 1074 (by decide +kernel) (by decide +kernel),
    exactVal_pow _ _ 2097 1074 (by decide +kernel) (by decide +kernel),
    exactVal_pow _ _ 2097 1075 (by decide +kernel) (by decide +kernel),
    exactVal_pow _ _ 52 1073 (by decide +kernel) (by decide +kernel)⟩

theorem finite_boundaries : isFinite 0x0010000000000000#64 = true ∧ isFinite 0x7FE0000000000000#64 = true ∧
    isFinite 0x3FF0000000000000#64 = true ∧ isFinite 0x4000000000000000#64 = true ∧ isFinite 0x3FE0000000000000#64 = true ∧
    isFinite 0#64 = true := by decide +kernel

theorem pow_ne_zero_rat (e : ℤ) : (2 : ℚ) ^ e ≠ 0 := by positivity

theorem witness_ExactIntermediate_ExactZero :
    plainControl.daz = false ∧ isFinite 0x7FEFFFFFFFFFFFFF#64 = true ∧ isFinite 0x8000000000000000#64 = true ∧
    exactVal 0x8000000000000000#64 0#64 0#64 = 0 := by
  refine ⟨rfl, by decide +kernel, by decide +kernel, ?_⟩
  rw [exactVal_eq_zero_iff]
  decide +kernel

theorem witness_RoundingTo53Bits : isFinite 0x0010000000000000#64 = true ∧ isFinite 0x3FF0000000000000#64 = true ∧ isFinite 0#64 = true ∧
    exactVal 0x0010000000000000#64 0x3FF0000000000000#64 0#64 ≠ 0 :=
  ⟨finite_boundaries.1, finite_boundaries.2.2.1, finite_boundaries.2.2.2.2.2, by
    rw [exactVal_boundaries.1]; exact pow_ne_zero_rat _⟩

/-- Both ends of the normal range: `2^-1022`, and `2^1023` below `2^1024`. -/
theorem witness_NormalResult :
    (IsRound53 .rd (exactVal 0x0010000000000000#64 0x3FF0000000000000#64 0#64) (2 ^ (-1022 : ℤ)) ∧
      2 ^ (-1022 : ℤ) ≤ |(2 : ℚ) ^ (-1022 : ℤ)| ∧ |(2 : ℚ) ^ (-1022 : ℤ)| < 2 ^ (1024 : ℤ)) ∧
    (IsRound53 .ru (exactVal 0x7FE0000000000000#64 0x3FF0000000000000#64 0#64) (2 ^ (1023 : ℤ)) ∧
      2 ^ (-1022 : ℤ) ≤ |(2 : ℚ) ^ (1023 : ℤ)| ∧ |(2 : ℚ) ^ (1023 : ℤ)| < 2 ^ (1024 : ℤ)) := by
  have h1 : ∀ e : ℤ, |(2 : ℚ) ^ e| = 2 ^ e := fun e => abs_of_pos (by positivity)
  rw [exactVal_boundaries.1, exactVal_boundaries.2.1, h1, h1]
  exact ⟨⟨isRound53_pow _ _, le_refl _, zpow_lt_zpow_right₀ (by norm_num) (by norm_num)⟩,
    ⟨isRound53_pow _ _, zpow_le_zpow_right₀ (by norm_num) (by norm_num), zpow_lt_zpow_right₀ (by norm_num) (by norm_num)⟩⟩

/-- The least overflow, `2^1024`, masked and unmasked. -/
theorem witness_OverflowResponse :
    IsRound53 .rn (exactVal 0x7FE0000000000000#64 0x4000000000000000#64 0#64) (2 ^ (1024 : ℤ)) ∧
    2 ^ (1024 : ℤ) ≤ |(2 : ℚ) ^ (1024 : ℤ)| ∧ plainControl.om = true ∧ { plainControl with om := false }.om = false := by
  rw [exactVal_boundaries.2.2.1, abs_of_pos (by positivity)]
  exact ⟨isRound53_pow _ _, le_refl _, rfl, rfl⟩

/-- `2^-1023` is tiny; it is a multiple of `2^-1074`. -/
theorem witness_UnderflowResponse :
    IsRound53 .rn (exactVal 0x0010000000000000#64 0x3FE0000000000000#64 0#64) (2 ^ (-1023 : ℤ)) ∧
    |(2 : ℚ) ^ (-1023 : ℤ)| < 2 ^ (-1022 : ℤ) ∧ plainControl.um = true ∧ plainControl.ftz = false ∧
    { plainControl with um := false }.um = false ∧
    IsRoundDenormal .rn (exactVal 0x0010000000000000#64 0x3FE0000000000000#64 0#64) (2 ^ (-1023 : ℤ)) := by
  have h2 : (2 : ℚ) ≠ 0 := by norm_num
  have h51 : ((2 ^ 51 : ℕ) : ℚ) = (2 : ℚ) ^ (51 : ℤ) := by norm_num
  have he : ((2 ^ 51 : ℕ) : ℚ) * 2 ^ (-1074 : ℤ) = 2 ^ (-1023 : ℤ) := by
    rw [h51, ← zpow_add₀ h2]
    rfl
  have ha : |(2 : ℚ) ^ (-1023 : ℤ)| = 2 ^ (-1023 : ℤ) := abs_of_pos (by positivity)
  have hn : ¬ (2 : ℚ) ^ (-1023 : ℤ) < 0 := not_lt.mpr (by positivity)
  have hp : (0 : ℚ) < 2 ^ (-1074 : ℤ) := by positivity
  rw [exactVal_boundaries.2.2.2]
  refine ⟨isRound53_pow _ _, ?_, rfl, rfl, rfl, 2 ^ 51, by rw [he, ha], ?_, ?_⟩
  · rw [ha]; exact zpow_lt_zpow_right₀ (by norm_num) (by norm_num)
  · rw [add_mul, he, ha, one_mul]
    linarith
  · simp only [withSignOf, if_neg hn, chosenMagnitude, he, ha, if_true]

/-- The first clause at `2^-1023`; the second with `um = 0`, and at `2^-1022`, the least value that is not tiny. -/
theorem witness_FlushToZero :
    (IsRound53 .rn (exactVal 0x0010000000000000#64 0x3FE0000000000000#64 0#64) (2 ^ (-1023 : ℤ)) ∧
      |(2 : ℚ) ^ (-1023 : ℤ)| < 2 ^ (-1022 : ℤ) ∧ { plainControl with ftz := true }.um = true) ∧
    { plainControl with um := false }.um = false ∧
    (∃ ru : ℚ, IsRound53 .rn (exactVal 0x0010000000000000#64 0x3FF0000000000000#64 0#64) ru ∧ 2 ^ (-1022 : ℤ) ≤ |ru|) := by
  have h1 : ∀ e : ℤ, |(2 : ℚ) ^ e| = 2 ^ e := fun e => abs_of_pos (by positivity)
  rw [exactVal_boundaries.1, exactVal_boundaries.2.2.2, h1]
  exact ⟨⟨isRound53_pow _ _, zpow_lt_zpow_right₀ (by norm_num) (by norm_num), rfl⟩, rfl,
    2 ^ (-1022 : ℤ), isRound53_pow _ _, by rw [h1]⟩

theorem witness_DirectedModesBracket : isFinite 0x7FE0000000000000#64 = true ∧ isFinite 0x4000000000000000#64 = true ∧
    isFinite 0#64 = true := ⟨finite_boundaries.2.1, finite_boundaries.2.2.2.1, finite_boundaries.2.2.2.2.2⟩

theorem witness_MonotoneRounding :
    plainControl.daz = false ∧ plainControl.ftz = false ∧ plainControl.om = true ∧ plainControl.um = true ∧
    exactVal 0x0010000000000000#64 0x3FE0000000000000#64 0#64 ≤ exactVal 0x7FE0000000000000#64 0x4000000000000000#64 0#64 := by
  rw [exactVal_boundaries.2.2.1, exactVal_boundaries.2.2.2]
  exact ⟨rfl, rfl, rfl, rfl, zpow_le_zpow_right₀ (by norm_num) (by norm_num)⟩

/-- A normal number at the lower end, and a zero. -/
theorem witness_ExactResult :
    (classOf 0x0010000000000000#64 = .normal ∧
      realVal 0x0010000000000000#64 = exactVal 0x0010000000000000#64 0x3FF0000000000000#64 0#64) ∧
    (classOf 0x8000000000000000#64 = .zero ∧ realVal 0x8000000000000000#64 = exactVal 0#64 0#64 0#64) := by
  have h2 : (2 : ℚ) ≠ 0 := by norm_num
  refine ⟨⟨by decide +kernel, ?_⟩, by decide +kernel, ?_⟩
  · have h52 : ((2 ^ 52 : ℤ) : ℚ) = (2 : ℚ) ^ (52 : ℤ) := by norm_num
    rw [exactVal_boundaries.1, realVal_eq, show valUnits 0x0010000000000000#64 = 2 ^ 52 by decide +kernel, h52, ← zpow_add₀ h2]
    rfl
  · rw [(exactVal_eq_zero_iff _ _ _).mpr (by decide +kernel), realVal_eq,
      show valUnits 0x8000000000000000#64 = 0 by decide +kernel]
    simp

theorem witness_FactorSymmetry : plainControl.nanRule = .firstOperand ∧
    ¬(isNaN 0x7FF8000000000000#64 = true ∧ isNaN 0x3FF0000000000000#64 = true) := by decide +kernel

theorem witness_NaNClosure : plainControl.daz = false ∧
    isNaN (fma64 plainControl 0x7FF0000000000000#64 0#64 0#64).res = true := by decide +kernel

theorem witness_MultiplyByOne : classOf 0x0010000000000000#64 = .normal ∧ classOf 0xFFF0000000000000#64 = .infinity ∧
    classOf 0x8000000000000000#64 = .zero := by decide +kernel

/-! ### Frames and invariants -/

theorem witness_InstructionFrame :
    (∃ t, exec (.vfmadd132pdVex128 [] 1 2 (.reg 3)) ready = .next t) ∧
    (∃ t, exec (.vfmadd213pdEvex256 [] ⟨1, true⟩ 17 2 (.reg 3)) ready = .next t) ∧
    (∃ t, exec (.vfmadd231pdEvex512Er [] .rd ⟨1, false⟩ 31 2 3) ready = .next t) :=
  ⟨next_of_control (p := (0x1005#64, 0x1F80#32)) (by decide +kernel), next_of_control (p := (0x1006#64, 0x1F80#32)) (by decide +kernel),
    next_of_control (p := (0x1006#64, 0x1F80#32)) (by decide +kernel)⟩

/-- An exception of the arithmetic, one before the operands, and one of the fetch. -/
theorem witness_PreciseExceptions :
    (∃ t, exec (.vfmadd213pdVex128 [] 1 2 (.reg 3)) readyUnmasked = .fault (.exception .simdFloatingPoint t)) ∧
    (∃ t, exec (.vfmadd213pdVex128 [.lock] 1 2 (.reg 3)) ready = .fault (.exception .invalidOpcode t)) ∧
    (∃ t, step { ready with xlat := [] } = .fault (.exception (.pageFault 0x14#32 0x1000#64) t)) :=
  ⟨fault_of_raised (m := 0x1F01#32) (by decide +kernel), fault_of_raised (m := 0x1F80#32) (by decide +kernel),
    fault_of_raised (m := 0x1F80#32) (by decide +kernel)⟩

theorem witness_DivideByZeroFlagNeverSet :
    (∃ t, exec (.vfmadd132pdVex128 [] 1 2 (.reg 3)) ready = .next t) ∧
    (∃ e t, exec (.vfmadd213pdVex128 [] 1 2 (.reg 3)) readyUnmasked = .fault (.exception e t)) :=
  ⟨witness_InstructionFrame.1, _, witness_PreciseExceptions.1⟩

theorem witness_EvexUpperBitsZero : ∃ t, exec (mkEvex .k213 .v256 [] ⟨1, true⟩ 17 2 (.reg 3)) ready = .next t :=
  witness_InstructionFrame.2.1

theorem witness_VexUpperBitsZero : ∃ t, exec (mkVex .k132 .v128 [] 1 2 (.reg 3)) ready = .next t := witness_InstructionFrame.1

/-- Register forms that complete and that fault, and memory forms at one address with the two displacement scales. -/
theorem witness_EvexMatchesVex :
    VexReady [] ready ∧ EvexReady true [] ⟨0#3, false⟩ ready ∧ VexReady [] readyUnmasked ∧ EvexReady true [] ⟨0#3, false⟩ readyUnmasked ∧
    (∃ t, exec (mkVex .k132 .v128 [] 1 2 (.reg 3)) ready = .next t) ∧
    (∃ f, exec (mkVex .k213 .v128 [] 1 2 (.reg 3)) readyUnmasked = .fault f) ∧
    vexAddr ready [] (.based 0 (.disp8 16)) = fullAddr ready [] .v128 (.based 0 (.disp8 1)) ∧
    stackBased (.based 0 (.disp8 16)) = stackBased (.based 0 (.disp8 1)) ∧
    (MemOperand.based 0 (.disp8 16)).tailSize = (MemOperand.based 0 (.disp8 1)).tailSize ∧
    (∃ t, exec (mkVex .k213 .v128 [] 1 2 (.mem (.based 0 (.disp8 16)))) ready = .next t) ∧
    (∃ t, exec (mkVex .k213 .v128 [] 1 2 (.mem (.based 0 (.disp8 16)))) readyHigh = .fault (.exception .generalProtection t)) :=
  ⟨vexReady_of_ok (by decide +kernel), evexReady_of_ok (by decide +kernel), vexReady_of_ok (by decide +kernel),
    evexReady_of_ok (by decide +kernel), witness_InstructionFrame.1,
    witness_PreciseExceptions.1.elim (fun t h => ⟨_, h⟩), by decide +kernel, by decide, by decide,
    next_of_control (p := (0x1006#64, 0x1F80#32)) (by decide +kernel), fault_of_raised (m := 0x1F80#32) (by decide +kernel)⟩

/-- A change of what `k1 = A5H` excludes: element 1 of `ZMM3` becomes an SNaN. -/
def maskedChange (s : State) : State := { s with zmm := s.zmm.set 3 ((s.zmm[3]).set 1 0x7FF0000000000001#64) }

/-- The active elements of the three registers stay. -/
theorem maskedChange_same : ∀ q : VReg, q = 1 ∨ q = 2 ∨ q = 3 → ∀ j, j < 8 → maskOn ready ⟨1, false⟩ j = true →
    lane (readZmm (maskedChange ready) q) j = lane (readZmm ready q) j := by
  rintro q (rfl | rfl | rfl) <;> decide +kernel

/-- A register form, one with embedded rounding, and a fault: `k1` excludes element 1 of `ZMM3`, which becomes an SNaN. -/
theorem witness_MaskedElementsIrrelevant :
    (∀ q : VReg, q = 1 ∨ q = 2 ∨ q = 3 → ∀ j, j < 8 → maskOn ready ⟨1, false⟩ j = true →
      lane (readZmm (maskedChange ready) q) j = lane (readZmm ready q) j) ∧
    sameSource ready (maskedChange ready) [] .v512 ⟨1, false⟩ (.reg 3) ∧
    (∃ t, exec (mkEvex .k213 .v512 [] ⟨1, false⟩ 1 2 (.reg 3)) ready = .next t) ∧
    (∃ t, exec (mkEr .k213 [] .rz ⟨1, false⟩ 1 2 3) ready = .next t) ∧
    (∃ t, exec (mkEvex .k213 .v512 [] ⟨1, false⟩ 1 2 (.reg 3)) { readyUnmasked with k := Vector.replicate 8 2#64 } =
      .fault (.exception .simdFloatingPoint t)) :=
  ⟨maskedChange_same, maskedChange_same 3 (by simp), next_of_control (p := (0x1006#64, 0x1F80#32)) (by decide +kernel),
    next_of_control (p := (0x1006#64, 0x1F80#32)) (by decide +kernel), fault_of_raised (m := 0x1F01#32) (by decide +kernel)⟩

/-- The same state with element 1 of the operand at `RAX` unmapped, and element 3, also masked off, changed in memory. -/
def maskedMemory : State :=
  { ready with
    mem := Memory.writeBytes [] 0x2018 (bytesOf64 0x7FF0000000000001#64)
    xlat := { base := 0x2008, size := 8, access := some .dataRead, level := none, outcome := .pageFault 4#32 } :: identityXlat }

/-- A full-vector operand, and a broadcast of the element that is not touched; both complete. -/
theorem witness_MaskedElementsIrrelevant_mem :
    sameSource ready maskedMemory [] .v512 ⟨1, false⟩ (.full (.based 0 .none)) ∧
    sameSource ready maskedMemory [] .v512 ⟨1, false⟩ (.bcast (.based 0 .none)) ∧
    (∃ t, exec (mkEvex .k213 .v512 [] ⟨1, false⟩ 1 2 (.full (.based 0 .none))) ready = .next t) ∧
    (∃ t, exec (mkEvex .k213 .v512 [] ⟨1, false⟩ 1 2 (.full (.based 0 .none))) maskedMemory = .next t) := by
  have hf : ∀ o, o < 64 → maskOn ready ⟨1, false⟩ (o / 8) = true →
      Machine.translate maskedMemory .dataRead (byteAddr (fullAddr ready [] .v512 (.based 0 .none)) o) =
        Machine.translate ready .dataRead (byteAddr (fullAddr ready [] .v512 (.based 0 .none)) o) := by decide +kernel
  have hb : ∀ o, o < 8 → Machine.translate maskedMemory .dataRead (byteAddr (bcastAddr ready [] (.based 0 .none)) o) =
      Machine.translate ready .dataRead (byteAddr (bcastAddr ready [] (.based 0 .none)) o) := by decide +kernel
  exact ⟨⟨fun o ho => hf o ho.1 (ho.2 rfl), by decide +kernel⟩, ⟨fun o ho => hb o ho.1, fun _ => by decide +kernel⟩,
    next_of_control (p := (0x1006#64, 0x1F80#32)) (by decide +kernel),
    next_of_control (p := (0x1006#64, 0x1F80#32)) (by decide +kernel)⟩

/-- A machine without `AVX512F` and with 16-bit opmask registers. -/
def readyAvx : State :=
  { ready with
    zmm := Vector.replicate 32 (Vector.replicate 8 0#64)
    k := Vector.replicate 8 0#64
    cfg := { ready.cfg with hasAVX512F := false, hasAVX512VL := false, wideOpmask := false } }

theorem readyAvx_inv (bytes : List Byte) : Inv (placeAtFetch readyAvx bytes) where
  memory := wf_placeAtFetch (by decide) bytes
  reserved := by
    rw [placeAtFetch_mxcsr]
    decide
  absent := by
    refine ⟨fun _ r j hj _ => ?_, fun _ r => ?_, fun _ r => ?_⟩
    · simp [readZmm, readyAvx, lane, hj]
    · simp [readK, readyAvx, placeAtFetch]
    · simp [readK, readyAvx, placeAtFetch]

/-- The invariant and a completed step, with and without `AVX512F`. -/
theorem witness_StepKeepsInv :
    (Inv (placeAtFetch readyAvx [0xC4#8, 0xE2#8, 0xE9#8, 0x98#8, 0xCB#8]) ∧
      ∃ t, step (placeAtFetch readyAvx [0xC4#8, 0xE2#8, 0xE9#8, 0x98#8, 0xCB#8]) = .next t) ∧
    (Inv (placeAtFetch ready [0x62#8, 0xF2#8, 0xED#8, 0x49#8, 0xA8#8, 0xCB#8]) ∧
      ∃ t, step (placeAtFetch ready [0x62#8, 0xF2#8, 0xED#8, 0x49#8, 0xA8#8, 0xCB#8]) = .next t) := by
  refine ⟨⟨readyAvx_inv _, next_of_control (p := (0x1005#64, 0x1F80#32)) (by decide +kernel)⟩,
    ⟨wf_placeAtFetch (by decide) _, by decide, ?_, ?_, ?_⟩, next_of_control (p := (0x1006#64, 0x1F80#32)) (by decide +kernel)⟩
  · intro h; exact absurd h (by decide)
  · intro h; exact absurd h (by decide)
  · intro h; exact absurd h (by decide)

/-! ### Addresses and memory -/

/-- One list for each clause; ignored overrides stand before and after the one that decides. -/
theorem witness_SegmentBase :
    (LegacyPrefix.fs ∉ [LegacyPrefix.ds, .addr32] ∧ LegacyPrefix.gs ∉ [LegacyPrefix.ds, .addr32]) ∧
    ([LegacyPrefix.gs, .ss, .fs, .ds, .addr32] = [.gs, .ss] ++ [.fs] ++ [.ds, .addr32] ∧ LegacyPrefix.gs ∉ [LegacyPrefix.ds, .addr32]) ∧
    ([LegacyPrefix.fs, .gs, .es] = [.fs] ++ [.gs] ++ [.es] ∧ LegacyPrefix.fs ∉ [LegacyPrefix.es]) := by decide

/-- An element across the end of a page. -/
theorem witness_LittleEndianElement :
    ∀ o, o < 8 → Machine.translate readyMem .dataRead (byteAddr 0x2FFC#64 o) = .storage (0x2FFC + o) := by decide +kernel

end Sys2Proof.Machine
end

section
/-! The state after reset (R38): what each register reads as, and that no instruction of the family runs there. -/

namespace Sys2Proof.Machine

/-! ## `#UD` before the operands are read -/

/-- A VEX form with a condition of R192 raises `#UD`, whatever its operands are (R201). -/
theorem vexFmadd_of_undefined {pfx : List LegacyPrefix} {s : State} (ha : Admitted s) (hu : vexUndefined pfx s = true)
    (k : Kind) (w : VexLen) (d v : BitVec 4) (r : VexSrc3) : vexFmadd k w pfx d v r s = raise .invalidOpcode s := by
  simp only [vexFmadd, hu, gate_undefined ha]

/-- An EVEX form with a condition of R194 raises `#UD`, whatever its operands are (R201). -/
theorem evexFmadd_of_undefined {w : EvexLen} {pfx : List LegacyPrefix} {mk : Masking} {s : State} (ha : Admitted s)
    (hu : evexUndefined w.needsVL pfx mk s = true) (k : Kind) (d v : VReg) (r : EvexSrc3) :
    evexFmadd k w pfx mk d v r s = raise .invalidOpcode s := by
  simp only [evexFmadd, needsVL_eq, hu, gate_undefined ha]

/-- An embedded-rounding form with a condition of R194 raises `#UD`, whatever its operands are (R201). -/
theorem erFmadd_of_undefined {pfx : List LegacyPrefix} {mk : Masking} {s : State} (ha : Admitted s)
    (hu : evexUndefined false pfx mk s = true) (k : Kind) (rc : RoundingMode) (d v r : VReg) :
    erFmadd k pfx rc mk d v r s = raise .invalidOpcode s := by
  simp only [erFmadd, hu, gate_undefined ha]

/-- Outside 64-bit mode every instruction of the family raises `#UD` (R38, R108). -/
theorem exec_of_mode_ne_mode64 {s : State} (ha : Admitted s) (hm : s.mode ≠ .mode64) (i : Instr) :
    exec i s = raise .invalidOpcode s := by
  have hvex (pfx : List LegacyPrefix) : vexUndefined pfx s = true := (vexUndefined_eq_true_iff pfx s).mpr (.inl hm)
  have hevex (vl : Bool) (pfx : List LegacyPrefix) (mk : Masking) : evexUndefined vl pfx mk s = true :=
    (evexUndefined_eq_true_iff vl pfx mk s).mpr (.inl hm)
  obtain ⟨k, w, pfx, d, v, r, rfl⟩ | ⟨k, w, pfx, mk, d, v, r, rfl⟩ | ⟨k, pfx, rc, mk, d, v, r, rfl⟩ := instr_cases i
  · rw [exec_mkVex, vexFmadd_of_undefined ha (hvex pfx)]
  · rw [exec_mkEvex, evexFmadd_of_undefined ha (hevex w.needsVL pfx mk)]
  · rw [exec_mkEr, erFmadd_of_undefined ha (hevex false pfx mk)]

/-! ## The registers after reset -/

@[simp] theorem readGpr_reset (r : Gpr) : readGpr State.reset r = 0#64 := by
  simp [readGpr, State.reset]

@[simp] theorem readK_reset (r : OpmaskNum) : readK State.reset r = 0#64 := by
  simp [readK, State.reset]

@[simp] theorem readZmm_reset (r : VReg) : readZmm State.reset r = Vector.replicate 8 0#64 := by
  simp [readZmm, State.reset]

/-- Every element of a zero register is 0, also past its end (R7). -/
@[simp] theorem lane_replicate_zero (j : Nat) : lane (Vector.replicate 8 0#64) j = 0#64 := by
  simp [lane]

/-- Reset leaves real-address mode with `MXCSR[31:16] = 0` and `RFLAGS.TF = 0`, so an instruction has a meaning there. -/
theorem admitted_reset : Admitted State.reset where
  mode := .inr (.inl rfl)
  reserved := rfl
  noTrap := rfl

/-- Settles O20: the registers by their read lemmas, the fields as reset sets them, and `#UD` because reset is in real-address mode. -/
theorem resetState : Obligations.ResetState := by
  have hud (i : Instr) : exec i State.reset = raise .invalidOpcode State.reset :=
    exec_of_mode_ne_mode64 admitted_reset (by decide) i
  have hlane (r : VReg) (j : Nat) : lane (readZmm State.reset r) j = 0#64 := by
    rw [readZmm_reset, lane_replicate_zero]
  exact ⟨rfl, hlane, readK_reset, fun r _ => readGpr_reset r, rfl, rfl, rfl, rfl, rfl, rfl, rfl, rfl, rfl, rfl, hud⟩

end Sys2Proof.Machine
end

section
/-! The form and length that the bytes tell (R95), the reserved encodings of the EVEX space (R103 to R105), and the encodings next to the
family (R106). -/

namespace Sys2Proof

/-! ## Reading words of either escape -/

/-- A first byte that is neither a prefix nor an escape is not of the family (R95, R226). -/
theorem decode_of_no_escape (pfx : List LegacyPrefix) {b : Byte} (rest : List Byte) (hb : prefixOfByte b = none)
    (hvex : b ≠ 0xC4#8) (hevex : b ≠ 0x62#8) : decode (pfx.map byteOfPrefix ++ b :: rest) = .outside := by
  rw [decode_map_append pfx rest hb, decodeBody, if_neg hvex, if_neg hevex]

/-- The VEX escape leads to rows 1 to 6, with the length of R95. -/
theorem row_size_of_decode_vex {pfx : List LegacyPrefix} {b1 b2 op modrm : Byte} {tail : List Byte} {i : Instr}
    (h : decode (pfx.map byteOfPrefix ++ 0xC4#8 :: b1 :: b2 :: op :: modrm :: tail) = .instr i) :
    i.row ≤ 6 ∧ i.size = pfx.length + 3 + 2 + operandTail modrm tail := by
  rw [decode_vex] at h
  obtain ⟨_, _, _, _, _, _, hbytes, _, _, _, _, hi⟩ := decodeVex_eq_instr h
  cases hbytes
  obtain ⟨_, hsize, _, hrow, _⟩ := vexOperands_instr hi
  exact ⟨hrow, hsize⟩

/-- The EVEX escape leads to rows 7 to 18, with the length of R95. -/
theorem row_size_of_decode_evex {pfx : List LegacyPrefix} {p0 p1 p2 op modrm : Byte} {tail : List Byte} {i : Instr}
    (h : decode (pfx.map byteOfPrefix ++ 0x62#8 :: p0 :: p1 :: p2 :: op :: modrm :: tail) = .instr i) :
    7 ≤ i.row ∧ i.size = pfx.length + 4 + 2 + operandTail modrm tail := by
  rw [decode_evex] at h
  obtain ⟨_, _, _, _, _, _, _, hbytes, _, _, _, _, hi⟩ := decodeEvex_eq_instr h
  cases hbytes
  obtain ⟨_, hsize, _, hrow, _⟩ := evexOperands_instr hi
  exact ⟨hrow, hsize⟩

/-- Settles O5: one lemma for each of the two escapes and one for every other first byte. -/
theorem instructionLength : Obligations.InstructionLength :=
  ⟨fun _ _ _ _ _ _ _ h => row_size_of_decode_vex h, fun _ _ _ _ _ _ _ _ h => row_size_of_decode_evex h,
    fun pfx _ rest hb hvex hevex => decode_of_no_escape pfx rest hb hvex hevex⟩

/-! ## Reserved encodings -/

/-- A reserved bit makes a whole EVEX word reserved (R103). -/
theorem evexOperands_of_reservedBits {p0 p1 modrm : Byte} {tail : List Byte} (hlen : operandTail modrm tail ≤ tail.length)
    (hbits : p0.extractLsb' 2 2 ≠ 0b00#2 ∨ p1.extractLsb' 2 1 ≠ 1#1) (pfx : List LegacyPrefix) (k : Kind) (p2 : Byte) :
    evexOperands pfx k p0 p1 p2 modrm tail = .reserved := by
  rcases evexOperands_spec pfx k p0 p1 p2 modrm tail with ⟨hshort, _⟩ | ⟨_, _, hres⟩ | ⟨_, h0, h1, _⟩
  · omega
  · simpa only [List.take_append_drop] using hres (tail.drop (operandTail modrm tail))
  · exact absurd hbits (by simp [h0, h1])

/-- `L'L = 11b` is reserved where it does not stand for `{rz-sae}` (R88, R91, R104). -/
theorem evexInstr_of_reservedLength {p2 : Byte} {src3 : VReg ⊕ MemOperand} (hll : p2.extractLsb' 5 2 = 0b11#2)
    (her : ¬(p2.extractLsb' 4 1 = 1#1 ∧ ∃ r, src3 = .inl r)) (pfx : List LegacyPrefix) (k : Kind) (d v : VReg) :
    evexInstr pfx k p2 d v src3 = .reserved := by
  rcases evexInstr_spec pfx k p2 d v src3 with ⟨hres, _⟩ | ⟨_, _, r, hr, hb, _⟩ | ⟨w, _, _, _, hw, _⟩
  · exact hres
  · exact absurd ⟨hb, r, hr⟩ her
  · rw [(evexLenOfBits_eq_none_iff _).mpr hll] at hw
    cases hw

/-- `L'L = 11b` outside the embedded-rounding register form makes a whole EVEX word reserved (R104), if a reserved bit of R103 does
not do so already. -/
theorem evexOperands_of_reservedLength {p2 modrm : Byte} {tail : List Byte} (hlen : operandTail modrm tail ≤ tail.length)
    (hll : p2.extractLsb' 5 2 = 0b11#2) (her : ¬(p2.extractLsb' 4 1 = 1#1 ∧ modrm.extractLsb' 6 2 = 0b11#2))
    (pfx : List LegacyPrefix) (k : Kind) (p0 p1 : Byte) : evexOperands pfx k p0 p1 p2 modrm tail = .reserved := by
  rcases evexOperands_spec pfx k p0 p1 p2 modrm tail with ⟨hshort, _⟩ | ⟨_, hbits, _⟩ | ⟨_, _, _, d, v, src3, _, _, hmod, hinstr⟩
  · omega
  · exact evexOperands_of_reservedBits hlen hbits pfx k p2
  · rw [hmod] at her
    have hread := hinstr (tail.drop (operandTail modrm tail))
    rwa [List.take_append_drop, evexInstr_of_reservedLength hll her] at hread

/-! ## Encodings next to the family -/

theorem kindOfOpcode_eq_none_iff (b : Byte) : kindOfOpcode b = none ↔ (b ≠ 0x98#8 ∧ b ≠ 0xA8#8 ∧ b ≠ 0xB8#8) := by
  have h := not_congr (kindOfOpcode_isSome_iff b)
  rwa [← Option.isSome_iff_exists, Bool.not_eq_true, Option.isSome_eq_false_iff, Option.isNone_iff_eq_none, not_or, not_or] at h

/-- Another map, `W`, `pp` or opcode byte after the VEX escape is not of the family (R81, R106). -/
theorem decodeVex_outside {b1 b2 op : Byte} (h : b1.extractLsb' 0 5 ≠ 0b00010#5 ∨ b2.extractLsb' 7 1 ≠ 1#1 ∨
    b2.extractLsb' 0 2 ≠ 0b01#2 ∨ (op ≠ 0x98#8 ∧ op ≠ 0xA8#8 ∧ op ≠ 0xB8#8)) (pfx : List LegacyPrefix) :
    decodeVex pfx [b1, b2, op] = .outside := by
  by_cases hmap : b1.extractLsb' 0 5 ≠ 0b00010#5
  · simp only [decodeVex, if_pos hmap]
  by_cases hwpp : b2.extractLsb' 7 1 ≠ 1#1 ∨ b2.extractLsb' 0 2 ≠ 0b01#2
  · simp only [decodeVex, if_neg hmap, if_pos hwpp]
  have hop : kindOfOpcode op = none := (kindOfOpcode_eq_none_iff op).mpr (by tauto)
  simp only [decodeVex, if_neg hmap, if_neg hwpp, hop]

/-- Another map, `W`, `pp` or opcode byte after the EVEX escape is not of the family (R86, R106). -/
theorem decodeEvex_outside {p0 p1 op : Byte} (h : p0.extractLsb' 0 2 ≠ 0b10#2 ∨ p1.extractLsb' 7 1 ≠ 1#1 ∨
    p1.extractLsb' 0 2 ≠ 0b01#2 ∨ (op ≠ 0x98#8 ∧ op ≠ 0xA8#8 ∧ op ≠ 0xB8#8)) (pfx : List LegacyPrefix) (p2 : Byte) :
    decodeEvex pfx [p0, p1, p2, op] = .outside := by
  by_cases hmap : p0.extractLsb' 0 2 ≠ 0b10#2
  · simp only [decodeEvex, if_pos hmap]
  by_cases hwpp : p1.extractLsb' 7 1 ≠ 1#1 ∨ p1.extractLsb' 0 2 ≠ 0b01#2
  · simp only [decodeEvex, if_neg hmap, if_pos hwpp]
  have hop : kindOfOpcode op = none := (kindOfOpcode_eq_none_iff op).mpr (by tauto)
  simp only [decodeEvex, if_neg hmap, if_neg hwpp, hop]

namespace Machine

/-! ## The step on bytes that are no instruction -/

/-- Fetched bytes of a reserved encoding raise `#UD`, whatever follows them (R103, R104). -/
theorem step_of_reserved {s : State} {bytes : List Byte} (hs : Running s) (hf : Fetches s bytes) (hlen : bytes.length ≤ 15)
    (hd : decode bytes = .reserved) : step s = raise .invalidOpcode s := by
  rw [step_of_running hs, decode_fetchWindow hf hlen (by simp [hd]), hd]

/-- Fetched bytes next to the family are refused, whatever follows them (R106). -/
theorem step_of_outside {s : State} {bytes : List Byte} (hs : Running s) (hf : Fetches s bytes) (hlen : bytes.length ≤ 15)
    (hd : decode bytes = .outside) : step s = .refused .outsideFamily := by
  rw [step_of_running hs, decode_fetchWindow hf hlen (by simp [hd]), hd]

/-- An EVEX word of the family whose operands are read as reserved raises `#UD`. -/
theorem step_of_evexOperands_reserved {s : State} {pfx : List LegacyPrefix} {p0 p1 p2 op modrm : Byte} {tail : List Byte}
    (hs : Running s) (hf : Fetches s (pfx.map byteOfPrefix ++ [0x62#8, p0, p1, p2, op, modrm] ++ tail))
    (hlen : pfx.length + 6 + tail.length ≤ 15) (hmap : p0.extractLsb' 0 2 = 0b10#2) (hw : p1.extractLsb' 7 1 = 1#1)
    (hpp : p1.extractLsb' 0 2 = 0b01#2) (hop : op = 0x98#8 ∨ op = 0xA8#8 ∨ op = 0xB8#8)
    (hres : ∀ k, evexOperands pfx k p0 p1 p2 modrm tail = .reserved) : step s = raise .invalidOpcode s := by
  obtain ⟨k, hk⟩ := (kindOfOpcode_isSome_iff op).mpr hop
  have hbytes : (pfx.map byteOfPrefix ++ [0x62#8, p0, p1, p2, op, modrm] ++ tail).length ≤ 15 := by
    simp only [List.length_append, List.length_map, List.length_cons, List.length_nil]
    omega
  refine step_of_reserved hs hf hbytes ?_
  calc decode (pfx.map byteOfPrefix ++ [0x62#8, p0, p1, p2, op, modrm] ++ tail)
      = decodeEvex pfx (p0 :: p1 :: p2 :: op :: modrm :: tail) := by
        rw [List.append_assoc]; exact decode_evex pfx _
    _ = evexOperands pfx k p0 p1 p2 modrm tail := decodeEvex_family hmap hw hpp hk
    _ = .reserved := hres k

/-- Settles O7: the reserved bits decide the word once its operand bytes are there. -/
theorem reservedBitsRaiseUD : Obligations.ReservedBitsRaiseUD := by
  intro s pfx p0 p1 p2 op modrm tail hs hf hlen htail hmap hw hpp hop hbits
  exact step_of_evexOperands_reserved hs hf hlen hmap hw hpp hop
    fun k => evexOperands_of_reservedBits htail hbits pfx k p2

/-- Settles O8: `L'L = 11b` names no vector length, and only the embedded-rounding register form does not need one. -/
theorem reservedLengthRaisesUD : Obligations.ReservedLengthRaisesUD := by
  intro s pfx p0 p1 p2 op modrm tail hs hf hlen htail hmap hw hpp hop hll her
  exact step_of_evexOperands_reserved hs hf hlen hmap hw hpp hop
    fun k => evexOperands_of_reservedLength htail hll her pfx k p0 p1

/-- Settles O10: each clause names bytes that decode to `outside` by themselves, so the step refuses them. -/
theorem outsideFamilyRefused : Obligations.OutsideFamilyRefused := by
  intro s pfx hs
  refine ⟨fun b hlen hf hb hvex hevex => ?_, fun b1 b2 op hlen hf h => ?_, fun p0 p1 p2 op hlen hf h => ?_⟩
  · exact step_of_outside hs hf (by simpa using hlen) (decode_of_no_escape pfx [] hb hvex hevex)
  · exact step_of_outside hs hf (by simpa using hlen) ((decode_vex pfx _).trans (decodeVex_outside h pfx))
  · exact step_of_outside hs hf (by simpa using hlen) ((decode_evex pfx _).trans (decodeEvex_outside h pfx p2))

/-! ## Zeroing without a mask -/

/-- Condition h of R194: `z = 1` with `aaa = 000b` (R105). -/
theorem evexUndefined_of_zeroing_unmasked (vl : Bool) (pfx : List LegacyPrefix) (s : State) :
    evexUndefined vl pfx ⟨0#3, true⟩ s = true :=
  (evexUndefined_eq_true_iff vl pfx _ s).mpr (by simp)

/-- Settles O9: zeroing without a mask is a `#UD` condition of both EVEX templates. -/
theorem zeroingWithoutMaskRaisesUD : Obligations.ZeroingWithoutMaskRaisesUD := by
  intro k pfx d v s ha
  refine ⟨fun w r => ?_, fun rc r => ?_⟩
  · rw [exec_mkEvex, evexFmadd_of_undefined ha (evexUndefined_of_zeroing_unmasked w.needsVL pfx s)]
  · rw [exec_mkEr, erFmadd_of_undefined ha (evexUndefined_of_zeroing_unmasked false pfx s)]

end Machine

end Sys2Proof
end

section
/-! The element function on its operands (R123 to R130): denormals-are-zero, NaN operands, invalid operations and infinite operands, with
one equation for each case of R124. -/

namespace Sys2Proof.Machine

/-! ## Elements written out -/

theorem zeroE_eq (neg : Bool) : zeroE neg = if neg then 0x8000000000000000#64 else 0#64 := by
  cases neg <;> rfl

theorem infE_eq (neg : Bool) : infE neg = if neg then 0xFFF0000000000000#64 else 0x7FF0000000000000#64 := by
  cases neg <;> rfl

theorem maxE_eq (neg : Bool) : maxE neg = if neg then 0xFFEFFFFFFFFFFFFF#64 else 0x7FEFFFFFFFFFFFFF#64 := by
  cases neg <;> rfl

@[simp] theorem classOf_zeroE (neg : Bool) : classOf (zeroE neg) = .zero := by
  cases neg <;> rfl

/-- `quiet` sets bit 51 and no other bit (R122). -/
theorem getLsbD_quiet (w : E64) (n : Nat) : (quiet w).getLsbD n = if n = 51 then true else w.getLsbD n := by
  have hbit : 0x0008000000000000#64 = BitVec.twoPow 64 51 := rfl
  rw [quiet, BitVec.getLsbD_or, hbit, BitVec.getLsbD_twoPow]
  by_cases h : n = 51
  · simp [h]
  · simp [h, Ne.symm h]

/-- An element that is neither a NaN nor finite is an infinity (R122). -/
theorem classOf_infinity_of_not_finite {w : E64} (hn : isNaN w = false) (hf : isFinite w = false) : classOf w = .infinity := by
  have hexp : expOf w = 2047 := by
    by_contra h
    rw [(isFinite_iff w).mpr h] at hf
    cases hf
  refine (classOf_infinity_iff w).mpr ⟨hexp, ?_⟩
  by_contra h
  rw [(isNaN_iff w).mpr ⟨hexp, h⟩] at hn
  cases hn

/-! ## Denormals-are-zero -/

@[simp] theorem dazOperand_off (w : E64) : dazOperand false w = w := rfl

theorem dazOperand_on (w : E64) : dazOperand true w = if classOf w = .denormal then zeroE (signOf w) else w := by
  simp only [dazOperand, Bool.true_and, beq_iff_eq]

/-- After the replacement no operand is a denormal (R123). -/
theorem classOf_dazOperand_on (w : E64) : classOf (dazOperand true w) ≠ .denormal := by
  rw [dazOperand_on]
  split
  · simp
  · assumption

/-- Without denormals-are-zero the element function is the cases of R124 on the operands themselves. -/
theorem fma64_of_daz_off {p : FpControl} (hd : p.daz = false) (x y z : E64) : fma64 p x y z = fmaCases p x y z := by
  rw [fma64, hd, dazOperand_off, dazOperand_off, dazOperand_off]

/-! ## The cases of R124 -/

/-- A NaN operand (R125). -/
theorem fmaCases_of_nan (p : FpControl) {x y z : E64} (h : isNaN x = true ∨ isNaN y = true ∨ isNaN z = true) :
    fmaCases p x y z = ⟨quiet (nanPick p.nanRule x y z),
      ⟨classOf x == .snan || classOf y == .snan || classOf z == .snan, false⟩, .clear⟩ := by
  rw [fmaCases, if_pos (by simpa only [Bool.or_eq_true, or_assoc] using h)]

/-- An invalid operation (R126). -/
theorem fmaCases_of_invalid (p : FpControl) {x y z : E64} (hx : isNaN x = false) (hy : isNaN y = false) (hz : isNaN z = false)
    (h : invalidOp x y z = true) : fmaCases p x y z = ⟨indefinite, ⟨true, false⟩, .clear⟩ := by
  rw [fmaCases, if_neg (by simp [hx, hy, hz]), if_pos h]

/-- An infinite factor (R130). -/
theorem fmaCases_of_infinite_factor (p : FpControl) {x y z : E64} (hx : isNaN x = false) (hy : isNaN y = false)
    (hz : isNaN z = false) (hv : invalidOp x y z = false) (h : classOf x = .infinity ∨ classOf y = .infinity) :
    fmaCases p x y z = ⟨infE (productSign x y), ⟨false, someDenormal x y z⟩, .clear⟩ := by
  rw [fmaCases, if_neg (by simp [hx, hy, hz]), if_neg (by simp [hv]),
    if_pos (by simpa only [Bool.or_eq_true, beq_iff_eq] using h)]

/-- A finite product and an infinite addend (R130). -/
theorem fmaCases_of_infinite_addend (p : FpControl) {x y z : E64} (hx : isNaN x = false) (hy : isNaN y = false)
    (hz : isNaN z = false) (hv : invalidOp x y z = false) (hix : classOf x ≠ .infinity) (hiy : classOf y ≠ .infinity)
    (h : classOf z = .infinity) : fmaCases p x y z = ⟨z, ⟨false, someDenormal x y z⟩, .clear⟩ := by
  rw [fmaCases, if_neg (by simp [hx, hy, hz]), if_neg (by simp [hv]), if_neg (by simp [hix, hiy]), if_pos (by simp [h])]

/-- Only a denormal operand reports `DE` (R125, R126, R129). -/
theorem fmaCases_de_of_no_denormal (p : FpControl) {x y z : E64} (h : someDenormal x y z = false) :
    (fmaCases p x y z).pre.de = false := by
  unfold fmaCases
  split_ifs
  · rfl
  · rfl
  all_goals exact h

/-- With some operand not finite the control inputs do not matter, but for the NaN rule (R125, R126, R130). -/
theorem fmaCases_of_not_finite {p q : FpControl} (hr : p.nanRule = q.nanRule) {x y z : E64}
    (h : isFinite x = false ∨ isFinite y = false ∨ isFinite z = false) : fmaCases p x y z = fmaCases q x y z := by
  by_cases hnan : isNaN x = true ∨ isNaN y = true ∨ isNaN z = true
  · rw [fmaCases_of_nan p hnan, fmaCases_of_nan q hnan, hr]
  simp only [not_or, Bool.not_eq_true] at hnan
  obtain ⟨hx, hy, hz⟩ := hnan
  cases hv : invalidOp x y z with
  | true => rw [fmaCases_of_invalid p hx hy hz hv, fmaCases_of_invalid q hx hy hz hv]
  | false =>
    by_cases hinf : classOf x = .infinity ∨ classOf y = .infinity
    · rw [fmaCases_of_infinite_factor p hx hy hz hv hinf, fmaCases_of_infinite_factor q hx hy hz hv hinf]
    · obtain ⟨hix, hiy⟩ := not_or.mp hinf
      have hiz : classOf z = .infinity := by
        rcases h with h | h | h
        · exact absurd (classOf_infinity_of_not_finite hx h) hix
        · exact absurd (classOf_infinity_of_not_finite hy h) hiy
        · exact classOf_infinity_of_not_finite hz h
      rw [fmaCases_of_infinite_addend p hx hy hz hv hix hiy hiz, fmaCases_of_infinite_addend q hx hy hz hv hix hiy hiz]

/-! ## The pick among NaN operands -/

/-- The first NaN is a NaN and an operand, when there is one (R128). -/
theorem firstNaN_spec {x y z : E64} (h : isNaN x = true ∨ isNaN y = true ∨ isNaN z = true) :
    isNaN (firstNaN x y z) = true ∧ (firstNaN x y z = x ∨ firstNaN x y z = y ∨ firstNaN x y z = z) := by
  unfold firstNaN
  split
  · next hx => exact ⟨hx, .inl rfl⟩
  · next hx =>
    split
    · next hy => exact ⟨hy, .inr (.inl rfl)⟩
    · next hy => exact ⟨(h.resolve_left hx).resolve_left hy, .inr (.inr rfl)⟩

/-- A choice by two conditions among three elements is one of them. -/
theorem choice_mem (c c' : Prop) [Decidable c] [Decidable c'] (x y z : E64) :
    (if c then x else if c' then y else z) = x ∨ (if c then x else if c' then y else z) = y ∨
      (if c then x else if c' then y else z) = z := by
  split_ifs
  · exact .inl rfl
  · exact .inr (.inl rfl)
  · exact .inr (.inr rfl)

/-- Under every rule the pick is a NaN and an operand, when there is a NaN (R128). -/
theorem nanPick_spec (rule : NaNRule) {x y z : E64} (h : isNaN x = true ∨ isNaN y = true ∨ isNaN z = true) :
    isNaN (nanPick rule x y z) = true ∧ (nanPick rule x y z = x ∨ nanPick rule x y z = y ∨ nanPick rule x y z = z) := by
  cases rule with
  | firstOperand => exact firstNaN_spec h
  | anyOperand =>
    have hmem := choice_mem (Config.nanPick x y z = 0) (Config.nanPick x y z = 1) x y z
    simp only [nanPick]
    generalize (if Config.nanPick x y z = 0 then x else if Config.nanPick x y z = 1 then y else z) = pick at hmem ⊢
    by_cases hpick : isNaN pick = true
    · rw [if_pos hpick]
      exact ⟨hpick, hmem⟩
    · rw [if_neg hpick]
      exact firstNaN_spec h

/-- With the recommended rule the result is the first NaN operand, quieted (R125, R128). -/
theorem fma64_res_of_firstOperand {p : FpControl} (hd : p.daz = false) (hr : p.nanRule = .firstOperand) {x y z : E64}
    (h : isNaN x = true ∨ isNaN y = true ∨ isNaN z = true) :
    (fma64 p x y z).res = quiet (if isNaN x then x else if isNaN y then y else z) := by
  rw [fma64_of_daz_off hd, fmaCases_of_nan p h, hr]
  rfl

/-! ## The statements -/

/-- Settles O29: the replacement is the first thing done, and after it no operand is a denormal. -/
theorem denormalsAreZero : Obligations.DenormalsAreZero := by
  intro p x y z hd
  constructor
  · rw [← dazOperand_on, ← dazOperand_on, ← dazOperand_on, fma64_of_daz_off (p := { p with daz := false }) rfl, fma64, hd]
    rfl
  · rw [fma64, hd]
    refine fmaCases_de_of_no_denormal p ?_
    simp [someDenormal, classOf_dazOperand_on]

/-- Settles O30: the first case of R124, and `quiet` bit by bit. -/
theorem nanOperand : Obligations.NaNOperand := by
  refine ⟨fun p x y z hd hnan => ?_, getLsbD_quiet⟩
  rw [fma64_of_daz_off hd, fmaCases_of_nan p hnan]
  exact ⟨rfl, by simp only [Bool.or_eq_true, beq_iff_eq, or_assoc], rfl, rfl⟩

/-- Settles O31: each mnemonic passes its operands to the element function in its own order, and the first NaN in that order is taken. -/
theorem nanPickChoice : Obligations.NaNPickChoice := by
  refine ⟨fun rule x y z h => nanPick_spec rule h, fun _ _ _ => rfl, fun p dest src2 src3 hd hr h => ⟨?_, ?_, ?_⟩⟩
  · exact fma64_res_of_firstOperand hd hr (by tauto)
  · exact fma64_res_of_firstOperand hd hr (by tauto)
  · exact fma64_res_of_firstOperand hd hr (by tauto)

/-- Settles O32: each of the forms is one of the machine's invalid operations, which are the second case of R124. -/
theorem invalidOperation : Obligations.InvalidOperation := by
  intro p x y z hd hx hy hz h
  have hinvalid : invalidOp x y z = true := by
    simp only [invalidOp, infTimesZero, infMinusInf, productSign, Bool.or_eq_true, Bool.and_eq_true, beq_iff_eq, bne_iff_ne]
    tauto
  rw [fma64_of_daz_off hd, fmaCases_of_invalid p hx hy hz hinvalid]
  rfl

/-- Settles O34: the third and fourth case of R124. -/
theorem infiniteOperand : Obligations.InfiniteOperand := by
  intro p x y z hd hx hy hz hv
  rw [fma64_of_daz_off hd]
  refine ⟨fun hinf => ?_, fun hix hiy hiz => ?_⟩
  · rw [fmaCases_of_infinite_factor p hx hy hz hv hinf]
    exact ⟨infE_eq _, rfl⟩
  · rw [fmaCases_of_infinite_addend p hx hy hz hv hix hiy hiz]
    exact ⟨rfl, rfl⟩

end Sys2Proof.Machine
end

section
/-! The rounding to 53 significant bits (R133): it is unique, the machine's rounding in units of `2^-2148` is it, and the ranges and the
inexactness of R134 to R137 are the comparisons the machine makes in those units. -/

namespace Sys2Proof.Machine

/-! ## Neighbours of a magnitude -/

/-- A lower neighbour of 53 bits and an upper one of at most 53 bits of the same magnitude: the lower one's exponent is not the larger. -/
theorem bracket_exponent_le {m n : ℕ} {p q : ℤ} {b : ℚ} (hm : 2 ^ 52 ≤ m) (hn : n < 2 ^ 53) (hlo : (m : ℚ) * 2 ^ p ≤ b)
    (hhi : b < (n + 1) * 2 ^ q) : p ≤ q := by
  have h2 : (2 : ℚ) ≠ 0 := by norm_num
  have hm' : (2 : ℚ) ^ (52 : ℤ) ≤ m := by exact_mod_cast hm
  have hn' : (n : ℚ) + 1 ≤ 2 ^ (53 : ℤ) := by exact_mod_cast hn
  have hlt : (2 : ℚ) ^ (52 + p) < 2 ^ (53 + q) := calc
    (2 : ℚ) ^ (52 + p) = 2 ^ (52 : ℤ) * 2 ^ p := zpow_add₀ h2 _ _
    _ ≤ m * 2 ^ p := by gcongr
    _ ≤ b := hlo
    _ < (n + 1) * 2 ^ q := hhi
    _ ≤ 2 ^ (53 : ℤ) * 2 ^ q := by gcongr
    _ = 2 ^ (53 + q) := (zpow_add₀ h2 _ _).symm
  have := (zpow_lt_zpow_iff_right₀ one_lt_two).mp hlt
  omega

/-- At one exponent a lower neighbour lies below every upper one. -/
theorem bracket_index_le {m n : ℕ} {q : ℤ} {b : ℚ} (hlo : (m : ℚ) * 2 ^ q ≤ b) (hhi : b < (n + 1) * 2 ^ q) : m ≤ n := by
  have hlt : (m : ℚ) < n + 1 := lt_of_mul_lt_mul_right (hlo.trans_lt hhi) (by positivity)
  exact Nat.lt_succ_iff.mp (by exact_mod_cast hlt)

/-- A value has one rounding to 53 significant bits (R133). -/
theorem isRound53_unique {rc : RoundingMode} {e r r' : ℚ} (h : IsRound53 rc e r) (h' : IsRound53 rc e r') : r = r' := by
  obtain ⟨n, q, hn, hn', hlo, hhi, rfl⟩ := h
  obtain ⟨m, p, hm, hm', hlo', hhi', rfl⟩ := h'
  obtain rfl : p = q := le_antisymm (bracket_exponent_le hm hn' hlo' hhi) (bracket_exponent_le hn hm' hlo hhi')
  obtain rfl : m = n := le_antisymm (bracket_index_le hlo' hhi) (bracket_index_le hlo hhi')
  rfl

/-- The two multiples of `2^g` next to a magnitude of `a` units. -/
theorem div_bracket {a g : ℕ} {q : ℤ} {u : ℚ} (hu : 0 < u) (hq : (2 : ℚ) ^ q = 2 ^ g * u) :
    ((a / 2 ^ g : ℕ) : ℚ) * 2 ^ q ≤ a * u ∧ (a : ℚ) * u < ((a / 2 ^ g : ℕ) + 1) * 2 ^ q := by
  have hlo : ((a / 2 ^ g * 2 ^ g : ℕ) : ℚ) ≤ a := by exact_mod_cast Nat.div_mul_le_self a (2 ^ g)
  have hhi : (a : ℚ) < ((a / 2 ^ g + 1) * 2 ^ g : ℕ) := by
    exact_mod_cast Nat.lt_mul_of_div_lt (Nat.lt_succ_self _) (Nat.two_pow_pos g)
  rw [hq, ← mul_assoc, ← mul_assoc]
  push_cast at hlo hhi ⊢
  exact ⟨mul_le_mul_of_nonneg_right hlo hu.le, mul_lt_mul_of_pos_right hhi hu⟩

/-! ## The machine's rounding -/

/-- A magnitude of at least 53 bits is rounded at the last of its first 53. -/
theorem isRound53_of_long (rc : RoundingMode) {a : ℕ} (ha : 52 ≤ Nat.log2 a) {e : ℚ} (he : |e| = a * 2 ^ (-2148 : ℤ)) :
    IsRound53 rc e (withSignOf e (roundUnbounded rc (decide (e < 0)) a * 2 ^ (-2148 : ℤ))) := by
  have ha0 : a ≠ 0 := by rintro rfl; simp at ha
  set g := Nat.log2 a - 52 with hg
  have hq : (2 : ℚ) ^ ((g : ℤ) - 2148) = 2 ^ g * 2 ^ (-2148 : ℤ) := by
    rw [sub_eq_add_neg, zpow_add₀ two_ne_zero, zpow_natCast]
  obtain ⟨hlo, hhi⟩ := div_bracket (a := a) unit_pos hq
  refine ⟨a / 2 ^ g, g - 2148, ?_, ?_, he ▸ hlo, he ▸ hhi, ?_⟩
  · rw [Nat.le_div_iff_mul_le (Nat.two_pow_pos g), ← pow_add, show 52 + g = Nat.log2 a by omega]
    exact Nat.log2_self_le ha0
  · rw [Nat.div_lt_iff_lt_mul (Nat.two_pow_pos g), ← pow_add, show 53 + g = Nat.log2 a + 1 by omega]
    exact Nat.lt_log2_self
  · rw [chosenMagnitude_eq rc g a _ e _ unit_pos he hq, roundUnbounded]

/-- A magnitude of at most 53 bits is its own lower neighbour, at an exponent below the unit's. -/
theorem isRound53_of_short (rc : RoundingMode) {a : ℕ} (ha0 : a ≠ 0) (ha : Nat.log2 a ≤ 52) {e : ℚ}
    (he : |e| = a * 2 ^ (-2148 : ℤ)) :
    IsRound53 rc e (withSignOf e (roundUnbounded rc (decide (e < 0)) a * 2 ^ (-2148 : ℤ))) := by
  set d := 52 - Nat.log2 a with hd
  have hexact : roundUnbounded rc (decide (e < 0)) a = a :=
    roundUnbounded_exact _ _ (by rw [show Nat.log2 a - 52 = 0 by omega]; exact Nat.mod_one a)
  have hscale : (2 : ℚ) ^ d * 2 ^ (-(d : ℤ) - 2148) = 2 ^ (-2148 : ℤ) := by
    rw [← zpow_natCast, ← zpow_add₀ two_ne_zero, show (d : ℤ) + (-d - 2148) = -2148 by ring]
  have hlo : ((a * 2 ^ d : ℕ) : ℚ) * 2 ^ (-(d : ℤ) - 2148) = |e| := by
    rw [he, ← hscale]
    push_cast
    ring
  have hpos : (0 : ℚ) < 2 ^ (-(d : ℤ) - 2148) := by positivity
  refine ⟨a * 2 ^ d, -(d : ℤ) - 2148, ?_, ?_, hlo.le, ?_, ?_⟩
  · rw [show 52 = Nat.log2 a + d by omega, pow_add]
    exact Nat.mul_le_mul_right _ (Nat.log2_self_le ha0)
  · rw [show 53 = Nat.log2 a + 1 + d by omega, pow_add]
    exact Nat.mul_lt_mul_of_pos_right Nat.lt_log2_self (Nat.two_pow_pos d)
  · rw [add_mul, hlo, one_mul]
    exact lt_add_of_pos_right _ hpos
  · rw [hexact, ← he]
    simp only [chosenMagnitude, hlo, if_true]

theorem natAbs_exactUnits_ne_zero {x y z : E64} (hne : exactVal x y z ≠ 0) : (exactUnits x y z).natAbs ≠ 0 :=
  fun h => hne ((exactVal_eq_zero_iff x y z).mpr (Int.natAbs_eq_zero.mp h))

/-- The machine's rounding is the rounding to 53 significant bits, and nothing else is (R133). -/
theorem isRound53_exactVal_iff (rc : RoundingMode) {x y z : E64} (hne : exactVal x y z ≠ 0) (ru : ℚ) :
    IsRound53 rc (exactVal x y z) ru ↔ ru = withSignOf (exactVal x y z)
      ((roundUnbounded rc (decide (exactVal x y z < 0)) (exactUnits x y z).natAbs : ℚ) * 2 ^ (-2148 : ℤ)) := by
  have ha0 := natAbs_exactUnits_ne_zero hne
  have habs := abs_exactVal x y z
  have hround : IsRound53 rc (exactVal x y z) (withSignOf (exactVal x y z)
      ((roundUnbounded rc (decide (exactVal x y z < 0)) (exactUnits x y z).natAbs : ℚ) * 2 ^ (-2148 : ℤ))) := by
    rcases Nat.le_total 52 (Nat.log2 (exactUnits x y z).natAbs) with hlong | hshort
    · exact isRound53_of_long rc hlong habs
    · exact isRound53_of_short rc ha0 hshort habs
  exact ⟨fun h => isRound53_unique h hround, fun h => h ▸ hround⟩

/-- Settles O37: the machine's rounding is a rounding to 53 bits, of which there is only one. -/
theorem roundingTo53Bits : Obligations.RoundingTo53Bits :=
  fun rc _ _ _ _ _ _ hne ru => isRound53_exactVal_iff rc hne ru

/-! ## The machine's comparisons -/

theorem abs_withSignOf (e a : ℚ) : |withSignOf e a| = |a| := by
  unfold withSignOf
  split
  · exact abs_neg a
  · rfl

/-- A magnitude given the sign of `e` is `e` only for the magnitude of `e`. -/
theorem withSignOf_eq_self_iff {e a : ℚ} : withSignOf e a = e ↔ a = |e| := by
  unfold withSignOf
  split
  · next h => rw [abs_of_neg h, neg_eq_iff_eq_neg]
  · next h => rw [abs_of_nonneg (not_lt.mp h)]

/-- A power of two against a magnitude in units of `2^-2148`. -/
theorem zpow_le_units_iff (k u : ℕ) : (2 : ℚ) ^ ((k : ℤ) - 2148) ≤ u * 2 ^ (-2148 : ℤ) ↔ 2 ^ k ≤ u := by
  rw [sub_eq_add_neg, zpow_add₀ two_ne_zero, zpow_natCast, mul_le_mul_iff_left₀ unit_pos]
  exact_mod_cast Iff.rfl

/-- What R134 to R137 say of `Ru`, in the units the machine computes with: `u` is `|Ru| * 2^2148`. -/
structure RoundedUnits (x y z : E64) (ru : ℚ) (u : ℕ) : Prop where
  value : ru = withSignOf (exactVal x y z) (u * 2 ^ (-2148 : ℤ))
  overflow : overflowUnits ≤ u ↔ 2 ^ (1024 : ℤ) ≤ |ru|
  notTiny : tinyUnits ≤ u ↔ 2 ^ (-1022 : ℤ) ≤ |ru|
  inexact : decide (u ≠ (exactUnits x y z).natAbs) = decide (ru ≠ exactVal x y z)

/-- The machine's rounded magnitude is that of `Ru`, and so are its comparisons. -/
theorem roundedUnits_of_isRound53 {rc : RoundingMode} {x y z : E64} {ru : ℚ} (hne : exactVal x y z ≠ 0)
    (h : IsRound53 rc (exactVal x y z) ru) :
    RoundedUnits x y z ru (roundUnbounded rc (decide (exactVal x y z < 0)) (exactUnits x y z).natAbs) := by
  have hvalue := (isRound53_exactVal_iff rc hne ru).mp h
  set u := roundUnbounded rc (decide (exactVal x y z < 0)) (exactUnits x y z).natAbs
  have habs : |ru| = u * 2 ^ (-2148 : ℤ) := by
    rw [hvalue, abs_withSignOf, abs_of_nonneg (by positivity)]
  have hexact : ru = exactVal x y z ↔ u = (exactUnits x y z).natAbs := by
    rw [hvalue, withSignOf_eq_self_iff, abs_exactVal, mul_left_inj' unit_pos.ne', Nat.cast_inj]
  refine ⟨hvalue, ?_, ?_, decide_eq_decide.mpr (not_congr hexact.symm)⟩
  · rw [habs]; exact (zpow_le_units_iff 3172 u).symm
  · rw [habs]; exact (zpow_le_units_iff 1126 u).symm

end Sys2Proof.Machine
end

section
/-! The results of finite operands (R132 to R137): one equation for each outcome of the rounding, and the statements about the exact zero,
the normal result, overflow and flushing to zero. -/

namespace Sys2Proof.Machine

/-! ## The outcomes of a rounding -/

theorem tinyUnits_lt_overflowUnits : tinyUnits < overflowUnits := by
  rw [tinyUnits, overflowUnits]
  gcongr <;> norm_num

/-- Overflow (R134). -/
theorem roundNonzero_of_overflow {p : FpControl} {neg : Bool} {a : ℕ} (h : overflowUnits ≤ roundUnbounded p.rc neg a) :
    roundNonzero p neg a =
      (overflowResult p.rc neg, ⟨true, false, p.om || decide (roundUnbounded p.rc neg a ≠ a)⟩) := by
  simp only [roundNonzero, if_pos h]

/-- Neither overflow nor tiny (R137). -/
theorem roundNonzero_of_normal {p : FpControl} {neg : Bool} {a : ℕ} (hlo : tinyUnits ≤ roundUnbounded p.rc neg a)
    (hhi : roundUnbounded p.rc neg a < overflowUnits) :
    roundNonzero p neg a =
      (encodeNormal neg (roundUnbounded p.rc neg a), ⟨false, false, decide (roundUnbounded p.rc neg a ≠ a)⟩) := by
  simp only [roundNonzero, if_neg hhi.not_ge, if_neg hlo.not_gt]

/-- Tiny, masked and flushed (R136). -/
theorem roundNonzero_of_flushed {p : FpControl} {neg : Bool} {a : ℕ} (h : roundUnbounded p.rc neg a < tinyUnits)
    (hum : p.um = true) (hftz : p.ftz = true) : roundNonzero p neg a = (zeroE neg, ⟨false, true, true⟩) := by
  simp only [roundNonzero, if_neg (h.trans tinyUnits_lt_overflowUnits).not_ge, if_pos h, hum, hftz, Bool.not_true,
    Bool.false_eq_true, if_false, if_true]

/-- `ftz` matters to a tiny result under masked underflow only (R135, R136). -/
theorem roundNonzero_ftz_irrelevant (p : FpControl) {neg : Bool} {a : ℕ}
    (h : p.um = false ∨ tinyUnits ≤ roundUnbounded p.rc neg a) (b b' : Bool) :
    roundNonzero { p with ftz := b } neg a = roundNonzero { p with ftz := b' } neg a := by
  rcases h with hum | hlo
  · simp only [roundNonzero, hum, Bool.not_false, if_true]
  · simp only [roundNonzero, if_neg hlo.not_gt]

/-- Two control inputs that round the nonzero exact value alike give the same result (R133 to R137). -/
theorem fma64_congr_of_nonzero {p q : FpControl} {x y z : E64} (hp : p.daz = false) (hq : q.daz = false) (hx : isFinite x = true)
    (hy : isFinite y = true) (hz : isFinite z = true) (hne : exactVal x y z ≠ 0)
    (h : roundNonzero p (decide (exactVal x y z < 0)) (exactUnits x y z).natAbs =
      roundNonzero q (decide (exactVal x y z < 0)) (exactUnits x y z).natAbs) : fma64 p x y z = fma64 q x y z := by
  rw [fma64_nonzero hp hx hy hz hne, fma64_nonzero hq hx hy hz hne, h]

/-- An exact zero of finite operands (R132). -/
theorem fma64_of_exact_zero {p : FpControl} {x y z : E64} (hd : p.daz = false) (hx : isFinite x = true) (hy : isFinite y = true)
    (hz : isFinite z = true) (he : exactVal x y z = 0) :
    fma64 p x y z = ⟨zeroE (exactZeroSign p.rc (productSign x y) (signOf z)), ⟨false, someDenormal x y z⟩, .clear⟩ := by
  rw [fma64_finite hd hx hy hz, fmaFinite, if_pos ((exactVal_eq_zero_iff x y z).mp he)]

/-! ## Values of results -/

/-- A rounded magnitude has at most 53 significant bits (R133). -/
theorem roundUnbounded_significant (rc : RoundingMode) (neg : Bool) {a : ℕ} (h : a ≠ 0) :
    roundUnbounded rc neg a % 2 ^ (Nat.log2 (roundUnbounded rc neg a) - 52) = 0 := by
  obtain ⟨hlo, hhi, hmod⟩ := roundUnbounded_binade rc neg h
  rcases Nat.lt_or_eq_of_le hhi with hlt | heq
  · rwa [log2_eq_of_bounds hlo hlt]
  · rw [heq, Nat.log2_two_pow]
    exact Nat.mod_eq_zero_of_dvd (Nat.pow_dvd_pow 2 (Nat.sub_le _ _))

/-- The value of an element from its sign and its magnitude in units of `2^-2148` (R122). -/
theorem realVal_of_units {w : E64} {e : ℚ} {u : ℕ} (hs : signOf w = decide (e < 0)) (hm : magUnits w * 2 ^ 1074 = u) :
    realVal w = withSignOf e (u * 2 ^ (-2148 : ℤ)) := by
  have hmag : (u : ℚ) * 2 ^ (-2148 : ℤ) = magUnits w * 2 ^ (-1074 : ℤ) := by
    rw [← hm, Nat.cast_mul, mul_assoc, Nat.cast_pow, Nat.cast_ofNat, ← zpow_natCast, ← zpow_add₀ two_ne_zero]
    rfl
  rw [realVal_eq, hmag, valUnits, hs]
  by_cases hneg : e < 0
  · simp [withSignOf, hneg]
  · simp [withSignOf, hneg]

/-- Outside a tiny result under masked underflow `ftz` makes no difference (R136). -/
theorem fma64_ftz_irrelevant {p : FpControl} {x y z : E64} (hd : p.daz = false)
    (h : p.um = false ∨ isFinite x = false ∨ isFinite y = false ∨ isFinite z = false ∨ exactVal x y z = 0 ∨
      ∃ ru : ℚ, IsRound53 p.rc (exactVal x y z) ru ∧ 2 ^ (-1022 : ℤ) ≤ |ru|) :
    fma64 { p with ftz := true } x y z = fma64 { p with ftz := false } x y z := by
  have hoff (b : Bool) : { p with ftz := b }.daz = false := hd
  by_cases hfin : isFinite x = true ∧ isFinite y = true ∧ isFinite z = true
  · obtain ⟨hx, hy, hz⟩ := hfin
    by_cases hzero : exactVal x y z = 0
    · rw [fma64_of_exact_zero (hoff true) hx hy hz hzero, fma64_of_exact_zero (hoff false) hx hy hz hzero]
    · refine fma64_congr_of_nonzero (hoff true) (hoff false) hx hy hz hzero (roundNonzero_ftz_irrelevant p ?_ true false)
      simp only [hx, hy, hz, hzero, Bool.true_eq_false, false_or] at h
      exact h.imp_right fun ⟨_, hround, hlo⟩ => (roundedUnits_of_isRound53 hzero hround).notTiny.mpr hlo
  · rw [fma64_of_daz_off (hoff true), fma64_of_daz_off (hoff false)]
    have hsome : isFinite x = false ∨ isFinite y = false ∨ isFinite z = false := by
      simpa only [not_and_or, Bool.not_eq_true] using hfin
    exact fmaCases_of_not_finite (p := { p with ftz := true }) (q := { p with ftz := false }) rfl hsome

/-! ## The statements -/

/-- Settles O36: the first branch for finite operands. -/
theorem exactZero : Obligations.ExactZero := by
  intro p x y z hd hx hy hz he
  rw [fma64_of_exact_zero hd hx hy hz he]
  refine ⟨?_, rfl⟩
  rw [zeroE_eq, exactZeroSign, productSign]
  by_cases hsign : (signOf x ^^ signOf y) = signOf z
  · simp only [hsign]
  · simp only [if_neg hsign]

/-- Settles O38: the rounded magnitude is in the range that the normal encoding reads back. -/
theorem normalResult : Obligations.NormalResult := by
  intro p x y z ru hd hx hy hz hne hround hlo hhi
  have hunits := roundedUnits_of_isRound53 hne hround
  have hlo' := hunits.notTiny.mpr hlo
  have hhi' := not_le.mp (mt hunits.overflow.mp hhi.not_ge)
  obtain ⟨hsign, hclass, hmag⟩ := encodeNormal_spec (decide (exactVal x y z < 0)) hlo' hhi'
    (roundUnbounded_significant _ _ (natAbs_exactUnits_ne_zero hne))
  rw [fma64_nonzero hd hx hy hz hne, roundNonzero_of_normal hlo' hhi', hunits.inexact]
  exact ⟨hclass, (realVal_of_units hsign hmag).trans hunits.value.symm, rfl⟩

/-- Settles O39: the machine compares the rounded magnitude, and answers by the table. -/
theorem overflowResponse : Obligations.OverflowResponse := by
  intro p x y z ru hd hx hy hz hne hround hover
  have hunits := roundedUnits_of_isRound53 hne hround
  rw [fma64_nonzero hd hx hy hz hne, roundNonzero_of_overflow (hunits.overflow.mpr hover), hunits.inexact]
  refine ⟨rfl, rfl, fun hom => ⟨by simp only [hom, Bool.true_or], ?_⟩, fun hom => by simp only [hom, Bool.false_or]⟩
  cases p.rc <;> simp only [overflowResult, infE_eq, maxE_eq, decide_eq_true_eq, Bool.false_eq_true, if_true, if_false]

/-- Settles O41: a tiny rounded magnitude is the one place where the machine looks at `ftz`. -/
theorem flushToZero : Obligations.FlushToZero := by
  refine ⟨fun p x y z ru hd hx hy hz hne hround htiny hum hftz => ?_, fun p x y z hd h => ?_⟩
  · have hunits := roundedUnits_of_isRound53 hne hround
    have htiny' := not_le.mp (mt hunits.notTiny.mp htiny.not_ge)
    rw [fma64_nonzero hd hx hy hz hne, roundNonzero_of_flushed htiny' hum hftz]
    simp only [zeroE_eq, decide_eq_true_eq, and_self]
  · exact fma64_ftz_irrelevant hd h

end Sys2Proof.Machine
end

section
/-! What an instruction leaves in `MXCSR` (R138, R196): what the commit of exceptions left, or what was there; and so never the
divide-by-zero flag. -/

namespace Sys2Proof.Machine

/-- The state that an outcome ends in: the next state, or the state at the fault (R200). -/
def EndsIn (o : StepOutcome) (t : State) : Prop := o = .next t ∨ ∃ e, o = .fault (.exception e t)

/-- An `MXCSR` that is unchanged or left by a commit of element results. -/
def Committed (m m' : BitVec 32) : Prop := m' = m ∨ ∃ rs, m' = (fpCommit m rs).mxcsr

/-- The bits of `MXCSR` outside the flags of the family stay (R26). -/
theorem Committed.frame {m m' : BitVec 32} (h : Committed m m') : m' &&& ~~~settableFlags = m &&& ~~~settableFlags := by
  obtain rfl | ⟨rs, rfl⟩ := h
  · rfl
  · exact (fpCommit_frame m rs).1

/-- Raising an exception leaves `MXCSR` as it was. -/
theorem mxcsr_of_endsIn_raise {e : Exn} {s t : State} (h : EndsIn (raise e s) t) : t.mxcsr = s.mxcsr := by
  obtain h | ⟨_, h⟩ := h
  · cases h
  · cases h; rfl

theorem mxcsr_of_endsIn_stopWith {st : ReadStop} {s t : State} (h : EndsIn (stopWith s st) t) : t.mxcsr = s.mxcsr := by
  cases st with
  | exn e => exact mxcsr_of_endsIn_raise h
  | device => obtain h | ⟨_, h⟩ := h <;> cases h

theorem mxcsr_of_endsIn_gate {undef : Bool} {s t : State} {o : StepOutcome} (hg : gate undef s = some o) (h : EndsIn o t) :
    t.mxcsr = s.mxcsr := by
  obtain rfl | ⟨e, rfl⟩ := h
  · exact absurd hg gate_ne_next
  · obtain ⟨e', hfault, _⟩ := gate_fault hg
    cases hfault; rfl

theorem committed_of_endsIn_fmaddCommit {k : Kind} {kl : Nat} {m : BitVec 8} {z : Bool} {d s2 : VReg} {c : Nat → E64} {size : Nat}
    {s t : State} (h : EndsIn (fmaddCommit k kl m z d s2 c size s) t) : Committed s.mxcsr t.mxcsr := by
  rcases fmaddCommit_cases k kl m z d s2 c size s with ⟨_, e⟩ | ⟨_, e⟩
  · rw [e] at h
    obtain h | ⟨_, h⟩ := h
    · cases h; exact .inr ⟨_, rfl⟩
    · cases h
  · rw [e] at h
    exact .inr ⟨_, mxcsr_of_endsIn_raise h⟩

/-- Every instruction leaves `MXCSR` unchanged or as a commit of element results left it, whether it completes or faults (R196, R202). -/
theorem committed_of_endsIn_exec {i : Instr} {s t : State} (h : EndsIn (exec i s) t) : Committed s.mxcsr t.mxcsr := by
  obtain ⟨k, w, pfx, d, v, r, rfl⟩ | ⟨k, w, pfx, mk, d, v, r, rfl⟩ | ⟨k, pfx, rc, mk, d, v, r, rfl⟩ := instr_cases i
  · rw [exec_mkVex] at h
    obtain hg | ⟨_, st, _, hstop⟩ | ⟨_, _, hcommit⟩ := vexFmadd_cases k w pfx d v r s
    · exact .inl (mxcsr_of_endsIn_gate hg h)
    · exact .inl (mxcsr_of_endsIn_stopWith (hstop ▸ h))
    · exact committed_of_endsIn_fmaddCommit (hcommit ▸ h)
  · rw [exec_mkEvex] at h
    obtain hg | ⟨_, st, _, hstop⟩ | ⟨_, _, hcommit⟩ := evexFmadd_cases k w pfx mk d v r s
    · exact .inl (mxcsr_of_endsIn_gate hg h)
    · exact .inl (mxcsr_of_endsIn_stopWith (hstop ▸ h))
    · exact committed_of_endsIn_fmaddCommit (hcommit ▸ h)
  · rw [exec_mkEr] at h
    obtain hg | ⟨_, hnext⟩ := erFmadd_cases k pfx rc mk d v r s
    · exact .inl (mxcsr_of_endsIn_gate hg h)
    · rw [hnext] at h
      obtain h | ⟨_, h⟩ := h
      · cases h; exact .inl rfl
      · cases h

/-- Settles O50: bit 2 is not among the flags that a commit can set. -/
theorem divideByZeroFlagNeverSet : Obligations.DivideByZeroFlagNeverSet := by
  intro i s t h
  have hbit := congrArg (·.getLsbD 2) (committed_of_endsIn_exec h).frame
  have hmask : (~~~settableFlags).getLsbD 2 = true := rfl
  simpa only [BitVec.getLsbD_and, hmask, Bool.and_true] using hbit

end Sys2Proof.Machine
end

section
/-! What a completed instruction leaves above the vector length of its destination (R24, R164). -/

namespace Sys2Proof.Machine

/-- The common end of both templates assembles zeros above the vector length, before it looks at the mask. -/
theorem lane_mergeLanes_of_le {kl j : Nat} (h : kl ≤ j) (m : BitVec 8) (z : Bool) (old res : Nat → E64) :
    lane (mergeLanes kl m z old res) j = 0#64 := by
  rw [mergeLanes, lane_ofLanes, if_pos h, ite_self]

/-- The destination that the common end writes is zero above the vector length. -/
theorem upper_zero_of_fmaddCommit_next {k : Kind} {kl : Nat} {m : BitVec 8} {z : Bool} {d s2 : VReg} {c : Nat → E64} {size : Nat}
    {s t : State} (h : fmaddCommit k kl m z d s2 c size s = .next t) {j : Nat} (hj : kl ≤ j) : lane (readZmm t d) j = 0#64 := by
  obtain ⟨_, rfl⟩ := fmaddCommit_next h
  rw [readZmm_completed, if_pos rfl]
  exact lane_mergeLanes_of_le hj m z _ _

/-- An EVEX form without embedded rounding completes only through the common end (R160). -/
theorem fmaddCommit_of_evexFmadd_next {k : Kind} {w : EvexLen} {pfx : List LegacyPrefix} {mk : Masking} {d v : VReg} {r : EvexSrc3}
    {s t : State} (h : evexFmadd k w pfx mk d v r s = .next t) :
    fmaddCommit k (evexKl w) (maskBits s mk) mk.z d v (evexElem s pfx w r) (evexSize pfx r) s = .next t := by
  obtain hgate | ⟨_, _, _, hstop⟩ | ⟨_, _, hcommit⟩ := evexFmadd_cases k w pfx mk d v r s
  · exact absurd (h ▸ hgate) gate_ne_next
  · exact absurd (hstop.symm.trans h) stopWith_ne_next
  · exact hcommit.symm.trans h

/-- Settles O51: the common end, which every completed form goes through, zeroes the destination above the vector length. -/
theorem evexUpperBitsZero : Obligations.EvexUpperBitsZero := by
  intro k w pfx mk d v r s t h j hj _
  rw [exec_mkEvex] at h
  exact upper_zero_of_fmaddCommit_next (fmaddCommit_of_evexFmadd_next h) ((evexKl_eq w).trans_le hj)

end Sys2Proof.Machine
end

section
/-! `#NM` from the task-switched bit, after the checks for `#UD` and before any operand is looked at (R195, R201). -/

namespace Sys2Proof.Machine

/-- A VEX form without a condition of R192 raises `#NM` while `CR0.TS = 1`. -/
theorem vexFmadd_of_taskSwitched {pfx : List LegacyPrefix} {s : State} (h : VexEnabled pfx s) (ht : s.cr0.getLsbD 3 = true)
    (k : Kind) (w : VexLen) (d v : BitVec 4) (r : VexSrc3) : vexFmadd k w pfx d v r s = raise .deviceNotAvailable s := by
  simp only [vexFmadd, vexUndefined_eq_false h, gate_taskSwitched h.admitted ht]

/-- An EVEX form without a condition of R194 raises `#NM` while `CR0.TS = 1`. -/
theorem evexFmadd_of_taskSwitched {w : EvexLen} {pfx : List LegacyPrefix} {mk : Masking} {s : State}
    (h : EvexEnabled w.needsVL pfx mk s) (ht : s.cr0.getLsbD 3 = true) (k : Kind) (d v : VReg) (r : EvexSrc3) :
    evexFmadd k w pfx mk d v r s = raise .deviceNotAvailable s := by
  simp only [evexFmadd, needsVL_eq, evexUndefined_eq_false h, gate_taskSwitched h.admitted ht]

/-- An embedded-rounding form without a condition of R194 raises `#NM` while `CR0.TS = 1`. -/
theorem erFmadd_of_taskSwitched {pfx : List LegacyPrefix} {mk : Masking} {s : State} (h : EvexEnabled false pfx mk s)
    (ht : s.cr0.getLsbD 3 = true) (k : Kind) (rc : RoundingMode) (d v r : VReg) :
    erFmadd k pfx rc mk d v r s = raise .deviceNotAvailable s := by
  simp only [erFmadd, evexUndefined_eq_false h, gate_taskSwitched h.admitted ht]

/-- Settles O19: each of the three templates ends at its checks. -/
theorem deviceNotAvailable : Obligations.DeviceNotAvailable := by
  intro k pfx s ht
  refine ⟨fun w d v r h => ?_, fun w mk d v r h => ?_, fun rc mk d v r h => ?_⟩
  · rw [exec_mkVex, vexFmadd_of_taskSwitched h ht]
  · rw [exec_mkEvex, evexFmadd_of_taskSwitched h ht]
  · rw [exec_mkEr, erFmadd_of_taskSwitched h ht]

end Sys2Proof.Machine
end

section
/-! `#AC(0)` (R53, R62, R199): when a read stops with it, and that nothing else in an instruction raises it. -/

namespace Sys2Proof.Machine

/-! ## The read -/

/-- A non-canonical address is never reported as `#AC(0)` (R60). -/
theorem nonCanonicalExn_ne_alignmentCheck (pfx : List LegacyPrefix) (m : MemOperand) (la : Addr) :
    nonCanonicalExn pfx m la ≠ .alignmentCheck := by
  obtain h | h := (nonCanonicalExn_report pfx m la).vector <;> rw [h] <;> decide

/-- A read stops with `#AC(0)` exactly when it is checked, accesses something, is misaligned, and passed the canonical check; what
the translation would have said does not matter (R62, R199). -/
theorem readStop_eq_alignmentCheck_iff {s : State} {nc : Exn} (hnc : nc ≠ .alignmentCheck) {al : Bool} {la : Addr} {offs : List Nat} :
    readStop s nc al la offs = some (.exn .alignmentCheck) ↔
      al = true ∧ AlignmentChecked s ∧ offs ≠ [] ∧ la.toNat % 8 ≠ 0 ∧ ∀ o ∈ offs, canonical s.cfg.law (byteAddr la o) = true := by
  constructor
  · intro h
    obtain hst | ⟨_, hal, hac, hne, hmis, hcan⟩ | ⟨_, _, _, hst⟩ | hst := readStop_cases h
    · cases hst; exact absurd rfl hnc
    · exact ⟨hal, (alignCheck_iff s).mp hac, hne, hmis, hcan⟩
    · cases hst
    · cases hst
  · rintro ⟨rfl, hac, hne, hmis, hcan⟩
    rw [readStop_canonical hcan, if_pos]
    simp [(alignCheck_iff s).mpr hac, hne, mt (low3_eq_zero_iff la).mp hmis]

/-- A VEX form never stops with `#AC(0)`: its memory operand is not alignment-checked (R53). -/
theorem vexSrc3_stop_ne_alignmentCheck (s : State) (pfx : List LegacyPrefix) (w : VexLen) (pcNext : Addr) (r : VexSrc3) :
    (vexSrc3 s pfx w pcNext r).stop ≠ some (.exn .alignmentCheck) := by
  cases r with
  | reg r => exact nofun
  | mem m =>
    intro h
    obtain ⟨hal, _⟩ := (readStop_eq_alignmentCheck_iff (nonCanonicalExn_ne_alignmentCheck _ _ _)).mp h
    cases hal

/-- A broadcast that accesses memory accesses all eight bytes of its element (R54, R56). -/
theorem BcastAccessed.of_lt {s : State} {w : EvexLen} {mk : Masking} {o q : Nat} (h : BcastAccessed s w mk o) (hq : q < 8) :
    BcastAccessed s w mk q :=
  ⟨hq, h.2⟩

/-- The machine's list of accessed bytes of a broadcast is empty exactly when byte 0 is not accessed. -/
theorem bcastOffsets_ne_nil_iff {s : State} {w : EvexLen} {mk : Masking} :
    bcastOffsets s (evexKl w) (maskBits s mk) ≠ [] ↔ BcastAccessed s w mk 0 := by
  constructor
  · intro h
    obtain ⟨o, ho⟩ := List.exists_mem_of_ne_nil _ h
    exact (mem_bcastOffsets_iff.mp ho).of_lt (by decide)
  · exact fun h => List.ne_nil_of_mem (mem_bcastOffsets_iff.mpr h)

/-- A broadcast stops with `#AC(0)` exactly when it is checked, accessed, misaligned and canonical (R199). -/
theorem bcastSrc3_stop_eq_alignmentCheck_iff {s : State} {pfx : List LegacyPrefix} {w : EvexLen} {mk : Masking} {m : MemOperand} :
    (evexSrc3 s pfx w (s.pc + BitVec.ofNat 64 (evexSize pfx (.bcast m))) (maskBits s mk) (.bcast m)).stop =
        some (.exn .alignmentCheck) ↔
      AlignmentChecked s ∧ BcastAccessed s w mk 0 ∧ (bcastAddr s pfx m).toNat % 8 ≠ 0 ∧
        ∀ q, q < 8 → canonical s.cfg.law (byteAddr (bcastAddr s pfx m) q) = true := by
  refine (readStop_eq_alignmentCheck_iff (nonCanonicalExn_ne_alignmentCheck _ _ _)).trans ?_
  rw [bcastOffsets_ne_nil_iff]
  constructor
  · rintro ⟨_, hac, hacc, hmis, hcan⟩
    exact ⟨hac, hacc, hmis, fun q hq => hcan q (mem_bcastOffsets_iff.mpr (hacc.of_lt hq))⟩
  · rintro ⟨hac, hacc, hmis, hcan⟩
    exact ⟨rfl, hac, hacc, hmis, fun q hq => hcan q (mem_bcastOffsets_iff.mp hq).1⟩

/-- Among the third sources of an EVEX form only a broadcast stops with `#AC(0)` (R53). -/
theorem eq_bcast_of_evexSrc3_stop_alignmentCheck {s : State} {pfx : List LegacyPrefix} {w : EvexLen} {pcNext : Addr} {mb : BitVec 8}
    {r : EvexSrc3} (h : (evexSrc3 s pfx w pcNext mb r).stop = some (.exn .alignmentCheck)) : ∃ m, r = .bcast m := by
  cases r with
  | reg r => cases h
  | full m =>
    obtain ⟨hal, _⟩ := (readStop_eq_alignmentCheck_iff (nonCanonicalExn_ne_alignmentCheck _ _ _)).mp h
    cases hal
  | bcast m => exact ⟨m, rfl⟩

/-! ## The instruction -/

/-- The checks before the operands never raise `#AC(0)` (R201). -/
theorem gate_ne_alignmentCheck {undef : Bool} {s t : State} : gate undef s ≠ some (.fault (.exception .alignmentCheck t)) := by
  intro h
  obtain ⟨e, he, rfl | rfl⟩ := gate_fault h <;> cases he

/-- A stopped read that raises `#AC(0)` stopped with it. -/
theorem stop_of_stopWith_alignmentCheck {s t : State} {st : ReadStop}
    (h : stopWith s st = .fault (.exception .alignmentCheck t)) : st = .exn .alignmentCheck := by
  obtain ⟨e, he, hst⟩ := stopWith_fault h
  cases he
  exact hst

/-- An unmasked SIMD floating-point exception is never reported as `#AC(0)` (R197). -/
theorem simdExn_ne_alignmentCheck (s : State) : simdExn s ≠ .alignmentCheck := by
  rw [simdExn_eq]
  split <;> decide

/-- The common end never raises `#AC(0)`. -/
theorem fmaddCommit_ne_alignmentCheck {k : Kind} {kl : Nat} {m : BitVec 8} {z : Bool} {d s2 : VReg} {c : Nat → E64} {size : Nat}
    {s t : State} : fmaddCommit k kl m z d s2 c size s ≠ .fault (.exception .alignmentCheck t) := by
  intro h
  obtain ⟨hf, _⟩ := fmaddCommit_fault h
  injection hf with he _
  exact simdExn_ne_alignmentCheck s he.symm

theorem vexFmadd_ne_alignmentCheck {k : Kind} {w : VexLen} {pfx : List LegacyPrefix} {d v : BitVec 4} {r : VexSrc3} {s t : State} :
    vexFmadd k w pfx d v r s ≠ .fault (.exception .alignmentCheck t) := by
  intro h
  obtain hgate | ⟨_, st, hread, hstop⟩ | ⟨_, _, hcommit⟩ := vexFmadd_cases k w pfx d v r s
  · exact gate_ne_alignmentCheck (h ▸ hgate)
  · rw [stop_of_stopWith_alignmentCheck (hstop.symm.trans h)] at hread
    exact vexSrc3_stop_ne_alignmentCheck _ _ _ _ _ hread
  · exact fmaddCommit_ne_alignmentCheck (hcommit.symm.trans h)

/-- An EVEX form raises `#AC(0)` only as its third source stops. -/
theorem evexSrc3_stop_of_alignmentCheck {k : Kind} {w : EvexLen} {pfx : List LegacyPrefix} {mk : Masking} {d v : VReg} {r : EvexSrc3}
    {s t : State} (h : evexFmadd k w pfx mk d v r s = .fault (.exception .alignmentCheck t)) :
    (evexSrc3 s pfx w (s.pc + BitVec.ofNat 64 (evexSize pfx r)) (maskBits s mk) r).stop = some (.exn .alignmentCheck) := by
  obtain hgate | ⟨_, st, hread, hstop⟩ | ⟨_, _, hcommit⟩ := evexFmadd_cases k w pfx mk d v r s
  · exact absurd (h ▸ hgate) gate_ne_alignmentCheck
  · rwa [stop_of_stopWith_alignmentCheck (hstop.symm.trans h)] at hread
  · exact absurd (hcommit.symm.trans h) fmaddCommit_ne_alignmentCheck

/-- An embedded-rounding form reads no memory, so past its checks it completes. -/
theorem erFmadd_ne_alignmentCheck {k : Kind} {pfx : List LegacyPrefix} {rc : RoundingMode} {mk : Masking} {d v r : VReg} {s t : State} :
    erFmadd k pfx rc mk d v r s ≠ .fault (.exception .alignmentCheck t) := by
  intro h
  obtain hgate | ⟨_, hnext⟩ := erFmadd_cases k pfx rc mk d v r s
  · exact gate_ne_alignmentCheck (h ▸ hgate)
  · cases hnext.symm.trans h

/-- Settles O27: of all the ways an instruction can end, `#AC(0)` is the stop of a broadcast, and R199's condition is when that
happens. -/
theorem alignmentCheckOnlyBroadcast : Obligations.AlignmentCheckOnlyBroadcast := by
  refine ⟨fun k w pfx mk d v m s hready hac hacc hcan hmis => ?_, fun i s t h => ?_⟩
  · rw [exec_mkEvex, evexFmadd_stop hready (bcastSrc3_stop_eq_alignmentCheck_iff.mpr ⟨hac, hacc, hmis, hcan⟩)]
    rfl
  · obtain ⟨k, w, pfx, d, v, r, rfl⟩ | ⟨k, w, pfx, mk, d, v, r, rfl⟩ | ⟨k, pfx, rc, mk, d, v, r, rfl⟩ := instr_cases i
    · exact absurd (exec_mkVex k w pfx d v r s ▸ h) vexFmadd_ne_alignmentCheck
    · have hread := evexSrc3_stop_of_alignmentCheck (exec_mkEvex k w pfx mk d v r s ▸ h)
      obtain ⟨m, rfl⟩ := eq_bcast_of_evexSrc3_stop_alignmentCheck hread
      exact ⟨k, w, pfx, mk, d, v, m, rfl, bcastSrc3_stop_eq_alignmentCheck_iff.mp hread⟩
    · exact absurd (exec_mkEr k pfx rc mk d v r s ▸ h) erFmadd_ne_alignmentCheck

end Sys2Proof.Machine
end

section
/-! An unmasked SIMD floating-point exception (R196, R197): the element results and active elements of the common end, in the terms of
the statement. -/

namespace Sys2Proof.Machine

/-- The element results that the common end of a VEX form computes (R146). -/
theorem laneResults_vexElem (k : Kind) (s : State) (pfx : List LegacyPrefix) (d v : BitVec 4) (r : VexSrc3) :
    laneResults k (mxControl s) s (d.setWidth 5) (v.setWidth 5) (vexElem s pfx r) = vexLaneResult s k pfx d v r := by
  rw [laneResults_eq, mxControl_eq]
  rfl

/-- The element results that the common end of an EVEX form computes (R160). -/
theorem laneResults_evexElem (k : Kind) (w : EvexLen) (s : State) (pfx : List LegacyPrefix) (d v : VReg) (r : EvexSrc3) :
    laneResults k (mxControl s) s d v (evexElem s pfx w r) = evexLaneResult s k w pfx d v r := by
  rw [laneResults_eq, mxControl_eq]
  rfl

/-- A VEX form computes every element (R146). -/
theorem activeLanes_vex (w : VexLen) : activeLanes (vexKl w) noMask = List.range w.elements := by
  rw [vexKl_eq, activeLanes_noMask ((vexElements_le w).trans (by decide))]

/-- An EVEX form computes the elements that its mask makes active (R161). -/
theorem activeLanes_evex (s : State) (mk : Masking) (w : EvexLen) :
    activeLanes (evexKl w) (maskBits s mk) = activeBelow s mk w.elements := by
  rw [evexKl_eq, activeLanes_maskBits s mk (evexElements_le w)]

/-- Settles O28: a ready form with a readable operand reaches the common end, whose commit raises for an unmasked element. -/
theorem unmaskedExceptionRaises : Obligations.UnmaskedExceptionRaises := by
  refine ⟨rfl, rfl, fun k w pfx d v r s hready hread hunmasked => ?_, fun k w pfx mk d v r s hready hread hunmasked => ?_⟩
  · have hactive : ∃ j ∈ activeLanes (vexKl w) noMask, laneMasked s.mxcsr
        (laneResults k (mxControl s) s (d.setWidth 5) (v.setWidth 5) (vexElem s pfx r) j) = false := by
      simpa only [activeLanes_vex, laneResults_vexElem, List.mem_range] using hunmasked
    rw [exec_mkVex, vexFmadd_ready hready hread, fmaddCommit_unmasked hactive, activeLanes_vex, laneResults_vexElem]
  · have hactive : ∃ j ∈ activeLanes (evexKl w) (maskBits s mk), laneMasked s.mxcsr
        (laneResults k (mxControl s) s d v (evexElem s pfx w r) j) = false := by
      simpa only [activeLanes_evex, laneResults_evexElem] using hunmasked
    rw [exec_mkEvex, evexFmadd_ready hready hread, fmaddCommit_unmasked hactive, activeLanes_evex, laneResults_evexElem]

end Sys2Proof.Machine
end

section
/-! The decoder and the encoder against each other (R80 to R102): decoding gives an encoded instruction back, reads no byte beyond it,
and reads nothing but well-formed instructions. -/

namespace Sys2Proof

/-! ## Decoding an encoded instruction -/

/-- The operands of a VEX form read back from its third source's fields (R81, R82, R96). -/
theorem vexOperands_memFields (k : Kind) (l : BitVec 1) (pfx : List LegacyPrefix) (d v : BitVec 4) {m : MemOperand} (h : m.wf = true)
    (rest : List Byte) :
    vexOperands pfx k (~~~ extBit d ++ ~~~ (memFields m).x ++ ~~~ (memFields m).b ++ 0b00010#5) (1#1 ++ ~~~ v ++ l ++ 0b01#2)
        ((memFields m).md ++ lowBits d ++ (memFields m).rm) ((memFields m).tail ++ rest) =
      .instr (mkVex k (if l = 0#1 then .v128 else .v256) pfx d v (.mem m)) := by
  obtain ⟨_, hr, hx, hb⟩ := fields_vex1 (extBit d) (memFields m).x (memFields m).b
  obtain ⟨_, _, hl, hv⟩ := fields_vex2 v l
  obtain ⟨hmd, hreg, hrm⟩ := fields_233 (memFields m).md (lowBits d) (memFields m).rm
  simp only [vexOperands, hr, hx, hb, hl, hv, hmd, hreg, hrm, extBit_append_lowBits, if_neg (memFields_md_ne m),
    memAt_memFields h]

theorem vexOperands_regFields (k : Kind) (l : BitVec 1) (pfx : List LegacyPrefix) (d v r : BitVec 4) (rest : List Byte) :
    vexOperands pfx k (~~~ extBit d ++ ~~~ (regFields r).x ++ ~~~ (regFields r).b ++ 0b00010#5) (1#1 ++ ~~~ v ++ l ++ 0b01#2)
        ((regFields r).md ++ lowBits d ++ (regFields r).rm) rest =
      .instr (mkVex k (if l = 0#1 then .v128 else .v256) pfx d v (.reg r)) := by
  obtain ⟨_, hr, _, hb⟩ := fields_vex1 (extBit d) (regFields r).x (regFields r).b
  obtain ⟨_, _, hl, hv⟩ := fields_vex2 v l
  obtain ⟨hmd, hreg, hrm⟩ := fields_233 (regFields r).md (lowBits d) (regFields r).rm
  simp only [vexOperands, hr, hb, hl, hv, hmd, hreg, hrm, extBit_append_lowBits]
  simp only [regFields, extBit_append_lowBits, if_true]

/-- A VEX form is read back from its bytes, whatever follows them (R81, R82, R96). -/
theorem decode_encodeVex (k : Kind) (w : VexLen) (pfx : List LegacyPrefix) (d v : BitVec 4) {r : VexSrc3} (h : r.wf = true)
    (rest : List Byte) : decode (encodeVex k w pfx d v r ++ rest) = .instr (mkVex k w pfx d v r) := by
  have hfamily (x b l : BitVec 1) (modrm : Byte) (tail : List Byte) := decodeVex_family (pfx := pfx) (modrm := modrm) (tail := tail)
    (fields_vex1 (extBit d) x b).1 (fields_vex2 v l).1 (fields_vex2 v l).2.1 (kindOfOpcode_opcodeOfKind k)
  cases r with
  | reg r =>
    simp only [encodeVex, List.append_assoc, List.cons_append, List.nil_append, decode_vex, hfamily, vexOperands_regFields]
    cases w <;> rfl
  | mem m =>
    simp only [encodeVex, List.append_assoc, List.cons_append, List.nil_append, decode_vex, hfamily, vexOperands_memFields _ _ _ _ _ h]
    cases w <;> rfl

/-- The prefix fields of an EVEX form read back (R86 to R89, R97), its third source given as the decoder reads it. -/
theorem decode_encodeEvexFields (k : Kind) (ll : BitVec 2) (b : BitVec 1) (pfx : List LegacyPrefix) (mk : Masking) (d v : VReg)
    {f : MemFields} {src3 : VReg ⊕ MemOperand} (rest : List Byte)
    (h : (f.md = 0b11#2 ∧ src3 = .inl (f.x ++ f.b ++ f.rm)) ∨
      (f.md ≠ 0b11#2 ∧ ∃ m, memAt f.x f.b f.md f.rm (f.tail ++ rest) = some m ∧ src3 = .inr m)) :
    decode (encodeEvexFields k ll b pfx mk d v f ++ rest) =
      evexInstr pfx k (BitVec.ofBool mk.z ++ ll ++ b ++ ~~~ v.extractLsb' 4 1 ++ mk.aaa) d v src3 := by
  obtain ⟨hmap, hres0, hr, hx, hb, hr'⟩ := fields_p0 (d.extractLsb' 3 1) f.x f.b (d.extractLsb' 4 1)
  obtain ⟨hw, hpp, hres1, hv⟩ := fields_p1 (v.extractLsb' 0 4)
  obtain ⟨_, _, _, hv', _⟩ := fields_p2 mk.z ll b (v.extractLsb' 4 1) mk.aaa
  obtain ⟨hmd, hreg, hrm⟩ := fields_233 f.md (d.extractLsb' 0 3) f.rm
  simp only [encodeEvexFields, List.append_assoc, List.cons_append, List.nil_append, decode_evex,
    decodeEvex_family hmap hw hpp (kindOfOpcode_opcodeOfKind k)]
  simp only [evexOperands, hres0, hr, hx, hb, hr', hres1, hv, hv', hmd, hreg, hrm, (reg5_append d).1, (reg5_append v).2, ne_eq,
    not_true_eq_false, or_self, decide_false, Bool.false_eq_true, if_false]
  rcases h with ⟨h3, rfl⟩ | ⟨h3, m, hm, rfl⟩
  · rw [if_pos h3]
  · rw [if_neg h3, hm]

/-- The fields of a five-bit register number are read as a register (R97). -/
theorem regFields5_read (r : VReg) :
    (regFields5 r).md = 0b11#2 ∧ (.inl r : VReg ⊕ MemOperand) = .inl ((regFields5 r).x ++ (regFields5 r).b ++ (regFields5 r).rm) :=
  ⟨rfl, congrArg Sum.inl (reg5_append r).1.symm⟩

/-- An EVEX form without embedded rounding is read back from its bytes, whatever follows them (R86 to R90, R97). -/
theorem decode_encodeEvex (k : Kind) (w : EvexLen) (pfx : List LegacyPrefix) (mk : Masking) (d v : VReg) {r : EvexSrc3}
    (h : r.wf = true) (rest : List Byte) : decode (encodeEvex k w pfx mk d v r ++ rest) = .instr (mkEvex k w pfx mk d v r) := by
  obtain ⟨hz, hll, hb0, _, ha⟩ := fields_p2 mk.z (evexLenBits w) 0#1 (v.extractLsb' 4 1) mk.aaa
  obtain ⟨hz', hll', hb1, _, ha'⟩ := fields_p2 mk.z (evexLenBits w) 1#1 (v.extractLsb' 4 1) mk.aaa
  have hnb : decide ((0#1 : BitVec 1) = 1#1) = false := rfl
  cases r with
  | reg r =>
    rw [encodeEvex, decode_encodeEvexFields k _ _ pfx mk d v rest (.inl (regFields5_read r))]
    simp only [evexInstr, hz, hll, hb0, ha, ofBool_eq_one_iff, evexLenOfBits_evexLenBits, hnb]
  | full m =>
    rw [encodeEvex, decode_encodeEvexFields k _ _ pfx mk d v rest (.inr ⟨memFields_md_ne m, m, memAt_memFields h rest, rfl⟩)]
    simp only [evexInstr, hz, hll, hb0, ha, ofBool_eq_one_iff, evexLenOfBits_evexLenBits, hnb]
  | bcast m =>
    rw [encodeEvex, decode_encodeEvexFields k _ _ pfx mk d v rest (.inr ⟨memFields_md_ne m, m, memAt_memFields h rest, rfl⟩)]
    simp only [evexInstr, hz', hll', hb1, ha', ofBool_eq_one_iff, evexLenOfBits_evexLenBits, decide_true]

/-- An embedded-rounding form is read back from its bytes, whatever follows them (R91, R97). -/
theorem decode_encodeEr (k : Kind) (pfx : List LegacyPrefix) (rc : RoundingMode) (mk : Masking) (d v r : VReg) (rest : List Byte) :
    decode (encodeEr k pfx rc mk d v r ++ rest) = .instr (mkEr k pfx rc mk d v r) := by
  obtain ⟨hz, hrc, hb, _, ha⟩ := fields_p2 mk.z (roundingBits rc) 1#1 (v.extractLsb' 4 1) mk.aaa
  rw [encodeEr, decode_encodeEvexFields k _ _ pfx mk d v rest (.inl (regFields5_read r))]
  simp only [evexInstr, hz, hrc, hb, ha, ofBool_eq_one_iff, roundingOfBits_roundingBits, decide_true]

/-- An instruction with expressible operands, of whatever length, is read back from its bytes (R80 to R102). -/
theorem decode_encode_append {i : Instr} (h : i.operandsWf = true) (rest : List Byte) : decode (encode i ++ rest) = .instr i := by
  obtain ⟨k, w, pfx, d, v, r, rfl⟩ | ⟨k, w, pfx, mk, d, v, r, rfl⟩ | ⟨k, pfx, rc, mk, d, v, r, rfl⟩ := instr_cases i
  · rw [encode_mkVex, decode_encodeVex k w pfx d v (by simpa using h)]
  · rw [encode_mkEvex, decode_encodeEvex k w pfx mk d v (by simpa using h)]
  · rw [encode_mkEr, decode_encodeEr]

theorem Instr.wf_iff (i : Instr) : i.wf = true ↔ i.operandsWf = true ∧ i.size ≤ 15 := by
  rw [Instr.wf, Bool.and_eq_true, decide_eq_true_eq]; rfl

/-- Settles O1: each of the three encoders is read back field by field. -/
theorem decodeEncodeRoundTrip : Obligations.DecodeEncodeRoundTrip :=
  fun i rest h => decode_encode_append (i.wf_iff.mp h).1 rest

/-! ## The bytes of a decoded instruction -/

/-- What the decoder reads as an instruction is as long as the instruction says, has expressible operands, and is read from the
instruction's own bytes alone (R80, R95). -/
theorem decode_instr_spec {bytes : List Byte} {i : Instr} (h : decode bytes = .instr i) :
    i.size ≤ bytes.length ∧ i.operandsWf = true ∧ ∀ rest, decode (bytes.take i.size ++ rest) = .instr i := by
  obtain ⟨pfx, body, ⟨rfl, hv⟩ | ⟨rfl, he⟩⟩ := decode_eq_instr h
  · obtain ⟨b1, b2, op, modrm, tail, k, rfl, hmap, hw, hpp, hk, ho⟩ := decodeVex_eq_instr hv
    obtain ⟨hlen, hsize, hwf, _, hown⟩ := vexOperands_instr ho
    refine ⟨by simp only [hsize, List.length_append, List.length_map, List.length_cons]; omega, hwf, fun rest => ?_⟩
    have htake : (pfx.map byteOfPrefix ++ 0xC4#8 :: b1 :: b2 :: op :: modrm :: tail).take i.size =
        pfx.map byteOfPrefix ++ 0xC4#8 :: b1 :: b2 :: op :: modrm :: tail.take (operandTail modrm tail) := by
      rw [hsize, show pfx.length + 3 + 2 + operandTail modrm tail =
        (pfx.map byteOfPrefix).length + (operandTail modrm tail + 5) by rw [List.length_map]; omega, List.take_length_add_append]
      rfl
    rw [htake, List.append_assoc]
    exact (decode_vex pfx _).trans ((decodeVex_family hmap hw hpp hk).trans (hown rest))
  · obtain ⟨p0, p1, p2, op, modrm, tail, k, rfl, hmap, hw, hpp, hk, ho⟩ := decodeEvex_eq_instr he
    obtain ⟨hlen, hsize, hwf, _, hown⟩ := evexOperands_instr ho
    refine ⟨by simp only [hsize, List.length_append, List.length_map, List.length_cons]; omega, hwf, fun rest => ?_⟩
    have htake : (pfx.map byteOfPrefix ++ 0x62#8 :: p0 :: p1 :: p2 :: op :: modrm :: tail).take i.size =
        pfx.map byteOfPrefix ++ 0x62#8 :: p0 :: p1 :: p2 :: op :: modrm :: tail.take (operandTail modrm tail) := by
      rw [hsize, show pfx.length + 4 + 2 + operandTail modrm tail =
        (pfx.map byteOfPrefix).length + (operandTail modrm tail + 6) by rw [List.length_map]; omega, List.take_length_add_append]
      rfl
    rw [htake, List.append_assoc]
    exact (decode_evex pfx _).trans ((decodeEvex_family hmap hw hpp hk).trans (hown rest))

/-- Settles O3: the operands are expressible, and the instruction is no longer than the bytes it was read from. -/
theorem decodedIsWellFormed : Obligations.DecodedIsWellFormed := by
  intro bytes i hlen h
  obtain ⟨hsize, hwf, _⟩ := decode_instr_spec h
  exact i.wf_iff.mpr ⟨hwf, hsize.trans hlen⟩

/-- Settles O4: the operand bytes that R95 counts are all that the operand decoders read. -/
theorem decodeReadsItsOwnBytes : Obligations.DecodeReadsItsOwnBytes := by
  intro bytes i h
  obtain ⟨hsize, _, hown⟩ := decode_instr_spec h
  exact ⟨hsize, hown⟩

/-- Settles O6: each word is decoded by evaluation. -/
theorem specWordsDecode : Obligations.SpecWordsDecode := by
  unfold Obligations.SpecWordsDecode
  decide

end Sys2Proof
end

section
/-! The decoder against the opcode table of R102: the rows as bytes under a mask, the words that match a row, and that the first matching
row is that of the decoded instruction. -/

namespace Sys2Proof

/-! ## Numbers of bytes -/

theorem bytesAsNumber_concat (l : List Byte) (b : Byte) : bytesAsNumber (l ++ [b]) = bytesAsNumber l * 256 + b.toNat := by
  simp only [bytesAsNumber, List.foldl_append, List.foldl_cons, List.foldl_nil]

/-- A bitwise `and` of numbers goes byte by byte. -/
theorem land_append_byte (n m : ℕ) (b c : Byte) :
    (n * 256 + b.toNat) &&& (m * 256 + c.toNat) = (n &&& m) * 256 + (b &&& c).toNat := by
  have hb := b.isLt
  have hc := c.isLt
  refine Nat.eq_of_testBit_eq fun i => ?_
  have hpow : (256 : ℕ) = 2 ^ 8 := rfl
  rw [BitVec.toNat_and, Nat.testBit_and, hpow, mul_comm n, mul_comm m, mul_comm (n &&& m), Nat.testBit_two_pow_mul_add _ hb,
    Nat.testBit_two_pow_mul_add _ hc, Nat.testBit_two_pow_mul_add _ (lt_of_le_of_lt Nat.and_le_left hb)]
  split <;> simp

theorem land_bytesAsNumber (l : List Byte) : ∀ m : List Byte, l.length = m.length →
    Nat.land (bytesAsNumber l) (bytesAsNumber m) = bytesAsNumber (List.zipWith (· &&& ·) l m) := by
  induction l using List.reverseRecOn with
  | nil => exact fun m _ => Nat.zero_and _
  | append_singleton l b ih =>
    intro m hm
    obtain ⟨m, c, rfl⟩ := List.eq_nil_or_concat' m |>.resolve_left (by rintro rfl; simp at hm)
    have hlen : l.length = m.length := by simpa using hm
    rw [List.zipWith_append hlen, bytesAsNumber_concat, bytesAsNumber_concat, List.zipWith_cons_cons, List.zipWith_nil_left,
      bytesAsNumber_concat, ← ih m hlen]
    exact land_append_byte _ _ b c

theorem bytesAsNumber_inj (l : List Byte) : ∀ m : List Byte, l.length = m.length →
    (bytesAsNumber l = bytesAsNumber m ↔ l = m) := by
  induction l using List.reverseRecOn with
  | nil => exact fun m hm => by simp [List.length_eq_zero_iff.mp hm.symm]
  | append_singleton l b ih =>
    intro m hm
    obtain ⟨m, c, rfl⟩ := List.eq_nil_or_concat' m |>.resolve_left (by rintro rfl; simp at hm)
    have hlen : l.length = m.length := by simpa using hm
    have hb := b.isLt
    have hc := c.isLt
    rw [bytesAsNumber_concat, bytesAsNumber_concat]
    constructor
    · intro h
      rw [(ih m hlen).mp (by omega), BitVec.eq_of_toNat_eq (x := b) (y := c) (by omega)]
    · intro h
      rw [List.append_inj_left h hlen, List.singleton_inj.mp (List.append_inj_right h hlen)]

/-! ## Rows as bytes -/

/-- A row of the table from its fixed bits byte by byte. -/
def byteRow (n : ℕ) (pattern mask : List Byte) : OpcodeRow := ⟨n, mask.length, bytesAsNumber pattern, bytesAsNumber mask⟩

/-- A row matches the bytes that under its mask are its pattern. -/
theorem byteRow_matches_iff (n : ℕ) {pattern mask : List Byte} (hlen : pattern.length = mask.length) (bytes : List Byte) :
    (byteRow n pattern mask).matchesBytes bytes = true ↔ List.zipWith (· &&& ·) bytes mask = pattern := by
  have htake : List.zipWith (· &&& ·) (bytes.take mask.length) mask = List.zipWith (· &&& ·) bytes mask := by
    rw [← List.take_of_length_le (List.length_zipWith.trans_le (Nat.min_le_right bytes.length mask.length)), List.take_zipWith,
      List.take_length]
  rw [OpcodeRow.matchesBytes, decide_eq_true_eq]
  simp only [byteRow]
  constructor
  · rintro ⟨hle, h⟩
    have hl : (bytes.take mask.length).length = mask.length := by rw [List.length_take, Nat.min_eq_left hle]
    rw [land_bytesAsNumber _ _ hl, htake] at h
    exact (bytesAsNumber_inj _ _ (by rw [List.length_zipWith, hlen, Nat.min_eq_right hle])).mp h
  · intro h
    have hle : mask.length ≤ bytes.length := by
      have := congrArg List.length h
      rw [List.length_zipWith, hlen] at this
      omega
    have hl : (bytes.take mask.length).length = mask.length := by rw [List.length_take, Nat.min_eq_left hle]
    exact ⟨hle, by rw [land_bytesAsNumber _ _ hl, htake, h]⟩

/-- The fixed bits of byte 2 of a VEX prefix (R81). -/
def vexByte2 : VexLen → Byte
  | .v128 => 0x81#8
  | .v256 => 0x85#8

/-- `EVEX.L'L` in its place in `P2` (R86, R88). -/
def evexLengthBits : EvexLen → Byte
  | .v128 => 0x00#8
  | .v256 => 0x20#8
  | .v512 => 0x40#8

/-- The row of a VEX form (R102, rows 1 to 6). -/
def vexRow (k : Kind) (w : VexLen) : OpcodeRow :=
  byteRow (mkVex k w [] 0 0 (.reg 0)).row
    [0xC4#8, 0x02#8, vexByte2 w, opcodeOfKind k, 0x00#8] [0xFF#8, 0x1F#8, 0x87#8, 0xFF#8, 0x00#8]

/-- The row of an EVEX form without embedded rounding (R102, rows 7 to 15). -/
def evexRow (k : Kind) (w : EvexLen) : OpcodeRow :=
  byteRow (mkEvex k w [] ⟨0, false⟩ 0 0 (.reg 0)).row
    [0x62#8, 0x02#8, 0x85#8, evexLengthBits w, opcodeOfKind k, 0x00#8]
    [0xFF#8, 0x0F#8, 0x87#8, 0x60#8, 0xFF#8, 0x00#8]

/-- The row of an embedded-rounding form (R102, rows 16 to 18). -/
def erRow (k : Kind) : OpcodeRow :=
  byteRow (mkEr k [] .rn ⟨0, false⟩ 0 0 0).row [0x62#8, 0x02#8, 0x85#8, 0x10#8, opcodeOfKind k, 0xC0#8]
    [0xFF#8, 0x0F#8, 0x87#8, 0x10#8, 0xFF#8, 0xC0#8]

/-- The rows that stand before rows 7 to 15 in decoding order. -/
def rowsBeforeEvex : List OpcodeRow :=
  [vexRow .k132 .v128, vexRow .k213 .v128, vexRow .k231 .v128, vexRow .k132 .v256, vexRow .k213 .v256, vexRow .k231 .v256,
    erRow .k132, erRow .k213, erRow .k231]

/-- Rows 7 to 15. -/
def evexRows : List OpcodeRow :=
  [evexRow .k132 .v128, evexRow .k213 .v128, evexRow .k231 .v128, evexRow .k132 .v256, evexRow .k213 .v256, evexRow .k231 .v256,
    evexRow .k132 .v512, evexRow .k213 .v512, evexRow .k231 .v512]

theorem opcodeTable_eq : opcodeTable = rowsBeforeEvex ++ evexRows := by decide

theorem mem_rowsBeforeEvex {r : OpcodeRow} : r ∈ rowsBeforeEvex ↔ (∃ k w, r = vexRow k w) ∨ ∃ k, r = erRow k := by
  constructor
  · simp only [rowsBeforeEvex, List.mem_cons, List.not_mem_nil, or_false]
    rintro (h | h | h | h | h | h | h | h | h)
    exacts [.inl ⟨_, _, h⟩, .inl ⟨_, _, h⟩, .inl ⟨_, _, h⟩, .inl ⟨_, _, h⟩, .inl ⟨_, _, h⟩, .inl ⟨_, _, h⟩, .inr ⟨_, h⟩,
      .inr ⟨_, h⟩, .inr ⟨_, h⟩]
  · rintro (⟨k, w, rfl⟩ | ⟨k, rfl⟩)
    · cases k <;> cases w <;> simp [rowsBeforeEvex]
    · cases k <;> simp [rowsBeforeEvex]

theorem mem_evexRows {r : OpcodeRow} : r ∈ evexRows ↔ ∃ k w, r = evexRow k w := by
  constructor
  · simp only [evexRows, List.mem_cons, List.not_mem_nil, or_false]
    rintro (h | h | h | h | h | h | h | h | h) <;> exact ⟨_, _, h⟩
  · rintro ⟨k, w, rfl⟩
    cases k <;> cases w <;> simp [evexRows]

/-! ## Words that match a row -/

/-- The bytes are a VEX word of the family with this mnemonic (R81). -/
def IsVexWord (k : Kind) (b2 modrm : Byte) (bytes : List Byte) : Prop :=
  ∃ (b1 op : Byte) (tail : List Byte), bytes = 0xC4#8 :: b1 :: b2 :: op :: modrm :: tail ∧ b1.extractLsb' 0 5 = 0b00010#5 ∧
    b2.extractLsb' 7 1 = 1#1 ∧ b2.extractLsb' 0 2 = 0b01#2 ∧ kindOfOpcode op = some k

/-- The bytes are an EVEX word of the family with this mnemonic and no reserved bit set (R86, R103). -/
def IsEvexWord (k : Kind) (p2 modrm : Byte) (bytes : List Byte) : Prop :=
  ∃ (p0 p1 op : Byte) (tail : List Byte), bytes = 0x62#8 :: p0 :: p1 :: p2 :: op :: modrm :: tail ∧ p0.extractLsb' 0 2 = 0b10#2 ∧
    p0.extractLsb' 2 2 = 0b00#2 ∧ p1.extractLsb' 7 1 = 1#1 ∧ p1.extractLsb' 0 2 = 0b01#2 ∧ p1.extractLsb' 2 1 = 1#1 ∧
    kindOfOpcode op = some k

/-! The fixed bits of each byte, under its mask and as fields. -/

theorem vexMap_iff (b : Byte) : b &&& 0x1F#8 = 0x02#8 ↔ b.extractLsb' 0 5 = 0b00010#5 := by
  revert b; decide +kernel

theorem vexByte2_iff (w : VexLen) (b : Byte) :
    b &&& 0x87#8 = vexByte2 w ↔
      b.extractLsb' 7 1 = 1#1 ∧ b.extractLsb' 0 2 = 0b01#2 ∧ w = if b.extractLsb' 2 1 = 0#1 then .v128 else .v256 := by
  cases w <;> revert b <;> decide +kernel

theorem evexP0_iff (b : Byte) : b &&& 0x0F#8 = 0x02#8 ↔ b.extractLsb' 0 2 = 0b10#2 ∧ b.extractLsb' 2 2 = 0b00#2 := by
  revert b; decide +kernel

theorem evexP1_iff (b : Byte) :
    b &&& 0x87#8 = 0x85#8 ↔ b.extractLsb' 7 1 = 1#1 ∧ b.extractLsb' 0 2 = 0b01#2 ∧ b.extractLsb' 2 1 = 1#1 := by
  revert b; decide +kernel

theorem evexLength_iff (w : EvexLen) (b : Byte) :
    b &&& 0x60#8 = evexLengthBits w ↔ evexLenOfBits (b.extractLsb' 5 2) = some w := by
  cases w <;> revert b <;> decide +kernel

theorem evexB_iff (b : Byte) : b &&& 0x10#8 = 0x10#8 ↔ b.extractLsb' 4 1 = 1#1 := by
  revert b; decide +kernel

theorem registerForm_iff (b : Byte) : b &&& 0xC0#8 = 0xC0#8 ↔ b.extractLsb' 6 2 = 0b11#2 := by
  revert b; decide +kernel

theorem byte_and_ones (b : Byte) : b &&& 0xFF#8 = b := BitVec.and_allOnes

theorem byte_and_zero (b : Byte) : b &&& 0x00#8 = 0x00#8 := BitVec.and_zero

/-- A first byte under a mask. -/
theorem zipWith_and_cons_iff {m q : Byte} {mask pattern bytes : List Byte} :
    List.zipWith (· &&& ·) bytes (m :: mask) = q :: pattern ↔
      ∃ b tail, bytes = b :: tail ∧ b &&& m = q ∧ List.zipWith (· &&& ·) tail mask = pattern := by
  cases bytes <;> simp

/-- The bytes that match a row of a VEX form (R81, R102). -/
theorem vexRow_matches_iff (k : Kind) (w : VexLen) (bytes : List Byte) :
    (vexRow k w).matchesBytes bytes = true ↔
      ∃ b2 modrm, IsVexWord k b2 modrm bytes ∧ w = if b2.extractLsb' 2 1 = 0#1 then .v128 else .v256 := by
  unfold vexRow
  refine (byteRow_matches_iff _ (by rfl) bytes).trans ?_
  simp only [zipWith_and_cons_iff, List.zipWith_nil_right, byte_and_ones, byte_and_zero, vexMap_iff, vexByte2_iff]
  constructor
  · rintro ⟨_, _, rfl, rfl, b1, _, rfl, hmap, b2, _, rfl, ⟨hw, hpp, hl⟩, _, _, rfl, rfl, modrm, tail, rfl, -, -⟩
    exact ⟨b2, modrm, ⟨b1, _, tail, rfl, hmap, hw, hpp, kindOfOpcode_opcodeOfKind k⟩, hl⟩
  · rintro ⟨b2, modrm, ⟨b1, op, tail, rfl, hmap, hw, hpp, hk⟩, hl⟩
    exact ⟨_, _, rfl, rfl, b1, _, rfl, hmap, b2, _, rfl, ⟨hw, hpp, hl⟩, op, _, rfl, opcodeOfKind_of_kindOfOpcode hk, modrm, tail, rfl,
      trivial, trivial⟩

/-- The bytes that match a row of an EVEX form without embedded rounding (R88, R102). -/
theorem evexRow_matches_iff (k : Kind) (w : EvexLen) (bytes : List Byte) :
    (evexRow k w).matchesBytes bytes = true ↔
      ∃ p2 modrm, IsEvexWord k p2 modrm bytes ∧ evexLenOfBits (p2.extractLsb' 5 2) = some w := by
  unfold evexRow
  refine (byteRow_matches_iff _ (by rfl) bytes).trans ?_
  simp only [zipWith_and_cons_iff, List.zipWith_nil_right, byte_and_ones, byte_and_zero, evexP0_iff, evexP1_iff, evexLength_iff]
  constructor
  · rintro ⟨_, _, rfl, rfl, p0, _, rfl, ⟨hmap, h0⟩, p1, _, rfl, ⟨hw, hpp, h1⟩, p2, _, rfl, hl, _, _, rfl, rfl, modrm, tail, rfl, -, -⟩
    exact ⟨p2, modrm, ⟨p0, p1, _, tail, rfl, hmap, h0, hw, hpp, h1, kindOfOpcode_opcodeOfKind k⟩, hl⟩
  · rintro ⟨p2, modrm, ⟨p0, p1, op, tail, rfl, hmap, h0, hw, hpp, h1, hk⟩, hl⟩
    exact ⟨_, _, rfl, rfl, p0, _, rfl, ⟨hmap, h0⟩, p1, _, rfl, ⟨hw, hpp, h1⟩, p2, _, rfl, hl, op, _, rfl,
      opcodeOfKind_of_kindOfOpcode hk, modrm, tail, rfl, trivial, trivial⟩

/-- The bytes that match a row of an embedded-rounding form (R91, R102). -/
theorem erRow_matches_iff (k : Kind) (bytes : List Byte) :
    (erRow k).matchesBytes bytes = true ↔
      ∃ p2 modrm, IsEvexWord k p2 modrm bytes ∧ p2.extractLsb' 4 1 = 1#1 ∧ modrm.extractLsb' 6 2 = 0b11#2 := by
  unfold erRow
  refine (byteRow_matches_iff _ (by rfl) bytes).trans ?_
  simp only [zipWith_and_cons_iff, List.zipWith_nil_right, byte_and_ones, evexP0_iff, evexP1_iff, evexB_iff, registerForm_iff]
  constructor
  · rintro ⟨_, _, rfl, rfl, p0, _, rfl, ⟨hmap, h0⟩, p1, _, rfl, ⟨hw, hpp, h1⟩, p2, _, rfl, hb, _, _, rfl, rfl, modrm, tail, rfl, hmd, -⟩
    exact ⟨p2, modrm, ⟨p0, p1, _, tail, rfl, hmap, h0, hw, hpp, h1, kindOfOpcode_opcodeOfKind k⟩, hb, hmd⟩
  · rintro ⟨p2, modrm, ⟨p0, p1, op, tail, rfl, hmap, h0, hw, hpp, h1, hk⟩, hb, hmd⟩
    exact ⟨_, _, rfl, rfl, p0, _, rfl, ⟨hmap, h0⟩, p1, _, rfl, ⟨hw, hpp, h1⟩, p2, _, rfl, hb, op, _, rfl,
      opcodeOfKind_of_kindOfOpcode hk, modrm, tail, rfl, hmd, trivial⟩

/-! The same bytes are one word of the family at most. -/

theorem IsVexWord.unique {k k' : Kind} {b2 b2' modrm modrm' : Byte} {bytes : List Byte} (h : IsVexWord k b2 modrm bytes)
    (h' : IsVexWord k' b2' modrm' bytes) : k = k' ∧ b2 = b2' := by
  obtain ⟨_, _, _, rfl, _, _, _, hk⟩ := h
  obtain ⟨_, _, _, hb, _, _, _, hk'⟩ := h'
  cases hb
  exact ⟨Option.some.inj (hk.symm.trans hk'), rfl⟩

theorem IsEvexWord.unique {k k' : Kind} {p2 p2' modrm modrm' : Byte} {bytes : List Byte} (h : IsEvexWord k p2 modrm bytes)
    (h' : IsEvexWord k' p2' modrm' bytes) : k = k' ∧ p2 = p2' ∧ modrm = modrm' := by
  obtain ⟨_, _, _, _, rfl, _, _, _, _, _, hk⟩ := h
  obtain ⟨_, _, _, _, hb, _, _, _, _, _, hk'⟩ := h'
  cases hb
  exact ⟨Option.some.inj (hk.symm.trans hk'), rfl, rfl⟩

theorem IsVexWord.not_isEvexWord {k k' : Kind} {b2 p2 modrm modrm' : Byte} {bytes : List Byte} (h : IsVexWord k b2 modrm bytes) :
    ¬ IsEvexWord k' p2 modrm' bytes := by
  rintro ⟨_, _, _, _, hb, _⟩
  obtain ⟨_, _, _, rfl, _⟩ := h
  cases hb

/-! ## The first matching row -/

/-- The only element of a list with a property is the first with it. -/
theorem find?_eq_some_of_unique {l : List OpcodeRow} {p : OpcodeRow → Bool} {a : OpcodeRow} (ha : a ∈ l) (hp : p a = true)
    (hu : ∀ b ∈ l, p b = true → b = a) : l.find? p = some a := by
  obtain ⟨b, hb⟩ := Option.isSome_iff_exists.mp (List.find?_isSome.mpr ⟨a, ha, hp⟩)
  rw [hb, hu b (List.mem_of_find?_eq_some hb) (List.find?_some hb)]

/-- A row before rows 7 to 15 that alone among those matches is the first matching row. -/
theorem firstRow_of_unique_before {bytes : List Byte} {a : OpcodeRow} (ha : a ∈ rowsBeforeEvex) (hp : a.matchesBytes bytes = true)
    (hu : ∀ b ∈ rowsBeforeEvex, b.matchesBytes bytes = true → b = a) : firstRow bytes = some a.row := by
  rw [firstRow, opcodeTable_eq, List.find?_append, find?_eq_some_of_unique ha hp hu]
  rfl

theorem firstRow_of_vexWord {k : Kind} {b2 modrm : Byte} {bytes : List Byte} (h : IsVexWord k b2 modrm bytes) :
    firstRow bytes = some (vexRow k (if b2.extractLsb' 2 1 = 0#1 then .v128 else .v256)).row := by
  refine firstRow_of_unique_before (mem_rowsBeforeEvex.mpr (.inl ⟨_, _, rfl⟩)) ((vexRow_matches_iff _ _ _).mpr ⟨b2, modrm, h, rfl⟩) ?_
  intro b hb hm
  obtain ⟨k', w', rfl⟩ | ⟨k', rfl⟩ := mem_rowsBeforeEvex.mp hb
  · obtain ⟨_, _, h', rfl⟩ := (vexRow_matches_iff _ _ _).mp hm
    obtain ⟨rfl, rfl⟩ := h.unique h'
    rfl
  · obtain ⟨_, _, h', _⟩ := (erRow_matches_iff _ _).mp hm
    exact absurd h' h.not_isEvexWord

theorem firstRow_of_erWord {k : Kind} {p2 modrm : Byte} {bytes : List Byte} (h : IsEvexWord k p2 modrm bytes)
    (hb : p2.extractLsb' 4 1 = 1#1) (hmd : modrm.extractLsb' 6 2 = 0b11#2) : firstRow bytes = some (erRow k).row := by
  refine firstRow_of_unique_before (mem_rowsBeforeEvex.mpr (.inr ⟨_, rfl⟩)) ((erRow_matches_iff _ _).mpr ⟨p2, modrm, h, hb, hmd⟩) ?_
  intro b hb hm
  obtain ⟨k', w', rfl⟩ | ⟨k', rfl⟩ := mem_rowsBeforeEvex.mp hb
  · obtain ⟨_, _, h', _⟩ := (vexRow_matches_iff _ _ _).mp hm
    exact absurd h h'.not_isEvexWord
  · obtain ⟨_, _, h', _⟩ := (erRow_matches_iff _ _).mp hm
    obtain ⟨rfl, _⟩ := h.unique h'
    rfl

theorem firstRow_of_evexWord {k : Kind} {w : EvexLen} {p2 modrm : Byte} {bytes : List Byte} (h : IsEvexWord k p2 modrm bytes)
    (her : ¬(p2.extractLsb' 4 1 = 1#1 ∧ modrm.extractLsb' 6 2 = 0b11#2)) (hw : evexLenOfBits (p2.extractLsb' 5 2) = some w) :
    firstRow bytes = some (evexRow k w).row := by
  have hmem : evexRow k w ∈ opcodeTable := opcodeTable_eq ▸ List.mem_append_right _ (mem_evexRows.mpr ⟨k, w, rfl⟩)
  rw [firstRow, find?_eq_some_of_unique hmem ((evexRow_matches_iff _ _ _).mpr ⟨p2, modrm, h, hw⟩)]
  · rfl
  intro b hb hm
  rw [opcodeTable_eq, List.mem_append, mem_rowsBeforeEvex, mem_evexRows] at hb
  obtain (⟨k', w', rfl⟩ | ⟨k', rfl⟩) | ⟨k', w', rfl⟩ := hb
  · obtain ⟨_, _, h', _⟩ := (vexRow_matches_iff _ _ _).mp hm
    exact absurd h h'.not_isEvexWord
  · obtain ⟨_, _, h', hb', hmd'⟩ := (erRow_matches_iff _ _).mp hm
    obtain ⟨_, rfl, rfl⟩ := h.unique h'
    exact absurd ⟨hb', hmd'⟩ her
  · obtain ⟨_, _, h', hw'⟩ := (evexRow_matches_iff _ _ _).mp hm
    obtain ⟨rfl, rfl, _⟩ := h.unique h'
    rw [Option.some.inj (hw.symm.trans hw')]

/-! ## The decoded row -/

theorem row_mkVex (k : Kind) (w : VexLen) (pfx : List LegacyPrefix) (d v : BitVec 4) (r : VexSrc3) :
    (mkVex k w pfx d v r).row = (vexRow k w).row := by
  cases k <;> cases w <;> rfl

theorem row_mkEvex (k : Kind) (w : EvexLen) (pfx : List LegacyPrefix) (mk : Masking) (d v : VReg) (r : EvexSrc3) :
    (mkEvex k w pfx mk d v r).row = (evexRow k w).row := by
  cases k <;> cases w <;> rfl

theorem row_mkEr (k : Kind) (pfx : List LegacyPrefix) (rc : RoundingMode) (mk : Masking) (d v r : VReg) :
    (mkEr k pfx rc mk d v r).row = (erRow k).row := by
  cases k <;> rfl

/-- A VEX word of the family ends too early or is the instruction of its first row (R81, R102). -/
theorem decodeBody_vexWord {k : Kind} {b2 modrm : Byte} {bytes : List Byte} (h : IsVexWord k b2 modrm bytes) (pfx : List LegacyPrefix) :
    decodeBody pfx bytes = .truncated ∨ ∃ i, decodeBody pfx bytes = .instr i ∧ firstRow bytes = some i.row := by
  have hrow := firstRow_of_vexWord h
  obtain ⟨b1, op, tail, rfl, hmap, hw, hpp, hk⟩ := h
  have hbody : decodeBody pfx (0xC4#8 :: b1 :: b2 :: op :: modrm :: tail) = vexOperands pfx k b1 b2 modrm tail :=
    decodeVex_family hmap hw hpp hk
  rw [hbody]
  obtain ⟨_, ht⟩ | ⟨_, w, d, v, r, hi, _, rfl, _⟩ := vexOperands_spec pfx k b1 b2 modrm tail
  · exact .inl ht
  · exact .inr ⟨_, hi, by rw [hrow, row_mkVex]⟩

/-- An EVEX word of the family whose `L'L` is not reserved ends too early or is the instruction of its first row (R86 to R91, R102,
R104). -/
theorem decodeBody_evexWord {k : Kind} {p2 modrm : Byte} {bytes : List Byte} (h : IsEvexWord k p2 modrm bytes)
    (hll : p2.extractLsb' 5 2 ≠ 0b11#2 ∨ (p2.extractLsb' 4 1 = 1#1 ∧ modrm.extractLsb' 6 2 = 0b11#2)) (pfx : List LegacyPrefix) :
    decodeBody pfx bytes = .truncated ∨ ∃ i, decodeBody pfx bytes = .instr i ∧ firstRow bytes = some i.row := by
  have her := firstRow_of_erWord h
  have hevex (w : EvexLen) := firstRow_of_evexWord (w := w) h
  obtain ⟨p0, p1, op, tail, rfl, hmap, h0, hw, hpp, h1, hk⟩ := h
  have hbody : decodeBody pfx (0x62#8 :: p0 :: p1 :: p2 :: op :: modrm :: tail) = evexOperands pfx k p0 p1 p2 modrm tail :=
    decodeEvex_family hmap hw hpp hk
  rw [hbody]
  obtain ⟨_, ht⟩ | ⟨_, hbits, _⟩ | ⟨_, _, _, d, v, src3, _, _, hmod, hread⟩ := evexOperands_spec pfx k p0 p1 p2 modrm tail
  · exact .inl ht
  · exact absurd hbits (by simp [h0, h1])
  right
  have hi := hread (tail.drop (operandTail modrm tail))
  rw [List.take_append_drop] at hi
  rw [hi]
  obtain ⟨_, hll', hno⟩ | ⟨rc, mk, r, hreg, hb, hinstr⟩ | ⟨w, mk, r, hinstr, hlen, hsrc⟩ := evexInstr_spec pfx k p2 d v src3
  · exact absurd hll (by rw [← hmod] at hno; simp [hll', hno])
  · exact ⟨_, hinstr, by rw [her hb (hmod.mpr ⟨r, hreg⟩), row_mkEr]⟩
  · refine ⟨_, hinstr, (hevex w ?_ hlen).trans (by rw [row_mkEvex])⟩
    rintro ⟨hb, hmd⟩
    obtain ⟨q, hq⟩ := hmod.mp hmd
    obtain ⟨_, _, _, hnb⟩ | ⟨m, hm, _⟩ := hsrc
    · exact hnb hb
    · cases hq.symm.trans hm

/-- Bytes that match some row end too early or are the instruction of their first row. -/
theorem decodeBody_of_row {r : OpcodeRow} (hr : r ∈ opcodeTable) {bytes : List Byte} (hm : r.matchesBytes bytes = true)
    (pfx : List LegacyPrefix) :
    decodeBody pfx bytes = .truncated ∨ ∃ i, decodeBody pfx bytes = .instr i ∧ firstRow bytes = some i.row := by
  rw [opcodeTable_eq, List.mem_append, mem_rowsBeforeEvex, mem_evexRows] at hr
  obtain (⟨k, w, rfl⟩ | ⟨k, rfl⟩) | ⟨k, w, rfl⟩ := hr
  · obtain ⟨_, _, h, _⟩ := (vexRow_matches_iff _ _ _).mp hm
    exact decodeBody_vexWord h pfx
  · obtain ⟨_, _, h, her⟩ := (erRow_matches_iff _ _).mp hm
    exact decodeBody_evexWord h (.inr her) pfx
  · obtain ⟨_, _, h, hw⟩ := (evexRow_matches_iff _ _ _).mp hm
    refine decodeBody_evexWord h (.inl fun hll => ?_) pfx
    rw [(evexLenOfBits_eq_none_iff _).mpr hll] at hw
    cases hw

/-- Bytes that are an instruction are a word of the family (R81, R86, R103, R104). -/
theorem word_of_decodeBody {pfx : List LegacyPrefix} {bytes : List Byte} {i : Instr} (h : decodeBody pfx bytes = .instr i) :
    (∃ k b2 modrm, IsVexWord k b2 modrm bytes) ∨
    ∃ k p2 modrm, IsEvexWord k p2 modrm bytes ∧
      (p2.extractLsb' 5 2 ≠ 0b11#2 ∨ (p2.extractLsb' 4 1 = 1#1 ∧ modrm.extractLsb' 6 2 = 0b11#2)) := by
  unfold decodeBody at h
  split at h
  · cases h
  next b rest =>
  split at h
  · next hb =>
    obtain ⟨b1, b2, op, modrm, tail, k, rfl, hmap, hw, hpp, hk, _⟩ := decodeVex_eq_instr h
    exact .inl ⟨k, b2, modrm, b1, op, tail, by rw [hb], hmap, hw, hpp, hk⟩
  split at h
  · next hb =>
    obtain ⟨p0, p1, p2, op, modrm, tail, k, rfl, hmap, hw, hpp, hk, ho⟩ := decodeEvex_eq_instr h
    obtain ⟨hlen, _⟩ := evexOperands_instr ho
    have hbits : p0.extractLsb' 2 2 = 0b00#2 ∧ p1.extractLsb' 2 1 = 1#1 := by
      by_contra hn
      rw [evexOperands_of_reservedBits hlen (by tauto)] at ho
      cases ho
    refine .inr ⟨k, p2, modrm, ⟨p0, p1, op, tail, by rw [hb], hmap, hbits.1, hw, hpp, hbits.2, hk⟩, ?_⟩
    by_contra hn
    rw [not_or, ne_eq, not_not] at hn
    rw [evexOperands_of_reservedLength hlen hn.1 hn.2] at ho
    cases ho
  · cases h

/-- Settles O2: words of the family and bytes that match a row are the same, and such a word is decoded as its first row. -/
theorem decodeFollowsOpcodeTable : Obligations.DecodeFollowsOpcodeTable := by
  constructor
  · intro bytes i h
    have hrow : decode bytes = .truncated ∨ ∃ i', decode bytes = .instr i' ∧ firstRow (splitPrefixes bytes).2 = some i'.row := by
      obtain ⟨k, b2, modrm, hword⟩ | ⟨k, p2, modrm, hword, hll⟩ := word_of_decodeBody h
      · exact decodeBody_vexWord hword _
      · exact decodeBody_evexWord hword hll _
    obtain ht | ⟨i', hi', hr⟩ := hrow
    · cases h.symm.trans ht
    · cases h.symm.trans hi'
      exact hr
  · intro bytes n h
    obtain ⟨r, hr, rfl⟩ := Option.map_eq_some_iff.mp h
    have hm := List.find?_some (p := (OpcodeRow.matchesBytes · _)) hr
    refine (decodeBody_of_row (List.mem_of_find?_eq_some hr) hm _).imp_right fun ⟨i, hi, hrow⟩ => ⟨i, hi, ?_⟩
    exact Option.some.inj (hrow.symm.trans h)

end Sys2Proof
end

section
/-! What a completed instruction changes and what it leaves (R21 to R26, R147, R165), what a fault leaves (R200, R202), and that every
step keeps the invariant of R23, R25 and R26. -/

namespace Sys2Proof.Machine

/-! ## Completion -/

/-- `t` is `s` with the destination written, sticky flags set in `MXCSR` and `pc` past the instruction: everything a completed
instruction does. -/
structure CompletesIn (i : Instr) (s t : State) (v : Lanes) (flags : BitVec 32) : Prop where
  state : t = { writeZmm s i.dest v with mxcsr := s.mxcsr ||| flags, pc := s.pc + BitVec.ofNat 64 i.size }
  settable : flags &&& ~~~settableFlags = 0#32
  embedded : 16 ≤ i.row → flags = 0#32

/-- A VEX form completes only through the common end (R146). -/
theorem fmaddCommit_of_vexFmadd_next {k : Kind} {w : VexLen} {pfx : List LegacyPrefix} {d v : BitVec 4} {r : VexSrc3} {s t : State}
    (h : vexFmadd k w pfx d v r s = .next t) :
    fmaddCommit k (vexKl w) noMask false (d.setWidth 5) (v.setWidth 5) (vexElem s pfx r) (vexSize pfx r) s = .next t := by
  obtain hgate | ⟨_, _, _, hstop⟩ | ⟨_, _, hcommit⟩ := vexFmadd_cases k w pfx d v r s
  · exact absurd (h ▸ hgate) gate_ne_next
  · exact absurd (hstop.symm.trans h) stopWith_ne_next
  · exact hcommit.symm.trans h

/-- An embedded-rounding form completes only with the result of its element operations, and is then ready (R160, R163). -/
theorem erFmadd_next {k : Kind} {pfx : List LegacyPrefix} {rc : RoundingMode} {mk : Masking} {d v r : VReg} {s t : State}
    (h : erFmadd k pfx rc mk d v r s = .next t) :
    EvexReady false pfx mk s ∧ t = { writeZmm s d (maskedResult s mk d 8 (erLaneResult s k rc d v r)) with
      pc := s.pc + BitVec.ofNat 64 (evexSize pfx (.reg r)) } := by
  obtain hgate | ⟨hready, hnext⟩ := erFmadd_cases k pfx rc mk d v r s
  · exact absurd (h ▸ hgate) gate_ne_next
  · exact ⟨hready, Host.Outcome.next.inj (h.symm.trans hnext)⟩

/-- Every completed instruction writes its destination, sets sticky flags and advances `pc`, and does nothing else. -/
theorem completesIn_of_exec_next {i : Instr} {s t : State} (h : exec i s = .next t) : ∃ v flags, CompletesIn i s t v flags := by
  obtain ⟨k, w, pfx, d, v, r, rfl⟩ | ⟨k, w, pfx, mk, d, v, r, rfl⟩ | ⟨k, pfx, rc, mk, d, v, r, rfl⟩ := instr_cases i
  · rw [exec_mkVex] at h
    obtain ⟨_, rfl⟩ := fmaddCommit_next (fmaddCommit_of_vexFmadd_next h)
    have hrow := row_mkVex_le k w pfx d v r
    exact ⟨_, _, by rw [dest_mkVex, size_mkVex], flagsOf_and_not_settable _, fun h16 => by omega⟩
  · rw [exec_mkEvex] at h
    obtain ⟨_, rfl⟩ := fmaddCommit_next (fmaddCommit_of_evexFmadd_next h)
    have hrow := (row_mkEvex_mem k w pfx mk d v r).2
    exact ⟨_, _, by rw [dest_mkEvex, size_mkEvex], flagsOf_and_not_settable _, fun h16 => by omega⟩
  · rw [exec_mkEr] at h
    obtain ⟨_, rfl⟩ := erFmadd_next h
    exact ⟨_, 0#32, by rw [dest_mkEr, size_mkEr, BitVec.or_zero]; rfl, BitVec.zero_and, fun _ => rfl⟩

/-- Settles O48: read off the state that a completed instruction leaves. -/
theorem instructionFrame : Obligations.InstructionFrame := by
  intro i s t h
  obtain ⟨v, flags, rfl, hsettable, hembedded⟩ := completesIn_of_exec_next h
  obtain ⟨hkept, hsticky⟩ := or_flags_frame (m := s.mxcsr) hsettable
  have hregs (r : VReg) (hr : r ≠ i.dest) := (readZmm_completed s i.dest r v (s.mxcsr ||| flags) (s.pc + BitVec.ofNat 64 i.size)).trans
    (if_neg hr)
  have her (h16 : 16 ≤ i.row) : s.mxcsr ||| flags = s.mxcsr := by rw [hembedded h16, BitVec.or_zero]
  exact ⟨hregs, rfl, hkept, hsticky, her, rfl, rfl, rfl, rfl, rfl, rfl, rfl, rfl, rfl, rfl, rfl, rfl, rfl, rfl, fun _ => rfl, rfl⟩

/-- Settles O52: the common end, which every completed form goes through, zeroes the destination above the vector length. -/
theorem vexUpperBitsZero : Obligations.VexUpperBitsZero := by
  intro k w pfx d v r s t h j hj _
  rw [exec_mkVex] at h
  exact upper_zero_of_fmaddCommit_next (fmaddCommit_of_vexFmadd_next h) ((vexKl_eq w).trans_le hj)

/-! ## Steps that run no instruction -/

/-- Where a step runs no instruction it answers the recorded fault again, is refused, or raises an exception. -/
theorem fetchInstr_stop_cases {s : State} {o : StepOutcome} (h : fetchInstr s = .stop o) :
    (∃ e, s.fault = some e ∧ o = .fault (.exception e s)) ∨ (∃ r, o = .refused r) ∨ ∃ e, o = raise e s := by
  unfold fetchInstr at h
  split at h
  · next e he => cases h; exact .inl ⟨e, he, rfl⟩
  split at h
  · cases h; exact .inr (.inl ⟨_, rfl⟩)
  split at h
  · cases h; exact .inr (.inl ⟨_, rfl⟩)
  unfold decodeWindow at h
  split at h
  · cases h
  · cases h; exact .inr (.inr ⟨_, rfl⟩)
  · cases h; exact .inr (.inl ⟨_, rfl⟩)
  split at h
  · next st _ =>
    cases h
    cases st with
    | exn e => exact .inr (.inr ⟨e, rfl⟩)
    | device => exact .inr (.inl ⟨_, rfl⟩)
  · cases h; exact .inr (.inr ⟨_, rfl⟩)

/-- A step runs an instruction, or ends as fetching and decoding end it. -/
theorem step_cases (s : State) :
    (∃ i, step s = exec i s) ∨ (∃ e, s.fault = some e ∧ step s = .fault (.exception e s)) ∨ (∃ r, step s = .refused r) ∨
      ∃ e, step s = raise e s := by
  unfold step
  cases h : fetchInstr s with
  | run i => exact .inl ⟨i, rfl⟩
  | stop o => exact .inr (fetchInstr_stop_cases h)

/-- A step that goes on has run an instruction. -/
theorem exec_of_step_next {s t : State} (h : step s = .next t) : ∃ i, exec i s = .next t := by
  obtain ⟨i, hi⟩ | ⟨_, _, hs⟩ | ⟨_, hs⟩ | ⟨_, hs⟩ := step_cases s
  · exact ⟨i, hi.symm.trans h⟩
  all_goals cases hs.symm.trans h

/-! ## Precise exceptions -/

/-- What R202 says of a fault of `s`: nothing has changed but the record of the exception and, for a SIMD floating-point exception
only, sticky flags of `MXCSR`. -/
def IsPrecise (s : State) (f : Fault) : Prop :=
  ∃ (e : Exn) (t : State), f = .exception e t ∧ t = { s with fault := some e, mxcsr := t.mxcsr } ∧
    (t.mxcsr ≠ s.mxcsr → e = if s.cr4.getLsbD 10 then .simdFloatingPoint else .invalidOpcode) ∧
    t.mxcsr &&& ~~~settableFlags = s.mxcsr &&& ~~~settableFlags ∧ t.mxcsr &&& s.mxcsr = s.mxcsr

theorem isPrecise_record (s : State) (e : Exn) : IsPrecise s (.exception e { s with fault := some e }) :=
  ⟨e, _, rfl, rfl, fun h => absurd rfl h, rfl, BitVec.and_self⟩

theorem isPrecise_of_faulted {s : State} {e : Exn} (h : s.fault = some e) : IsPrecise s (.exception e s) := by
  have hs : s = { s with fault := some e } := by rw [← h]
  exact ⟨e, s, rfl, hs, fun hne => absurd rfl hne, rfl, BitVec.and_self⟩

theorem isPrecise_of_gate {undef : Bool} {s : State} {f : Fault} (h : gate undef s = some (.fault f)) : IsPrecise s f := by
  obtain ⟨e, rfl, _⟩ := gate_fault h
  exact isPrecise_record s e

theorem isPrecise_of_stopWith {st : ReadStop} {s : State} {f : Fault} (h : stopWith s st = .fault f) : IsPrecise s f := by
  obtain ⟨e, rfl, _⟩ := stopWith_fault h
  exact isPrecise_record s e

theorem isPrecise_of_fmaddCommit {k : Kind} {kl : Nat} {m : BitVec 8} {z : Bool} {d s2 : VReg} {c : Nat → E64} {size : Nat} {s : State}
    {f : Fault} (h : fmaddCommit k kl m z d s2 c size s = .fault f) : IsPrecise s f := by
  obtain ⟨rfl, _⟩ := fmaddCommit_fault h
  obtain ⟨hkept, hsticky⟩ := mxcsrAtSimdFault_frame s.mxcsr ((activeLanes kl m).map (laneResults k (mxControl s) s d s2 c))
  exact ⟨simdExn s, _, rfl, rfl, fun _ => simdExn_eq s, hkept, hsticky⟩

/-- Every fault of an instruction is precise (R202). -/
theorem isPrecise_of_exec {i : Instr} {s : State} {f : Fault} (h : exec i s = .fault f) : IsPrecise s f := by
  obtain ⟨k, w, pfx, d, v, r, rfl⟩ | ⟨k, w, pfx, mk, d, v, r, rfl⟩ | ⟨k, pfx, rc, mk, d, v, r, rfl⟩ := instr_cases i
  · rw [exec_mkVex] at h
    obtain hg | ⟨_, st, _, hstop⟩ | ⟨_, _, hcommit⟩ := vexFmadd_cases k w pfx d v r s
    · exact isPrecise_of_gate (h ▸ hg)
    · exact isPrecise_of_stopWith (hstop.symm.trans h)
    · exact isPrecise_of_fmaddCommit (hcommit.symm.trans h)
  · rw [exec_mkEvex] at h
    obtain hg | ⟨_, st, _, hstop⟩ | ⟨_, _, hcommit⟩ := evexFmadd_cases k w pfx mk d v r s
    · exact isPrecise_of_gate (h ▸ hg)
    · exact isPrecise_of_stopWith (hstop.symm.trans h)
    · exact isPrecise_of_fmaddCommit (hcommit.symm.trans h)
  · rw [exec_mkEr] at h
    obtain hg | ⟨_, hnext⟩ := erFmadd_cases k pfx rc mk d v r s
    · exact isPrecise_of_gate (h ▸ hg)
    · cases hnext.symm.trans h

/-- Every fault of a step is precise, also that of its fetch and decoding (R202). -/
theorem isPrecise_of_step {s : State} {f : Fault} (h : step s = .fault f) : IsPrecise s f := by
  obtain ⟨i, hi⟩ | ⟨e, he, hs⟩ | ⟨r, hs⟩ | ⟨e, hs⟩ := step_cases s
  · exact isPrecise_of_exec (hi.symm.trans h)
  · cases hs.symm.trans h
    exact isPrecise_of_faulted he
  · cases hs.symm.trans h
  · cases hs.symm.trans h
    exact isPrecise_record s e

/-- Settles O49: the table by its rows, and the faults of instructions and of steps. -/
theorem preciseExceptions : Obligations.PreciseExceptions := by
  refine ⟨fun e => by cases e <;> rfl, fun i s f h => ?_⟩
  exact h.elim isPrecise_of_exec isPrecise_of_step

/-! ## The invariant -/

/-- Bits 31:16 of `MXCSR` are outside the flags of the family (R26). -/
theorem reserved_of_kept {m m' : BitVec 32} (h : m' &&& ~~~settableFlags = m &&& ~~~settableFlags) :
    m'.extractLsb' 16 16 = m.extractLsb' 16 16 := by
  have hmask : ∀ i, i < 16 → (~~~settableFlags).getLsbD (16 + i) = true := by decide
  refine BitVec.eq_of_getLsbD_eq fun i hi => ?_
  have hbit := congrArg (·.getLsbD (16 + i)) h
  simp only [BitVec.getLsbD_and, hmask i hi, Bool.and_true] at hbit
  simp only [BitVec.getLsbD_extractLsb', hbit]

/-- Without `AVX512F` only VEX forms complete (R194 a). -/
theorem eq_mkVex_of_exec_next {i : Instr} {s t : State} (h : exec i s = .next t) (hf : s.cfg.hasAVX512F = false) :
    ∃ k w pfx d v r, i = mkVex k w pfx d v r := by
  obtain hvex | ⟨k, w, pfx, mk, d, v, r, rfl⟩ | ⟨k, pfx, rc, mk, d, v, r, rfl⟩ := instr_cases i
  · exact hvex
  · rw [exec_mkEvex] at h
    obtain hg | ⟨_, st, _, hstop⟩ | ⟨hready, _, _⟩ := evexFmadd_cases k w pfx mk d v r s
    · exact absurd (h ▸ hg) gate_ne_next
    · exact absurd (hstop.symm.trans h) stopWith_ne_next
    · cases hf.symm.trans hready.feature
  · rw [exec_mkEr] at h
    cases hf.symm.trans (erFmadd_next h).1.feature

/-- A VEX form names registers 0 to 15 only (R96). -/
theorem toNat_setWidth_lt (d : BitVec 4) : (d.setWidth 5 : VReg).toNat < 16 := by
  rw [BitVec.toNat_setWidth]
  exact (Nat.mod_le _ _).trans_lt d.isLt

/-- Without `AVX512F` a completed instruction keeps what does not exist zero: it writes one of registers 0 to 15, and zeros above bit
255 (R23, R24). -/
theorem absent_vectors_of_exec_next {i : Instr} {s t : State} (hs : AbsentStateZero s) (h : exec i s = .next t)
    (hf : s.cfg.hasAVX512F = false) {r : VReg} {j : ℕ} (hj : j < 8) (habs : 16 ≤ r.toNat ∨ 4 ≤ j) : lane (readZmm t r) j = 0#64 := by
  obtain ⟨k, w, pfx, d, v, src, rfl⟩ := eq_mkVex_of_exec_next h hf
  by_cases hr : r = d.setWidth 5
  · have hlt := toNat_setWidth_lt d
    have hj4 : 4 ≤ j := habs.resolve_left (by rw [hr]; omega)
    rw [hr]
    exact vexUpperBitsZero k w pfx d v src s t h j ((vexElements_le w).trans hj4) hj
  · obtain ⟨hregs, _⟩ := instructionFrame _ s t h
    rw [hregs r (by rwa [dest_mkVex])]
    exact hs.vectors hf r j hj habs

/-- A completed instruction keeps the invariant. -/
theorem inv_of_exec_next {i : Instr} {s t : State} (hs : Inv s) (h : exec i s = .next t) : Inv t := by
  obtain ⟨_, _, hkept, _, _, _, _, hk, _, _, _, _, _, _, _, _, _, _, hcfg, _, hmem⟩ := instructionFrame i s t h
  have hreadK (r : OpmaskNum) : readK t r = readK s r := by simp only [readK, hk]
  refine ⟨hmem ▸ hs.memory, (reserved_of_kept hkept).trans hs.reserved, ?_, ?_, ?_⟩
  · exact fun hf r j hj habs => absent_vectors_of_exec_next hs.absent h (hcfg ▸ hf) hj habs
  · exact fun hf r => (hreadK r).trans (hs.absent.opmasks (hcfg ▸ hf) r)
  · exact fun hw r => (hreadK r).symm ▸ hs.absent.opmaskWidth (hcfg ▸ hw) r

/-- Settles O55: a step that goes on has run an instruction, and a completed instruction keeps each part of the invariant. -/
theorem stepKeepsInv : Obligations.StepKeepsInv := by
  intro s t hs h
  obtain ⟨i, hi⟩ := exec_of_step_next h
  exact inv_of_exec_next hs hi

/-- Settles O56: memory is empty, the reserved bits are 0, and every feature is present after reset. -/
theorem resetInv : Obligations.ResetInv :=
  ⟨wf_reset, rfl, nofun, nofun, nofun⟩

end Sys2Proof.Machine
end

section
/-! The step (R226): which instruction it runs, where it runs none, and what it answers when the bytes of an instruction are too many or
cannot all be fetched. -/

namespace Sys2Proof.Machine

/-! ## The instruction that a step runs -/

/-- In a running state the step runs what the fetched bytes decode to (R226). -/
theorem step_of_decode_instr {s : State} {i : Instr} (hs : Running s) (hd : decode (fetchWindow s).1 = .instr i) :
    step s = exec i s := by
  rw [step_of_running hs, hd]

/-- Fetched bytes that are an instruction are run, whatever follows them. -/
theorem step_of_instr {s : State} {bytes : List Byte} {i : Instr} (hs : Running s) (hf : Fetches s bytes) (hlen : bytes.length ≤ 15)
    (hd : decode bytes = .instr i) : step s = exec i s :=
  step_of_decode_instr hs ((decode_fetchWindow hf hlen (by simp [hd])).trans hd)

/-- Settles O11. -/
theorem stepRunsDecoded : Obligations.StepRunsDecoded :=
  fun _ _ hs hd => step_of_decode_instr hs hd

/-- The encoding of an instruction is as long as the instruction says (R95). -/
theorem length_encode (i : Instr) : (encode i).length = i.size := by
  obtain ⟨k, w, pfx, d, v, r, rfl⟩ | ⟨k, w, pfx, mk, d, v, r, rfl⟩ | ⟨k, pfx, rc, mk, d, v, r, rfl⟩ := instr_cases i
  · rw [encode_mkVex, size_mkVex, length_encodeVex]
  · rw [encode_mkEvex, size_mkEvex, length_encodeEvex]
  · rw [encode_mkEr, size_mkEr, length_encodeEr]

/-- An instruction is read back from exactly its bytes. -/
theorem decode_encode {i : Instr} (h : i.operandsWf = true) : decode (encode i) = .instr i := by
  simpa only [List.append_nil] using decode_encode_append h []

/-- Settles O12: the encoding decodes to the instruction. -/
theorem stepRunsEncoded : Obligations.StepRunsEncoded := by
  intro s i hs hwf hf
  obtain ⟨hops, hsize⟩ := i.wf_iff.mp hwf
  exact step_of_instr hs hf ((length_encode i).trans_le hsize) (decode_encode hops)

/-- Settles O16: loading makes the word's bytes fetchable in a running state. -/
theorem loadedWordRuns : Obligations.LoadedWordRuns := by
  intro s nbits w i hmem hcanon hword
  have hlen : (tableBytes nbits w).length = 15 := by simp [tableBytes, maxInstrBytes]
  have hdecode : decode (tableBytes nbits w) = .instr i := by
    unfold decodeTableWord at hword
    split at hword
    · next j hj => rw [hj, Option.some.inj hword]
    all_goals cases hword
  have hfetch : Fetches (s.withFetchWord nbits w) (tableBytes nbits w) := by
    refine fetches_placeAtFetch hmem (by rw [hlen]; decide) fun j hj => ?_
    exact hcanon j (hlen ▸ hj)
  exact step_of_instr (running_placeAtFetch (admitted_launchState s) rfl _) hfetch hlen.le hdecode

/-! ## Where a step runs no instruction -/

/-- A state that cannot be launched is refused, once it has neither faulted nor ended (R222). -/
theorem step_of_launch_refused {s : State} (hf : s.fault = none) (he : s.cfg.endAddr ≠ some s.pc) {r : Refusal}
    (hl : launch s = some r) : step s = .refused r := by
  simp only [step, fetchInstr, hf, if_neg he, hl]

/-- In 64-bit mode what refuses an instruction refuses the step. -/
theorem launch_of_mode64 {s : State} (hm : s.mode = .mode64) :
    launch s = if s.mxcsr.extractLsb' 16 16 ≠ 0#16 then some .reservedMxcsr else if flagTF s then some .singleStep else none := by
  rw [launch, if_pos hm]
  simp only [admission, hm]

/-- Settles O13: one clause for each of the ends in the order in which the step looks for them. -/
theorem stepEnds : Obligations.StepEnds := by
  refine ⟨fun s e h => ?_, fun s h he => ?_, fun s h he hm => ?_, fun s h he hm hr => ?_, fun s h he hm hr ht => ?_⟩
  · simp only [step, fetchInstr, h]
  · simp only [step, fetchInstr, h, if_pos he]
  · exact step_of_launch_refused h he (if_neg hm)
  · exact step_of_launch_refused h he ((launch_of_mode64 hm).trans (if_pos hr))
  · exact step_of_launch_refused h he ((launch_of_mode64 hm).trans ((if_neg (not_not.mpr hr)).trans (if_pos ht)))

/-! ## Bytes that end inside an instruction -/

/-- An instruction cut short is no instruction and nothing else: it ends too early (R80, R198). -/
theorem decode_take_encode {i : Instr} (h : i.operandsWf = true) {n : ℕ} (hn : n < i.size) :
    decode ((encode i).take n) = .truncated := by
  by_contra hne
  have hcut : decode ((encode i).take n) = .instr i := by
    rw [← decode_append ((encode i).drop n) hne, List.take_append_drop, decode_encode h]
  have hsize := (decode_instr_spec hcut).1
  rw [List.length_take] at hsize
  omega

theorem length_take_encode {i : Instr} {n : ℕ} (hn : n < i.size) : ((encode i).take n).length = n := by
  rw [List.length_take, length_encode, Nat.min_eq_left hn.le]

/-- Settles O14: 15 bytes of a longer instruction end too early, and nothing stopped their fetch. -/
theorem overlongInstruction : Obligations.OverlongInstruction := by
  intro s i hs hops hsize hf
  rw [step_of_running hs, fetchWindow_full hf (length_take_encode hsize), decode_take_encode hops hsize]

/-- A byte of an instruction that cannot be fetched ends the step as its fetch ends (R198 d). -/
theorem step_of_fetch_stop {s : State} {i : Instr} {n : ℕ} (hs : Running s) (hwf : i.wf = true) (hn : n < i.size)
    (hf : Fetches s ((encode i).take n)) {st : ReadStop} (hstop : fetchByte s (byteAddr (fetchBase s) n) = .error st) :
    step s = stopWith s st := by
  obtain ⟨hops, hsize⟩ := i.wf_iff.mp hwf
  have hlen := length_take_encode hn
  rw [step_of_running hs, fetchWindow_stop hf (by omega) (by rw [hlen]; exact hstop), decode_take_encode hops hn]

/-- Settles O15: what stops the fetch of the first byte that cannot be fetched. -/
theorem fetchFault : Obligations.FetchFault := by
  intro s i n hs hwf hn hf
  exact ⟨fun hc => step_of_fetch_stop hs hwf hn hf (fetchByte_nonCanonical hc),
    fun hc _ ht => step_of_fetch_stop hs hwf hn hf (fetchByte_pageFault hc ht)⟩

end Sys2Proof.Machine
end

section
/-! `#UD` before the operands (R192, R194): each condition alone. -/

namespace Sys2Proof

open Machine

/-- Settles O17: the conditions are those that the machine computes. -/
theorem vexUndefined : Obligations.VexUndefined := by
  intro k w pfx d v r s ha h
  rw [exec_mkVex, vexFmadd_of_undefined ha ((vexUndefined_eq_true_iff pfx s).mpr h)]

/-- Settles O18: the conditions are those that the machine computes, that of `AVX512VL` for the lengths 128 and 256 only. -/
theorem evexUndefined : Obligations.EvexUndefined := by
  intro k pfx mk d v s ha
  refine ⟨fun w r h => ?_, fun rc r h => ?_⟩
  · rw [exec_mkEvex, evexFmadd_of_undefined ha ((evexUndefined_eq_true_iff w.needsVL pfx mk s).mpr h)]
  · rw [exec_mkEr, erFmadd_of_undefined ha ((evexUndefined_eq_true_iff false pfx mk s).mpr (by simpa using h))]

end Sys2Proof
end

section
/-! Completion (R146, R160 to R163, R178 b): the results of the three families, and of an EVEX form with no active element. -/

namespace Sys2Proof.Machine

/-- Settles O22: a ready form with a readable operand reaches the common end, which completes when every active element is masked. -/
theorem evexResult : Obligations.EvexResult := by
  intro k w pfx mk d v r s hready hread hmasked
  have hactive : ∀ j ∈ activeLanes (evexKl w) (maskBits s mk), laneMasked s.mxcsr
      (laneResults k (mxControl s) s d v (evexElem s pfx w r) j) = true := by
    simpa only [activeLanes_evex, laneResults_evexElem] using hmasked
  rw [exec_mkEvex, evexFmadd_ready hready hread, fmaddCommit_masked hactive, activeLanes_evex, laneResults_evexElem,
    mergeLanes_maskBits, evexKl_eq]

/-- Settles O23: an embedded-rounding form that passes the checks completes. -/
theorem embeddedRoundingResult : Obligations.EmbeddedRoundingResult := by
  intro k pfx rc mk d v r s hready
  rw [exec_mkEr, erFmadd_ready hready]

/-! ## No active element -/

/-- Under fault suppression nothing of a third source is accessed without an active element, so it can be read (R56). -/
theorem evexReadable_of_no_active {s : State} {w : EvexLen} {mk : Masking} (hfs : s.cfg.faultSuppression = true)
    (hoff : ∀ j, j < w.elements → maskOn s mk j = false) (pfx : List LegacyPrefix) (r : EvexSrc3) : evexReadable s pfx w mk r := by
  have hfull (o : ℕ) : ¬ FullAccessed s w mk o := by
    rintro ⟨ho, hm⟩
    cases (hm hfs).symm.trans (hoff (o / 8) (by omega))
  have hbcast (o : ℕ) : ¬ BcastAccessed s w mk o := by
    rintro ⟨_, hm⟩
    obtain ⟨j, hj, hon⟩ := hm hfs
    cases hon.symm.trans (hoff j hj)
  cases r with
  | reg r => trivial
  | full m => exact fun o ho => absurd ho (hfull o)
  | bcast m => exact ⟨fun o ho => absurd ho (hbcast o), fun _ ho => absurd ho (hbcast 0)⟩

theorem activeBelow_eq_nil {s : State} {mk : Masking} {kl : ℕ} (hoff : ∀ j, j < kl → maskOn s mk j = false) :
    activeBelow s mk kl = [] := by
  rw [List.eq_nil_iff_forall_not_mem]
  intro j hj
  obtain ⟨hlt, hon⟩ := mem_activeBelow.mp hj
  cases hon.symm.trans (hoff j hlt)

/-- Without an active element the destination is zeroed or kept, whatever was computed (R161). -/
theorem maskedResult_of_no_active {s : State} {mk : Masking} {kl : ℕ} (hoff : ∀ j, j < kl → maskOn s mk j = false) (d : VReg)
    (f : ℕ → FmaResult) :
    maskedResult s mk d kl f = ofLanes (fun j => if j < kl then (if mk.z then 0#64 else lane (readZmm s d) j) else 0#64) := by
  refine ofLanes_congr fun j _ => ?_
  by_cases hj : j < kl
  · simp only [if_pos hj, hoff j hj, Bool.false_eq_true, if_false]
  · rw [if_neg hj, if_neg hj]

/-- Settles O24: it is the result of an EVEX form whose operand is trivially readable and whose set of element results is empty. -/
theorem noActiveElementCompletes : Obligations.NoActiveElementCompletes := by
  intro k w pfx mk d v r s hready hfs hoff
  have hnil := activeBelow_eq_nil hoff
  rw [evexResult k w pfx mk d v r s hready (evexReadable_of_no_active hfs hoff pfx r) (by simp [hnil]), hnil,
    maskedResult_of_no_active hoff, List.map_nil, show flagsOf [] = 0#32 from rfl, BitVec.or_zero]
  rfl

end Sys2Proof.Machine

namespace Sys2Proof

open Machine

/-- Settles O21: a ready form with a readable operand reaches the common end, which completes when every element is masked. -/
theorem vexResult : Obligations.VexResult := by
  intro k w pfx d v r s hready hread hmasked
  have hactive : ∀ j ∈ activeLanes (vexKl w) noMask, laneMasked s.mxcsr
      (laneResults k (mxControl s) s (d.setWidth 5) (v.setWidth 5) (vexElem s pfx r) j) = true := by
    simpa only [activeLanes_vex, laneResults_vexElem, List.mem_range] using hmasked
  rw [exec_mkVex, vexFmadd_ready hready hread, fmaddCommit_masked hactive, activeLanes_vex, laneResults_vexElem, mergeLanes_noMask,
    vexKl_eq]

end Sys2Proof
end

section
/-! What stops the read of a memory operand (R60 to R62, R198): the stop of each of the three memory forms, and the exception it
raises. -/

namespace Sys2Proof.Machine

/-- The read of the memory operand of a VEX form stops with this (R62). -/
def VexReadStops (s : State) (pfx : List LegacyPrefix) (w : VexLen) (m : MemOperand) (st : ReadStop) : Prop :=
  readStop s (nonCanonicalExn pfx m (vexAddr s pfx m)) false (vexAddr s pfx m) (fullOffsets s (vexKl w) noMask) = some st

/-- The read of a full-vector operand of an EVEX form stops with this (R62). -/
def FullReadStops (s : State) (pfx : List LegacyPrefix) (w : EvexLen) (mk : Masking) (m : MemOperand) (st : ReadStop) : Prop :=
  readStop s (nonCanonicalExn pfx m (fullAddr s pfx w m)) false (fullAddr s pfx w m) (fullOffsets s (evexKl w) (maskBits s mk)) = some st

/-- The read of a broadcast operand stops with this (R62). -/
def BcastReadStops (s : State) (pfx : List LegacyPrefix) (w : EvexLen) (mk : Masking) (m : MemOperand) (st : ReadStop) : Prop :=
  readStop s (nonCanonicalExn pfx m (bcastAddr s pfx m)) true (bcastAddr s pfx m) (bcastOffsets s (evexKl w) (maskBits s mk)) = some st

theorem exec_of_vexReadStops {s : State} {pfx : List LegacyPrefix} {w : VexLen} {m : MemOperand} {st : ReadStop}
    (hready : VexReady pfx s) (h : VexReadStops s pfx w m st) (k : Kind) (d v : BitVec 4) :
    exec (mkVex k w pfx d v (.mem m)) s = stopWith s st := by
  rw [exec_mkVex, vexFmadd_stop (r := .mem m) hready h]

theorem exec_of_fullReadStops {s : State} {pfx : List LegacyPrefix} {w : EvexLen} {mk : Masking} {m : MemOperand} {st : ReadStop}
    (hready : EvexReady w.needsVL pfx mk s) (h : FullReadStops s pfx w mk m st) (k : Kind) (d v : VReg) :
    exec (mkEvex k w pfx mk d v (.full m)) s = stopWith s st := by
  rw [exec_mkEvex, evexFmadd_stop (r := .full m) hready]
  simp only [evexSrc3, fullSrc3, evexScale_eq]
  exact h

theorem exec_of_bcastReadStops {s : State} {pfx : List LegacyPrefix} {w : EvexLen} {mk : Masking} {m : MemOperand} {st : ReadStop}
    (hready : EvexReady w.needsVL pfx mk s) (h : BcastReadStops s pfx w mk m st) (k : Kind) (d v : VReg) :
    exec (mkEvex k w pfx mk d v (.bcast m)) s = stopWith s st := by
  rw [exec_mkEvex, evexFmadd_stop (r := .bcast m) hready h]

/-- Settles O25: an accessed byte that is not canonical stops the read at its first check, with an exception that R60 admits. -/
theorem nonCanonicalRead : Obligations.NonCanonicalRead := by
  intro k pfx m o s
  refine ⟨fun w d v hready ho hc => ?_, fun w mk d v hready ho hc => ?_, fun w mk d v hready ho hc => ?_⟩
  · exact ⟨_, nonCanonicalExn_report pfx m _,
      exec_of_vexReadStops hready (readStop_nonCanonical ⟨o, mem_fullOffsets_vex.mpr ho, hc⟩) k d v⟩
  · exact ⟨_, nonCanonicalExn_report pfx m _,
      exec_of_fullReadStops hready (readStop_nonCanonical ⟨o, mem_fullOffsets_iff.mpr ho, hc⟩) k d v⟩
  · exact ⟨_, nonCanonicalExn_report pfx m _,
      exec_of_bcastReadStops hready (readStop_nonCanonical ⟨o, mem_bcastOffsets_iff.mpr ho, hc⟩) k d v⟩

/-! ## The lowest faulting byte -/

/-- With every accessed byte canonical the lowest that is not in storage stops the read of a VEX form. -/
theorem vexReadStops_of_lowest {s : State} {pfx : List LegacyPrefix} {w : VexLen} {m : MemOperand} {o : ℕ} (ho : o < 8 * w.elements)
    (hc : ∀ q, q < 8 * w.elements → canonical s.cfg.law (byteAddr (vexAddr s pfx m) q) = true)
    (hlow : ∀ q, q < 8 * w.elements → (byteAddr (vexAddr s pfx m) q).toNat < (byteAddr (vexAddr s pfx m) o).toNat →
      ByteReadable s (byteAddr (vexAddr s pfx m) q))
    {st : ReadStop} (hst : byteStop s (byteAddr (vexAddr s pfx m) o) = some st) : VexReadStops s pfx w m st := by
  have hlt (q : ℕ) (hq : q ∈ fullOffsets s (vexKl w) noMask) := mem_fullOffsets_vex.mp hq
  have hle := vexElements_le w
  refine readStop_lowest (fullOffsets_sorted _ _ _) (fun q hq => ?_) (mem_fullOffsets_vex.mpr ho) (fun q hq => hc q (hlt q hq)) (al := false)
    nofun (fun q hq => hlow q (hlt q hq)) hst
  have := hlt q hq
  omega

/-- With every accessed byte canonical the lowest that is not in storage stops the read of a full-vector operand. -/
theorem fullReadStops_of_lowest {s : State} {pfx : List LegacyPrefix} {w : EvexLen} {mk : Masking} {m : MemOperand} {o : ℕ}
    (ho : FullAccessed s w mk o)
    (hc : ∀ q, FullAccessed s w mk q → canonical s.cfg.law (byteAddr (fullAddr s pfx w m) q) = true)
    (hlow : ∀ q, FullAccessed s w mk q → (byteAddr (fullAddr s pfx w m) q).toNat < (byteAddr (fullAddr s pfx w m) o).toNat →
      ByteReadable s (byteAddr (fullAddr s pfx w m) q))
    {st : ReadStop} (hst : byteStop s (byteAddr (fullAddr s pfx w m) o) = some st) : FullReadStops s pfx w mk m st := by
  have hacc (q : ℕ) (hq : q ∈ fullOffsets s (evexKl w) (maskBits s mk)) := mem_fullOffsets_iff.mp hq
  have hle := evexElements_le w
  refine readStop_lowest (fullOffsets_sorted _ _ _) (fun q hq => ?_) (mem_fullOffsets_iff.mpr ho) (fun q hq => hc q (hacc q hq)) (al := false)
    nofun (fun q hq => hlow q (hacc q hq)) hst
  have := (hacc q hq).1
  omega

/-- With every byte canonical, and aligned where that is checked, the lowest that is not in storage stops the read of a broadcast. -/
theorem bcastReadStops_of_lowest {s : State} {pfx : List LegacyPrefix} {w : EvexLen} {mk : Masking} {m : MemOperand} {o : ℕ}
    (ho : BcastAccessed s w mk o) (hc : ∀ q, q < 8 → canonical s.cfg.law (byteAddr (bcastAddr s pfx m) q) = true)
    (halign : AlignmentChecked s → (bcastAddr s pfx m).toNat % 8 = 0)
    (hlow : ∀ q, q < 8 → (byteAddr (bcastAddr s pfx m) q).toNat < (byteAddr (bcastAddr s pfx m) o).toNat →
      ByteReadable s (byteAddr (bcastAddr s pfx m) q))
    {st : ReadStop} (hst : byteStop s (byteAddr (bcastAddr s pfx m) o) = some st) : BcastReadStops s pfx w mk m st := by
  have hlt (q : ℕ) (hq : q ∈ bcastOffsets s (evexKl w) (maskBits s mk)) := (mem_bcastOffsets_iff.mp hq).1
  refine readStop_lowest (bcastOffsets_sorted _ _ _) (fun q hq => ?_) (mem_bcastOffsets_iff.mpr ho) (fun q hq => hc q (hlt q hq))
    (fun _ hac => halign ((alignCheck_iff s).mp hac)) (fun q hq => hlow q (hlt q hq)) hst
  have := hlt q hq
  omega

/-- Settles O26: the lowest faulting byte stops the read, with a page fault or as device memory. -/
theorem lowestFaultingByte : Obligations.LowestFaultingByte := by
  intro k pfx m o code s
  refine ⟨fun w d v hready ho hc hlow => ?_, fun w mk d v hready ho hc hlow => ?_, fun w mk d v hready ho hc halign hlow => ?_⟩
  · exact ⟨fun ht => exec_of_vexReadStops hready (vexReadStops_of_lowest ho hc hlow (byteStop_pageFault ht)) k d v,
      fun ht => exec_of_vexReadStops hready (vexReadStops_of_lowest ho hc hlow (byteStop_device ht)) k d v⟩
  · exact ⟨fun ht => exec_of_fullReadStops hready (fullReadStops_of_lowest ho hc hlow (byteStop_pageFault ht)) k d v,
      fun ht => exec_of_fullReadStops hready (fullReadStops_of_lowest ho hc hlow (byteStop_device ht)) k d v⟩
  · exact ⟨fun ht => exec_of_bcastReadStops hready (bcastReadStops_of_lowest ho hc halign hlow (byteStop_pageFault ht)) k d v,
      fun ht => exec_of_bcastReadStops hready (bcastReadStops_of_lowest ho hc halign hlow (byteStop_device ht)) k d v⟩

end Sys2Proof.Machine
end

section
/-! Addresses and elements in memory (R51, R57 to R60): the effective address as an integer sum, the base of the segment, canonical
addresses, and the bytes of an element. -/

namespace Sys2Proof.Machine

/-! ## The effective address -/

theorem dispValue_eq_ofInt (n : ℕ) (d : Disp) : dispValue n d = BitVec.ofInt 64 (dispInt n d) := by
  cases d with
  | none => rfl
  | disp8 d => rw [dispValue, dispInt, BitVec.ofInt_mul, BitVec.ofInt_natCast]; rfl
  | disp32 d => rfl

theorem ofInt_toNat (a : Addr) : BitVec.ofInt 64 (a.toNat : ℤ) = a := by
  rw [BitVec.ofInt_natCast, BitVec.ofNat_toNat, BitVec.setWidth_eq]

/-- A register shifted left is the register times a power of two (R57). -/
theorem shiftLeft_eq_ofInt (a : Addr) (k : ℕ) : a <<< k = BitVec.ofInt 64 (a.toNat * 2 ^ k : ℕ) := by
  refine BitVec.eq_of_toNat_eq ?_
  rw [BitVec.toNat_shiftLeft, Nat.shiftLeft_eq, ← BitVec.toNat_ofNat, ← BitVec.ofInt_natCast]

theorem indexValue_eq_ofInt (s : State) (a32 : Bool) (scale : BitVec 2) (index : Gpr) :
    indexValue s a32 scale index =
      BitVec.ofInt 64 (if index = 4#4 then 0 else (addrReg s a32 index).toNat * 2 ^ scale.toNat : ℕ) := by
  unfold indexValue
  split
  · rfl
  · exact shiftLeft_eq_ofInt _ _

/-- The machine's sum is the integer sum modulo 2^64, in every addressing form (R57, R58). -/
theorem addressSum_eq_ofInt (s : State) (a32 : Bool) (n : ℕ) (pcNext : Addr) (m : MemOperand) :
    addressSum s a32 n pcNext m = BitVec.ofInt 64 (eaInt (fun r => (addrReg s a32 r).toNat) n pcNext m) := by
  cases m with
  | based base d => rw [addressSum, eaInt, BitVec.ofInt_add, ofInt_toNat, dispValue_eq_ofInt]
  | ripRel d => rw [addressSum, eaInt, BitVec.ofInt_add, ofInt_toNat]; rfl
  | sib scale index base d =>
    rw [addressSum, eaInt, BitVec.ofInt_add, BitVec.ofInt_add, ofInt_toNat, dispValue_eq_ofInt, indexValue_eq_ofInt]
  | sibNoBase scale index d => rw [addressSum, eaInt, BitVec.ofInt_add, indexValue_eq_ofInt]; rfl

/-- The low 32 bits of an integer modulo 2^64, zero-extended (R59). -/
theorem low32_ofInt (v : ℤ) : ((BitVec.ofInt 64 v).setWidth 32).setWidth 64 = BitVec.ofInt 64 (v % 2 ^ 32) := by
  refine BitVec.eq_of_toNat_eq ?_
  simp only [BitVec.toNat_setWidth, BitVec.toNat_ofInt]
  omega

/-- A register under the address-size override counts with its low 32 bits (R59). -/
theorem toNat_addrReg_addr32 (s : State) (r : Gpr) : (addrReg s true r).toNat = (readGpr s r).toNat % 2 ^ 32 := by
  simp only [addrReg, if_true, BitVec.toNat_setWidth]
  omega

/-- Settles O57: the sum in either address size, and the truncation of the 32-bit one. -/
theorem effectiveAddress : Obligations.EffectiveAddress := by
  refine fun s n pcNext m => ⟨addressSum_eq_ofInt s false n pcNext m, ?_⟩
  rw [effectiveAddr, if_pos rfl, addressSum_eq_ofInt, low32_ofInt]
  simp only [toNat_addrReg_addr32]

/-! ## The base of the segment -/

theorem hasAddr32_eq (pfx : List LegacyPrefix) : hasAddr32 pfx = decide (.addr32 ∈ pfx) := by
  rw [hasAddr32, Bool.eq_iff_iff, decide_eq_true_eq]
  simp

/-- A chosen `FS` stays chosen until a `GS` (R60). -/
theorem foldl_segStep_fs (pfx : List LegacyPrefix) (h : .gs ∉ pfx) : pfx.foldl segStep .fs = .fs := by
  induction pfx with
  | nil => rfl
  | cons p ps ih =>
    rw [List.mem_cons, not_or] at h
    have hp : segStep .fs p = .fs := by
      cases p with
      | gs => exact absurd rfl h.1
      | _ => rfl
    rw [List.foldl_cons, hp, ih h.2]

/-- A chosen `GS` stays chosen until an `FS` (R60). -/
theorem foldl_segStep_gs (pfx : List LegacyPrefix) (h : .fs ∉ pfx) : pfx.foldl segStep .gs = .gs := by
  induction pfx with
  | nil => rfl
  | cons p ps ih =>
    rw [List.mem_cons, not_or] at h
    have hp : segStep .gs p = .gs := by
      cases p with
      | fs => exact absurd rfl h.1
      | _ => rfl
    rw [List.foldl_cons, hp, ih h.2]

/-- Settles O58: the choice is folded over the prefixes from the left, and only `FS` and `GS` change it. -/
theorem segmentBase : Obligations.SegmentBase := by
  intro s pfx n pcNext m
  rw [linearAddr, hasAddr32_eq]
  refine ⟨fun hfs hgs => ?_, fun a b hpfx hgs => ?_, fun a b hpfx hfs => ?_⟩
  · rw [segSel_eq_none hfs hgs, segBase, BitVec.zero_add]
  · have hsel : segSel pfx = .fs := by
      rw [hpfx, segSel, List.foldl_append, List.foldl_append, List.foldl_cons, segStep, List.foldl_nil, foldl_segStep_fs b hgs]
    rw [hsel, segBase]
  · have hsel : segSel pfx = .gs := by
      rw [hpfx, segSel, List.foldl_append, List.foldl_append, List.foldl_cons, segStep, List.foldl_nil, foldl_segStep_gs b hfs]
    rw [hsel, segBase]

/-! ## Canonical addresses -/

/-- A word is the sign extension of its low bits when the bits from the sign on are equal. -/
theorem signExtend_setWidth_eq_iff {w : ℕ} (hpos : 0 < w) (hw : w ≤ 64) (a : Addr) :
    (a.setWidth w).signExtend 64 = a ↔ ∀ n, w - 1 ≤ n → n < 64 → a.getLsbD n = a.getLsbD 63 := by
  have hbit (n : ℕ) (hn : n < 64) :
      ((a.setWidth w).signExtend 64).getLsbD n = if n < w then a.getLsbD n else a.getLsbD (w - 1) := by
    rw [BitVec.getLsbD_signExtend, BitVec.msb_setWidth]
    simp only [hn, decide_true, Bool.true_and, BitVec.getLsbD_setWidth, hpos]
    split <;> simp_all
  constructor
  · intro h n hn hlt
    have hsign (n : ℕ) (hn : w - 1 ≤ n) (hlt : n < 64) : a.getLsbD n = a.getLsbD (w - 1) := by
      have hext := hbit n hlt
      rw [h] at hext
      split at hext
      · rw [show n = w - 1 by omega]
      · exact hext
    rw [hsign n hn hlt, hsign 63 (by omega) (by omega)]
  · intro h
    refine BitVec.eq_of_getLsbD_eq fun n hn => ?_
    rw [hbit n hn]
    split
    · rfl
    · rw [h (w - 1) le_rfl (by omega), h n (by omega) hn]

/-- Settles O59: for both widths. -/
theorem canonicalAddress : Obligations.CanonicalAddress := by
  intro w a
  rw [canonical, beq_iff_eq]
  exact signExtend_setWidth_eq_iff (by cases w <;> decide) (by cases w <;> decide) a

/-! ## The bytes of an element -/

theorem toNat_append_byte {n : ℕ} (x : BitVec n) (b : Byte) : (x ++ b).toNat = x.toNat * 256 + b.toNat := by
  rw [BitVec.toNat_append, ← Nat.shiftLeft_add_eq_or_of_lt b.isLt, Nat.shiftLeft_eq]

theorem peekByte_of_storage {s : State} {a : Addr} {p : ℕ} (h : translate s .dataRead a = .storage p) :
    peekByte s a = Memory.read s.mem p := by
  rw [peekByte, h]

/-- Settles O60: the bytes are appended from the highest to the lowest. -/
theorem littleEndianElement : Obligations.LittleEndianElement := by
  intro s a place h
  have hbyte (o : ℕ) (ho : o < 8) : peekByte s (byteAddr a o) = Memory.read s.mem (place o) := peekByte_of_storage (h o ho)
  have hpeek : peek64 s a = peekByte s (byteAddr a 7) ++ peekByte s (byteAddr a 6) ++ peekByte s (byteAddr a 5) ++
      peekByte s (byteAddr a 4) ++ peekByte s (byteAddr a 3) ++ peekByte s (byteAddr a 2) ++ peekByte s (byteAddr a 1) ++
      peekByte s (byteAddr a 0) := by
    rw [byteAddr_zero]
    rfl
  rw [hpeek]
  simp only [toNat_append_byte, Finset.sum_range_succ, Finset.sum_range_zero]
  rw [hbyte 0 (by decide), hbyte 1 (by decide), hbyte 2 (by decide), hbyte 3 (by decide), hbyte 4 (by decide), hbyte 5 (by decide),
    hbyte 6 (by decide), hbyte 7 (by decide)]
  ring

end Sys2Proof.Machine
end

section
/-! An unmasked EVEX form of 128 or 256 bits against the VEX form of its length (R178 e). -/

namespace Sys2Proof.Machine

/-- The EVEX length of a VEX length (R81, R88). -/
def evexLenOf : VexLen → EvexLen
  | .v128 => .v128
  | .v256 => .v256

theorem evexKl_evexLenOf (w : VexLen) : evexKl (evexLenOf w) = vexKl w := by cases w <;> rfl
theorem needsVL_evexLenOf (w : VexLen) : (evexLenOf w).needsVL = true := by cases w <;> rfl

/-- `o'` is the outcome `o` of an instruction that is one byte longer: the same completion with `pc` one further, or the same fault. -/
def OneByteLonger (o o' : StepOutcome) : Prop :=
  (∀ t, o = .next t → o' = .next { t with pc := t.pc + 1#64 }) ∧ ∀ f, o = .fault f → o' = .fault f

theorem oneByteLonger_next (t : State) : OneByteLonger (.next t) (.next { t with pc := t.pc + 1#64 }) := by
  refine ⟨fun _ h => ?_, fun _ h => by cases h⟩
  injection h with h
  rw [h]

theorem oneByteLonger_raise (e : Exn) (s : State) : OneByteLonger (raise e s) (raise e s) :=
  ⟨fun _ h => (by cases h), fun _ h => h⟩

theorem oneByteLonger_stopWith (s : State) (st : ReadStop) : OneByteLonger (stopWith s st) (stopWith s st) :=
  ⟨fun _ h => absurd h stopWith_ne_next, fun _ h => h⟩

/-- The common end with one byte of length more. -/
theorem oneByteLonger_fmaddCommit (k : Kind) (kl : ℕ) (m : BitVec 8) (z : Bool) (d s2 : VReg) (c : ℕ → E64) (size : ℕ) (s : State) :
    OneByteLonger (fmaddCommit k kl m z d s2 c size s) (fmaddCommit k kl m z d s2 c (size + 1) s) := by
  have hpc : s.pc + BitVec.ofNat 64 (size + 1) = s.pc + BitVec.ofNat 64 size + 1#64 := by
    rw [BitVec.ofNat_add, BitVec.add_assoc]
  by_cases hm : ∀ j ∈ activeLanes kl m, laneMasked s.mxcsr (laneResults k (mxControl s) s d s2 c j) = true
  · rw [fmaddCommit_masked hm, fmaddCommit_masked hm, hpc]
    exact oneByteLonger_next _
  · have hun : ∃ j ∈ activeLanes kl m, laneMasked s.mxcsr (laneResults k (mxControl s) s d s2 c j) = false := by simpa using hm
    rw [fmaddCommit_unmasked hun, fmaddCommit_unmasked hun]
    exact oneByteLonger_raise _ _

/-- A ready VEX form whose read does not stop goes on to the common end. -/
theorem vexFmadd_of_stop_none {pfx : List LegacyPrefix} {w : VexLen} {r : VexSrc3} {s : State} (h : VexReady pfx s)
    (hs : (vexSrc3 s pfx w (s.pc + BitVec.ofNat 64 (vexSize pfx r)) r).stop = none) (k : Kind) (d v : BitVec 4) :
    vexFmadd k w pfx d v r s =
      fmaddCommit k (vexKl w) noMask false (d.setWidth 5) (v.setWidth 5) (vexElem s pfx r) (vexSize pfx r) s := by
  simp only [vexFmadd, gate_vexReady h, hs, vexSrc3_elems]

/-- A ready EVEX form whose read does not stop goes on to the common end. -/
theorem evexFmadd_of_stop_none {pfx : List LegacyPrefix} {w : EvexLen} {mk : Masking} {r : EvexSrc3} {s : State}
    (h : EvexReady w.needsVL pfx mk s)
    (hs : (evexSrc3 s pfx w (s.pc + BitVec.ofNat 64 (evexSize pfx r)) (maskBits s mk) r).stop = none) (k : Kind) (d v : VReg) :
    evexFmadd k w pfx mk d v r s =
      fmaddCommit k (evexKl w) (maskBits s mk) mk.z d v (evexElem s pfx w r) (evexSize pfx r) s := by
  simp only [evexFmadd, needsVL_eq, gate_evexReady h, hs, evexSrc3_elems]

/-- Ready forms over the same registers whose third sources stop alike and have the same elements. -/
theorem oneByteLonger_of_same_source {k : Kind} {w : VexLen} {pfx : List LegacyPrefix} {d v : BitVec 4} {s : State} {r : VexSrc3}
    {r' : EvexSrc3} (hready : VexReady pfx s) (hready' : EvexReady true pfx ⟨0#3, false⟩ s)
    (hstop : (evexSrc3 s pfx (evexLenOf w) (s.pc + BitVec.ofNat 64 (evexSize pfx r')) noMask r').stop =
      (vexSrc3 s pfx w (s.pc + BitVec.ofNat 64 (vexSize pfx r)) r).stop)
    (helem : evexElem s pfx (evexLenOf w) r' = vexElem s pfx r) (hsize : evexSize pfx r' = vexSize pfx r + 1) :
    OneByteLonger (exec (mkVex k w pfx d v r) s)
      (exec (mkEvex k (evexLenOf w) pfx ⟨0#3, false⟩ (d.setWidth 5) (v.setWidth 5) r') s) := by
  have hmask : maskBits s ⟨0#3, false⟩ = noMask := rfl
  rw [← needsVL_evexLenOf w] at hready'
  rw [exec_mkVex, exec_mkEvex]
  cases hst : (vexSrc3 s pfx w (s.pc + BitVec.ofNat 64 (vexSize pfx r)) r).stop with
  | some st =>
    rw [vexFmadd_stop hready hst, evexFmadd_stop hready' (hstop.trans hst)]
    exact oneByteLonger_stopWith s st
  | none =>
    rw [vexFmadd_of_stop_none hready hst, evexFmadd_of_stop_none hready' (hstop.trans hst), evexKl_evexLenOf, hmask, helem, hsize]
    exact oneByteLonger_fmaddCommit _ _ _ _ _ _ _ _ _

/-- The exception of a non-canonical address depends on the operand only through the segment of its base (R60). -/
theorem nonCanonicalExn_congr {m m' : MemOperand} (h : stackBased m = stackBased m') (pfx : List LegacyPrefix) (la : Addr) :
    nonCanonicalExn pfx m la = nonCanonicalExn pfx m' la := by
  simp only [nonCanonicalExn, h]

/-- Settles O53: both templates end in the same common end, over the same elements. -/
theorem evexMatchesVex : Obligations.EvexMatchesVex := by
  intro k w pfx d v s w' hready hready'
  have hw : w' = evexLenOf w := by cases w <;> rfl
  clear_value w'
  subst hw
  refine ⟨fun r => ?_, fun m m' haddr hstack hsize => ?_⟩
  · exact oneByteLonger_of_same_source hready hready' rfl rfl (Nat.add_right_comm _ _ _)
  · refine oneByteLonger_of_same_source hready hready' ?_ ?_ ?_
    · simp only [evexSrc3, fullSrc3, evexScale_eq, evexKl_evexLenOf]
      show readStop s (nonCanonicalExn pfx m' (fullAddr s pfx (evexLenOf w) m')) false (fullAddr s pfx (evexLenOf w) m') _ =
        readStop s (nonCanonicalExn pfx m (vexAddr s pfx m)) false (vexAddr s pfx m) _
      rw [← haddr, nonCanonicalExn_congr hstack]
    · funext j
      rw [evexElem, vexElem, haddr]
    · rw [evexSize, vexSize, hsize]
      omega

end Sys2Proof.Machine
end

section
/-! What the mask excludes is irrelevant (R56, R161): an EVEX form on two states that differ in vector registers, memory and translation
ends alike, when they agree on what the mask makes matter. -/

namespace Sys2Proof.Machine

/-- The state with other vector registers, memory and translation. -/
abbrev State.withData (s : State) (regs : Vector Lanes 32) (m : Memory) (x : List XlatRule) : State :=
  { s with zmm := regs, mem := m, xlat := x }

section

variable {s : State} {regs : Vector Lanes 32} {m' : Memory} {x' : List XlatRule} {mk : Masking} {d : VReg} {kl : ℕ}

/-! ## Outcomes -/

theorem sameUnderMask_raise (e : Exn) (mx : BitVec 32) :
    SameUnderMask s (s.withData regs m' x') mk d kl (raise e { s with mxcsr := mx })
      (raise e { s.withData regs m' x' with mxcsr := mx }) where
  completes _ h := by cases h
  raises _ _ h := by cases h; rfl
  refuses _ h := by cases h

theorem sameUnderMask_refused (r : Refusal) : SameUnderMask s (s.withData regs m' x') mk d kl (.refused r) (.refused r) where
  completes _ h := by cases h
  raises _ _ h := by cases h
  refuses _ h := h

/-- Completions with the same `MXCSR`, `pc` and active elements of the destination. -/
theorem sameUnderMask_next {v v' : Lanes} (mx : BitVec 32) (p : Addr)
    (h : ∀ j, j < kl → maskOn s mk j = true → lane v' j = lane v j) :
    SameUnderMask s (s.withData regs m' x') mk d kl (.next { writeZmm s d v with mxcsr := mx, pc := p })
      (.next { writeZmm (s.withData regs m' x') d v' with mxcsr := mx, pc := p }) where
  completes _ ht := by
    injection ht with ht
    subst ht
    refine ⟨_, rfl, rfl, rfl, fun j hj hon => ?_⟩
    rw [readZmm_completed, readZmm_completed, if_pos rfl, if_pos rfl]
    exact h j hj hon
  raises _ _ ht := by cases ht
  refuses _ ht := by cases ht

theorem sameUnderMask_stopWith (st : ReadStop) :
    SameUnderMask s (s.withData regs m' x') mk d kl (stopWith s st) (stopWith (s.withData regs m' x') st) := by
  cases st with
  | exn e => exact sameUnderMask_raise e s.mxcsr
  | device => exact sameUnderMask_refused _

/-- The checks before the operands look at nothing that differs. -/
theorem sameUnderMask_gate {undef : Bool} {o : StepOutcome} (h : gate undef s = some o) :
    ∃ o', gate undef (s.withData regs m' x') = some o' ∧ SameUnderMask s (s.withData regs m' x') mk d kl o o' := by
  have hadm : admission (s.withData regs m' x') = admission s := rfl
  have hts : taskSwitched (s.withData regs m' x') = s.cr0.getLsbD 3 := rfl
  obtain ⟨r, ha, e⟩ | ⟨ha, hu, e⟩ | ⟨ha, hu, ht, e⟩ | ⟨_, _, _, e⟩ := gate_cases undef s <;> cases h.symm.trans e
  · exact ⟨.refused r, by simp only [gate, hadm, ha], sameUnderMask_refused r⟩
  · exact ⟨raise .invalidOpcode (s.withData regs m' x'), by simp only [gate, hadm, ha, hu, if_true], sameUnderMask_raise _ s.mxcsr⟩
  · exact ⟨raise .deviceNotAvailable (s.withData regs m' x'),
      by simp only [gate, hadm, ha, hu, hts, ht, Bool.false_eq_true, if_false, if_true], sameUnderMask_raise _ s.mxcsr⟩

/-! ## The read -/

theorem findSome?_congr_of_mem {f g : ℕ → Option ReadStop} {l : List ℕ} (h : ∀ o ∈ l, f o = g o) :
    l.findSome? f = l.findSome? g := by
  induction l with
  | nil => rfl
  | cons a l ih =>
    rw [List.findSome?_cons, List.findSome?_cons, h a List.mem_cons_self, ih fun o ho => h o (List.mem_cons_of_mem a ho)]

/-- A read whose accessed bytes are translated alike stops alike (R61, R62). -/
theorem readStop_withData {nc : Exn} {al : Bool} {la : Addr} {offs : List ℕ}
    (h : ∀ o ∈ offs, translate (s.withData regs m' x') .dataRead (byteAddr la o) = translate s .dataRead (byteAddr la o)) :
    readStop (s.withData regs m' x') nc al la offs = readStop s nc al la offs := by
  have hbytes : (addressOrder la offs).findSome? (fun o => byteStop (s.withData regs m' x') (byteAddr la o)) =
      (addressOrder la offs).findSome? (fun o => byteStop s (byteAddr la o)) := by
    refine findSome?_congr_of_mem fun o ho => ?_
    rw [byteStop, byteStop, h o (mem_addressOrder.mp ho)]
  have hac : alignCheck (s.withData regs m' x') = alignCheck s := rfl
  rw [readStop, readStop, hbytes, hac]

/-- A third source that is the same where the mask makes it matter stops the read alike (R56). -/
theorem evexSrc3_stop_withData {pfx : List LegacyPrefix} {w : EvexLen} {r : EvexSrc3}
    (h : sameSource s (s.withData regs m' x') pfx w mk r) :
    (evexSrc3 (s.withData regs m' x') pfx w ((s.withData regs m' x').pc + BitVec.ofNat 64 (evexSize pfx r))
        (maskBits (s.withData regs m' x') mk) r).stop =
      (evexSrc3 s pfx w (s.pc + BitVec.ofNat 64 (evexSize pfx r)) (maskBits s mk) r).stop := by
  cases r with
  | reg r => rfl
  | full m =>
    simp only [evexSrc3, fullSrc3, evexScale_eq]
    exact readStop_withData fun o ho => h.1 o (mem_fullOffsets_iff.mp ho)
  | bcast m => exact readStop_withData fun o ho => h.1 o (mem_bcastOffsets_iff.mp ho)

/-- The active elements of such a third source are the same (R161, R162). -/
theorem evexElem_withData {pfx : List LegacyPrefix} {w : EvexLen} {r : EvexSrc3} (h : sameSource s (s.withData regs m' x') pfx w mk r)
    {j : ℕ} (hj : j < w.elements) (hon : maskOn s mk j = true) :
    evexElem (s.withData regs m' x') pfx w r j = evexElem s pfx w r j := by
  cases r with
  | reg r => exact h j hj hon
  | full m => exact h.2 j hj hon
  | bcast m => exact h.2 ⟨j, hj, hon⟩

/-! ## The common end -/

/-- An active element of the assembled destination is the computed one (R161). -/
theorem lane_mergeLanes_active {j : ℕ} (hj : j < kl) (h8 : j < 8) (hon : maskOn s mk j = true) (z : Bool) (old res : ℕ → E64) :
    lane (mergeLanes kl (maskBits s mk) z old res) j = res j := by
  rw [mergeLanes, lane_ofLanes, if_pos h8, if_neg hj.not_ge, maskBits_getLsbD s mk h8, if_pos hon]

/-- With the same active elements in all three operands the common end is the same under the mask (R161). -/
theorem sameUnderMask_fmaddCommit {k : Kind} {v : VReg} {c c' : ℕ → E64} (size : ℕ) (hkl : kl ≤ 8)
    (hregs : ∀ q, q = d ∨ q = v → ∀ j, j < kl → maskOn s mk j = true →
      lane (readZmm (s.withData regs m' x') q) j = lane (readZmm s q) j)
    (hc : ∀ j, j < kl → maskOn s mk j = true → c' j = c j) :
    SameUnderMask s (s.withData regs m' x') mk d kl (fmaddCommit k kl (maskBits s mk) mk.z d v c size s)
      (fmaddCommit k kl (maskBits s mk) mk.z d v c' size (s.withData regs m' x')) := by
  have hres (j : ℕ) (hj : j < kl) (hon : maskOn s mk j = true) :
      laneResults k (mxControl (s.withData regs m' x')) (s.withData regs m' x') d v c' j = laneResults k (mxControl s) s d v c j := by
    rw [laneResults, laneResults, hregs d (.inl rfl) j hj hon, hregs v (.inr rfl) j hj hon, hc j hj hon]
    rfl
  have hmem (j : ℕ) (hj : j ∈ activeLanes kl (maskBits s mk)) :
      laneResults k (mxControl (s.withData regs m' x')) (s.withData regs m' x') d v c' j = laneResults k (mxControl s) s d v c j := by
    rw [activeLanes_maskBits s mk hkl] at hj
    exact hres j (mem_activeBelow.mp hj).1 (mem_activeBelow.mp hj).2
  have hmap := List.map_congr_left hmem
  by_cases hm : ∀ j ∈ activeLanes kl (maskBits s mk), laneMasked s.mxcsr (laneResults k (mxControl s) s d v c j) = true
  · rw [fmaddCommit_masked hm, fmaddCommit_masked (s := s.withData regs m' x') fun j hj => (hmem j hj).symm ▸ hm j hj]
    rw [hmap]
    refine sameUnderMask_next _ _ fun j hj hon => ?_
    rw [lane_mergeLanes_active hj (by omega) hon, lane_mergeLanes_active hj (by omega) hon, hres j hj hon]
  · have hun : ∃ j ∈ activeLanes kl (maskBits s mk), laneMasked s.mxcsr (laneResults k (mxControl s) s d v c j) = false := by
      simpa using hm
    obtain ⟨i, hi, hf⟩ := hun
    rw [fmaddCommit_unmasked ⟨i, hi, hf⟩, fmaddCommit_unmasked (s := s.withData regs m' x') ⟨i, hi, (hmem i hi).symm ▸ hf⟩, hmap]
    exact sameUnderMask_raise _ _

/-! ## The instruction -/

/-- Readiness depends on nothing that differs (R194, R195). -/
theorem EvexReady.withData {vl : Bool} {pfx : List LegacyPrefix} (h : EvexReady vl pfx mk s) :
    EvexReady vl pfx mk (s.withData regs m' x') :=
  ⟨⟨h.mode, h.reserved, h.noTrap, h.feature, h.lengths, h.xsave, h.avx, h.avx512, h.prefixes, h.zeroing⟩, h.notSwitched⟩

/-- An EVEX form without embedded rounding, over sources that agree where the mask makes them matter. -/
theorem sameUnderMask_evexFmadd {k : Kind} {w : EvexLen} {pfx : List LegacyPrefix} {v : VReg} {r : EvexSrc3}
    (hregs : ∀ q, q = d ∨ q = v → ∀ j, j < w.elements → maskOn s mk j = true →
      lane (readZmm (s.withData regs m' x') q) j = lane (readZmm s q) j)
    (hsrc : sameSource s (s.withData regs m' x') pfx w mk r) :
    SameUnderMask s (s.withData regs m' x') mk d w.elements (evexFmadd k w pfx mk d v r s)
      (evexFmadd k w pfx mk d v r (s.withData regs m' x')) := by
  have hstop' := evexSrc3_stop_withData hsrc
  obtain hgate | ⟨hready, st, hstop, e⟩ | ⟨hready, hstop, e⟩ := evexFmadd_cases k w pfx mk d v r s
  · obtain ⟨o', hgate', hsame⟩ := sameUnderMask_gate (regs := regs) (m' := m') (x' := x') (mk := mk) (d := d) (kl := w.elements) hgate
    have hundef : evexUndefined w.needsVL pfx mk (s.withData regs m' x') = evexUndefined w.needsVL pfx mk s := rfl
    rwa [show evexFmadd k w pfx mk d v r (s.withData regs m' x') = o' by simp only [evexFmadd, needsVL_eq, hundef, hgate']]
  · rw [e, evexFmadd_stop hready.withData (hstop'.trans hstop)]
    exact sameUnderMask_stopWith st
  · rw [e, evexFmadd_of_stop_none hready.withData (hstop'.trans hstop), evexKl_eq]
    exact sameUnderMask_fmaddCommit _ (evexElements_le w) hregs fun j hj hon => evexElem_withData hsrc hj hon

/-- An embedded-rounding form, over registers that agree where the mask makes them matter. -/
theorem sameUnderMask_erFmadd {k : Kind} {pfx : List LegacyPrefix} {rc : RoundingMode} {v r : VReg}
    (hregs : ∀ q, q = d ∨ q = v ∨ q = r → ∀ j, j < 8 → maskOn s mk j = true →
      lane (readZmm (s.withData regs m' x') q) j = lane (readZmm s q) j) :
    SameUnderMask s (s.withData regs m' x') mk d 8 (erFmadd k pfx rc mk d v r s)
      (erFmadd k pfx rc mk d v r (s.withData regs m' x')) := by
  obtain hgate | ⟨hready, e⟩ := erFmadd_cases k pfx rc mk d v r s
  · obtain ⟨o', hgate', hsame⟩ := sameUnderMask_gate (regs := regs) (m' := m') (x' := x') (mk := mk) (d := d) (kl := 8) hgate
    have hundef : evexUndefined false pfx mk (s.withData regs m' x') = evexUndefined false pfx mk s := rfl
    rwa [show erFmadd k pfx rc mk d v r (s.withData regs m' x') = o' by simp only [erFmadd, hundef, hgate']]
  · have hres (j : ℕ) (hj : j < 8) (hon : maskOn s mk j = true) :
        erLaneResult (s.withData regs m' x') k rc d v r j = erLaneResult s k rc d v r j := by
      rw [erLaneResult, erLaneResult, hregs d (.inl rfl) j hj hon, hregs v (.inr (.inl rfl)) j hj hon,
        hregs r (.inr (.inr rfl)) j hj hon]
      rfl
    have hon' (j : ℕ) : maskOn (s.withData regs m' x') mk j = maskOn s mk j := rfl
    rw [e, erFmadd_ready hready.withData]
    refine sameUnderMask_next s.mxcsr _ fun j hj hon => ?_
    simp only [maskedResult, lane_ofLanes, if_pos hj, hon', hon, if_true, hres j hj hon]

end

/-- Settles O54: the checks, the read, and the common end agree in turn. -/
theorem maskedElementsIrrelevant : Obligations.MaskedElementsIrrelevant := by
  refine fun k pfx mk d v s regs m' x' => ⟨fun w r hregs hsrc => ?_, fun rc r hregs => ?_⟩
  · rw [exec_mkEvex, exec_mkEvex]
    exact sameUnderMask_evexFmadd hregs hsrc
  · rw [exec_mkEr, exec_mkEr]
    exact sameUnderMask_erFmadd hregs

end Sys2Proof.Machine
end

section
/-! The element function on its operands, continued (R129, R131, R141 P2): which case of R124 applies, the exceptions of the operands, and
the exchange of the factors. -/

namespace Sys2Proof.Machine

/-! ## Which case applies -/

/-- Without a NaN operand: an infinite factor, a finite product with an infinite addend, or finite operands (R124). -/
theorem infinite_or_finite {x y z : E64} (hx : isNaN x = false) (hy : isNaN y = false) (hz : isNaN z = false) :
    (classOf x = .infinity ∨ classOf y = .infinity) ∨
      (classOf x ≠ .infinity ∧ classOf y ≠ .infinity ∧ classOf z = .infinity) ∨
      (isFinite x = true ∧ isFinite y = true ∧ isFinite z = true) := by
  have hfin {w : E64} (hn : isNaN w = false) : classOf w = .infinity ∨ isFinite w = true := by
    cases hf : isFinite w with
    | true => exact .inr rfl
    | false => exact .inl (classOf_infinity_of_not_finite hn hf)
  rcases hfin hx with ix | fx
  · exact .inl (.inl ix)
  rcases hfin hy with iy | fy
  · exact .inl (.inr iy)
  rcases hfin hz with iz | fz
  · exact .inr (.inl ⟨ne_infinity_of_isFinite fx, ne_infinity_of_isFinite fy, iz⟩)
  · exact .inr (.inr ⟨fx, fy, fz⟩)

/-- Finite operands (R131). -/
theorem fmaCases_of_finite (p : FpControl) {x y z : E64} (hx : isFinite x = true) (hy : isFinite y = true) (hz : isFinite z = true) :
    fmaCases p x y z = ⟨(fmaFinite p x y z).1, ⟨false, someDenormal x y z⟩, (fmaFinite p x y z).2⟩ := by
  have hoff : { p with daz := false }.daz = false := rfl
  have h := fma64_finite hoff hx hy hz
  rwa [fma64_of_daz_off hoff] at h

/-- A valid operation on operands that are not NaNs reports a denormal operand and nothing else of its operands (R129). -/
theorem fmaCases_pre_of_valid (p : FpControl) {x y z : E64} (hx : isNaN x = false) (hy : isNaN y = false) (hz : isNaN z = false)
    (hv : invalidOp x y z = false) : (fmaCases p x y z).pre = ⟨false, someDenormal x y z⟩ := by
  rcases infinite_or_finite hx hy hz with hinf | ⟨hix, hiy, hiz⟩ | ⟨fx, fy, fz⟩
  · rw [fmaCases_of_infinite_factor p hx hy hz hv hinf]
  · rw [fmaCases_of_infinite_addend p hx hy hz hv hix hiy hiz]
  · rw [fmaCases_of_finite p fx fy fz]

/-! ## Exchanging the factors -/

theorem productSign_comm (x y : E64) : productSign y x = productSign x y := Bool.xor_comm _ _

theorem someDenormal_comm (x y z : E64) : someDenormal y x z = someDenormal x y z := by
  rw [someDenormal, someDenormal, Bool.or_comm (classOf y == .denormal)]

theorem invalidOp_comm (x y z : E64) : invalidOp y x z = invalidOp x y z := by
  have hzero : infTimesZero y x = infTimesZero x y := by
    rw [infTimesZero, infTimesZero, Bool.or_comm, Bool.and_comm (classOf y == .zero), Bool.and_comm (classOf y == .infinity)]
  have hinf : infMinusInf y x z = infMinusInf x y z := by
    rw [infMinusInf, infMinusInf, productSign_comm, Bool.or_comm (classOf y == .infinity)]
  rw [invalidOp, invalidOp, hzero, hinf]

theorem fmaFinite_comm (p : FpControl) (x y z : E64) : fmaFinite p y x z = fmaFinite p x y z := by
  have hexact : exactUnits y x z = exactUnits x y z := by rw [exactUnits, exactUnits, mul_comm]
  simp only [fmaFinite, hexact, productSign_comm x y]

/-- Without a NaN operand the factors may be exchanged (R141 P2). -/
theorem fmaCases_comm (p : FpControl) {x y z : E64} (hx : isNaN x = false) (hy : isNaN y = false) (hz : isNaN z = false) :
    fmaCases p y x z = fmaCases p x y z := by
  simp only [fmaCases, hx, hy, hz, invalidOp_comm x y, someDenormal_comm x y, productSign_comm x y, fmaFinite_comm p x y,
    Bool.or_comm (classOf y == .infinity), Bool.or_self, Bool.false_eq_true, if_false]

/-- The first NaN of the operands does not depend on the order of the factors, but where both are NaNs (R128). -/
theorem firstNaN_comm {x y : E64} (z : E64) (h : ¬(isNaN x = true ∧ isNaN y = true)) : firstNaN y x z = firstNaN x y z := by
  by_cases hx : isNaN x = true
  · have hy : isNaN y ≠ true := fun hy => h ⟨hx, hy⟩
    rw [firstNaN, firstNaN, if_neg hy, if_pos hx, if_pos hx]
  · rw [firstNaN, firstNaN, if_neg hx, if_neg hx]

theorem fmaCases_factor_symmetry (p : FpControl) (x y z : E64) :
    (fmaCases p x y z).pre = (fmaCases p y x z).pre ∧ (fmaCases p x y z).post = (fmaCases p y x z).post ∧
    (p.nanRule = .firstOperand → ¬(isNaN x = true ∧ isNaN y = true) → (fmaCases p x y z).res = (fmaCases p y x z).res) := by
  by_cases hnan : isNaN x = true ∨ isNaN y = true ∨ isNaN z = true
  · rw [fmaCases_of_nan p hnan, fmaCases_of_nan p (or_left_comm.mp hnan), Bool.or_comm (classOf x == .snan)]
    refine ⟨rfl, rfl, fun hr hboth => ?_⟩
    rw [hr]
    exact congrArg quiet (firstNaN_comm z hboth).symm
  · simp only [not_or, Bool.not_eq_true] at hnan
    obtain ⟨hx, hy, hz⟩ := hnan
    rw [fmaCases_comm p hx hy hz]
    exact ⟨rfl, rfl, fun _ _ => rfl⟩

/-- Denormals-are-zero neither makes nor removes a NaN (R123). -/
theorem isNaN_dazOperand (daz : Bool) (w : E64) : isNaN (dazOperand daz w) = isNaN w := by
  cases daz with
  | false => rw [dazOperand_off]
  | true =>
    rw [dazOperand_on]
    split
    · next h => rw [isNaN, isNaN, classOf_zeroE, h]; rfl
    · rfl

/-! ## The statements -/

/-- Settles O33: every case but the first two reports of the operands just `someDenormal`. -/
theorem denormalOperand : Obligations.DenormalOperand := by
  intro p x y z hd hx hy hz hv
  rw [fma64_of_daz_off hd, fmaCases_pre_of_valid p hx hy hz hv]
  exact ⟨by simp only [someDenormal, Bool.or_eq_true, beq_iff_eq, or_assoc], rfl⟩

/-- Settles O35: the integer is the exact value in units, and the example evaluates. -/
theorem exactIntermediate : Obligations.ExactIntermediate :=
  ⟨fun x y z _ _ _ => (exactVal_units x y z).symm, by decide +kernel⟩

/-- Settles O45: each case of R124 is symmetric in the factors, but for the pick among two NaN factors. -/
theorem factorSymmetry : Obligations.FactorSymmetry := by
  intro p x y z
  have h := fmaCases_factor_symmetry p (dazOperand p.daz x) (dazOperand p.daz y) (dazOperand p.daz z)
  rwa [isNaN_dazOperand, isNaN_dazOperand] at h

end Sys2Proof.Machine
end

section
/-! The results of finite operands, continued (R135, R141): tiny results, results that are exact, and results that are never a NaN. -/

namespace Sys2Proof.Machine

/-! ## Tiny magnitudes -/

/-- A tiny rounded magnitude comes from a magnitude below the normal range (R135). -/
theorem lt_tinyUnits_of_tiny {rc : RoundingMode} {neg : Bool} {a : ℕ} (ha : a ≠ 0) (h : roundUnbounded rc neg a < tinyUnits) :
    a < tinyUnits := by
  by_contra hge
  have hlog : 1126 ≤ Nat.log2 a := (Nat.le_log2 ha).mpr (not_lt.mp hge)
  have hle : tinyUnits ≤ roundUnbounded rc neg a := calc
    tinyUnits ≤ 2 ^ Nat.log2 a := Nat.pow_le_pow_right two_pos hlog
    _ ≤ roundUnbounded rc neg a := (roundUnbounded_binade rc neg ha).1
  omega

/-- The rounding of a magnitude below the normal range to a multiple of `2^-1074` does not pass the least normal number (R135 c). -/
theorem roundDenormal_le_tinyUnits (rc : RoundingMode) (neg : Bool) {a : ℕ} (h : a ≤ tinyUnits) :
    roundDenormal rc neg a ≤ tinyUnits := by
  have hexact : roundMag rc neg 1074 tinyUnits = tinyUnits :=
    roundMag_exact rc neg 1074 tinyUnits (Nat.mod_eq_zero_of_dvd (Nat.pow_dvd_pow 2 (by norm_num)))
  exact (roundMag_mono rc neg 1074 h).trans_eq hexact

/-- The denormal encoding of a tiny result reads back as its rounding (R135 c). -/
theorem encodeDenormal_of_tiny {rc : RoundingMode} {neg : Bool} {a : ℕ} (ha : a ≠ 0) (h : roundUnbounded rc neg a < tinyUnits) :
    signOf (encodeDenormal neg (roundDenormal rc neg a)) = neg ∧ isFinite (encodeDenormal neg (roundDenormal rc neg a)) = true ∧
      magUnits (encodeDenormal neg (roundDenormal rc neg a)) * 2 ^ 1074 = roundDenormal rc neg a :=
  encodeDenormal_spec neg (roundDenormal_le_tinyUnits rc neg (lt_tinyUnits_of_tiny ha h).le) (roundMag_mod rc neg 1074 a)

/-- Tiny, unmasked (R135 a). -/
theorem roundNonzero_of_unmasked_tiny {p : FpControl} {neg : Bool} {a : ℕ} (h : roundUnbounded p.rc neg a < tinyUnits)
    (hum : p.um = false) :
    roundNonzero p neg a =
      (encodeDenormal neg (roundDenormal p.rc neg a), ⟨false, true, decide (roundUnbounded p.rc neg a ≠ a)⟩) := by
  simp only [roundNonzero, if_neg (h.trans tinyUnits_lt_overflowUnits).not_ge, if_pos h, hum, Bool.not_false, if_true]

/-- Tiny, masked and not flushed (R135 c). -/
theorem roundNonzero_of_masked_tiny {p : FpControl} {neg : Bool} {a : ℕ} (h : roundUnbounded p.rc neg a < tinyUnits)
    (hum : p.um = true) (hftz : p.ftz = false) :
    roundNonzero p neg a = (encodeDenormal neg (roundDenormal p.rc neg a),
      ⟨false, decide (roundDenormal p.rc neg a ≠ a), decide (roundDenormal p.rc neg a ≠ a)⟩) := by
  simp only [roundNonzero, if_neg (h.trans tinyUnits_lt_overflowUnits).not_ge, if_pos h, hum, hftz, Bool.not_true,
    Bool.false_eq_true, if_false]

/-- The machine's rounding to a multiple of `2^-1074` is the one of R135 c. -/
theorem eq_of_isRoundDenormal {rc : RoundingMode} {e rd : ℚ} {a : ℕ} (he : |e| = a * 2 ^ (-2148 : ℤ))
    (h : IsRoundDenormal rc e rd) : rd = withSignOf e (roundDenormal rc (decide (e < 0)) a * 2 ^ (-2148 : ℤ)) := by
  obtain ⟨n, hlo, hhi, rfl⟩ := h
  have hq : (2 : ℚ) ^ (-1074 : ℤ) = 2 ^ 1074 * 2 ^ (-2148 : ℤ) := by
    rw [← zpow_natCast, ← zpow_add₀ two_ne_zero]
    norm_num
  obtain ⟨hlo', hhi'⟩ := div_bracket (a := a) unit_pos hq
  rw [← he] at hlo' hhi'
  obtain rfl : n = a / 2 ^ 1074 := le_antisymm (bracket_index_le hlo hhi') (bracket_index_le hlo' hhi)
  rw [chosenMagnitude_eq rc 1074 a _ e _ unit_pos he hq, roundDenormal]

/-- Settles O40: the machine compares the rounded magnitude with `2^-1022`, and rounds again at `2^-1074`. -/
theorem underflowResponse : Obligations.UnderflowResponse := by
  intro p x y z ru hd hx hy hz hne hround htiny
  have hunits := roundedUnits_of_isRound53 hne hround
  have htiny' := not_le.mp (mt hunits.notTiny.mp htiny.not_ge)
  rw [fma64_nonzero hd hx hy hz hne]
  refine ⟨fun hum => ?_, fun hum hftz rd hrd => ?_⟩
  · rw [roundNonzero_of_unmasked_tiny htiny' hum, hunits.inexact]
  · have hvalue := eq_of_isRoundDenormal (abs_exactVal x y z) hrd
    obtain ⟨hsign, hfinite, hmag⟩ := encodeDenormal_of_tiny (natAbs_exactUnits_ne_zero hne) htiny'
    have hexact : rd = exactVal x y z ↔
        roundDenormal p.rc (decide (exactVal x y z < 0)) (exactUnits x y z).natAbs = (exactUnits x y z).natAbs := by
      rw [hvalue, withSignOf_eq_self_iff, abs_exactVal, mul_left_inj' unit_pos.ne', Nat.cast_inj]
    rw [roundNonzero_of_masked_tiny htiny' hum hftz, decide_eq_decide.mpr (not_congr hexact)]
    exact ⟨hfinite, (realVal_of_units hsign hmag).trans hvalue.symm, hsign, rfl⟩

/-! ## Results and NaNs -/

theorem classOf_qnan_iff (w : E64) : classOf w = .qnan ↔ expOf w = 2047 ∧ fracOf w ≠ 0 ∧ w.getLsbD 51 = true := by
  unfold classOf
  by_cases h0 : expOf w = 0
  · by_cases hf : fracOf w = 0 <;> simp [h0, hf]
  · by_cases h1 : expOf w = 2047
    · by_cases hf : fracOf w = 0
      · simp [h1, hf]
      · cases h : w.getLsbD 51 <;> simp [h1, hf]
    · simp [h0, h1]

theorem expOf_quiet (w : E64) : expOf (quiet w) = expOf w := by
  refine congrArg BitVec.toNat (BitVec.eq_of_getLsbD_eq fun i _ => ?_)
  rw [BitVec.getLsbD_extractLsb', BitVec.getLsbD_extractLsb', getLsbD_quiet, if_neg (by omega)]

theorem fracOf_ne_zero_of_bit51 {w : E64} (h : w.getLsbD 51 = true) : fracOf w ≠ 0 := by
  intro hzero
  have hbits : w.extractLsb' 0 52 = 0#52 := BitVec.eq_of_toNat_eq hzero
  have hbit : (w.extractLsb' 0 52).getLsbD 51 = true := by
    rw [BitVec.getLsbD_extractLsb']
    exact h
  rw [hbits] at hbit
  exact absurd hbit (by decide)

/-- A quieted NaN is a quiet NaN (R122). -/
theorem classOf_quiet {w : E64} (h : isNaN w = true) : classOf (quiet w) = .qnan := by
  have hbit : (quiet w).getLsbD 51 = true := by rw [getLsbD_quiet, if_pos rfl]
  exact (classOf_qnan_iff _).mpr ⟨(expOf_quiet w).trans ((isNaN_iff w).mp h).1, fracOf_ne_zero_of_bit51 hbit, hbit⟩

theorem isNaN_of_classOf_qnan {w : E64} (h : classOf w = .qnan) : isNaN w = true := by
  rw [isNaN, h]
  rfl

theorem isNaN_of_classOf_infinity {w : E64} (h : classOf w = .infinity) : isNaN w = false := by
  rw [isNaN, h]
  rfl

theorem isFinite_of_classOf_normal {w : E64} (h : classOf w = .normal) : isFinite w = true := by
  rw [isFinite, h]
  rfl

theorem isNaN_zeroE (neg : Bool) : isNaN (zeroE neg) = false := by
  rw [isNaN, classOf_zeroE]
  rfl

theorem isNaN_infE (neg : Bool) : isNaN (infE neg) = false := by
  cases neg <;> rfl

theorem isNaN_maxE (neg : Bool) : isNaN (maxE neg) = false := by
  cases neg <;> rfl

theorem overflowResult_cases (rc : RoundingMode) (neg : Bool) :
    overflowResult rc neg = infE neg ∨ overflowResult rc neg = maxE neg := by
  cases rc with
  | rn => exact .inl rfl
  | rz => exact .inr rfl
  | rd => cases neg with
    | true => exact .inl rfl
    | false => exact .inr rfl
  | ru => cases neg with
    | true => exact .inr rfl
    | false => exact .inl rfl

theorem isNaN_overflowResult (rc : RoundingMode) (neg : Bool) : isNaN (overflowResult rc neg) = false := by
  rcases overflowResult_cases rc neg with h | h
  · rw [h, isNaN_infE]
  · rw [h, isNaN_maxE]

/-- The result of a nonzero exact value is not a NaN (R141 P3). -/
theorem isNaN_roundNonzero (p : FpControl) (neg : Bool) {a : ℕ} (ha : a ≠ 0) : isNaN (roundNonzero p neg a).1 = false := by
  rcases Nat.lt_or_ge (roundUnbounded p.rc neg a) tinyUnits with htiny | hlo
  · have hdenormal := isNaN_of_isFinite (encodeDenormal_of_tiny ha htiny).2.1
    cases hum : p.um with
    | false => rwa [roundNonzero_of_unmasked_tiny htiny hum]
    | true => cases hftz : p.ftz with
      | false => rwa [roundNonzero_of_masked_tiny htiny hum hftz]
      | true => rw [roundNonzero_of_flushed htiny hum hftz, isNaN_zeroE]
  rcases Nat.lt_or_ge (roundUnbounded p.rc neg a) overflowUnits with hhi | hover
  · obtain ⟨_, hclass, _⟩ := encodeNormal_spec neg hlo hhi (roundUnbounded_significant p.rc neg ha)
    rw [roundNonzero_of_normal hlo hhi, isNaN_of_isFinite (isFinite_of_classOf_normal hclass)]
  · rw [roundNonzero_of_overflow hover, isNaN_overflowResult]

theorem isNaN_fmaFinite (p : FpControl) (x y z : E64) : isNaN (fmaFinite p x y z).1 = false := by
  simp only [fmaFinite]
  split_ifs with hzero
  · exact isNaN_zeroE _
  · exact isNaN_roundNonzero p _ (Int.natAbs_ne_zero.mpr hzero)

/-- A valid operation on operands that are not NaNs does not give one (R141 P3). -/
theorem isNaN_fmaCases_of_valid (p : FpControl) {x y z : E64} (hx : isNaN x = false) (hy : isNaN y = false) (hz : isNaN z = false)
    (hv : invalidOp x y z = false) : isNaN (fmaCases p x y z).res = false := by
  rcases infinite_or_finite hx hy hz with hinf | ⟨hix, hiy, hiz⟩ | ⟨fx, fy, fz⟩
  · rw [fmaCases_of_infinite_factor p hx hy hz hv hinf, isNaN_infE]
  · rw [fmaCases_of_infinite_addend p hx hy hz hv hix hiy hiz, hz]
  · rw [fmaCases_of_finite p fx fy fz, isNaN_fmaFinite]

/-- A NaN operand or an invalid operation gives a quiet NaN (R125, R127). -/
theorem classOf_fmaCases_qnan (p : FpControl) {x y z : E64}
    (h : isNaN x = true ∨ isNaN y = true ∨ isNaN z = true ∨ invalidOp x y z = true) : classOf (fmaCases p x y z).res = .qnan := by
  by_cases hnan : isNaN x = true ∨ isNaN y = true ∨ isNaN z = true
  · rw [fmaCases_of_nan p hnan]
    exact classOf_quiet (nanPick_spec p.nanRule hnan).1
  · simp only [not_or, Bool.not_eq_true] at hnan
    obtain ⟨hx, hy, hz⟩ := hnan
    have hv : invalidOp x y z = true := by simpa only [hx, hy, hz, Bool.false_eq_true, false_or] using h
    rw [fmaCases_of_invalid p hx hy hz hv]
    rfl

/-- Settles O46: the first two cases of R124 give a quiet NaN, the other cases never give a NaN. -/
theorem naNClosure : Obligations.NaNClosure := by
  intro p x y z hd
  rw [fma64_of_daz_off hd]
  by_cases h : isNaN x = true ∨ isNaN y = true ∨ isNaN z = true ∨ invalidOp x y z = true
  · have hq := classOf_fmaCases_qnan p h
    exact ⟨iff_of_true (isNaN_of_classOf_qnan hq) h, fun _ => hq⟩
  · have hvalid : isNaN (fmaCases p x y z).res = false := by
      simp only [not_or, Bool.not_eq_true] at h
      obtain ⟨hx, hy, hz, hv⟩ := h
      exact isNaN_fmaCases_of_valid p hx hy hz hv
    have hnot : ¬isNaN (fmaCases p x y z).res = true := by rw [hvalid]; exact Bool.false_ne_true
    exact ⟨iff_of_false hnot h, fun hn => absurd hn hnot⟩

/-! ## Exact values -/

theorem magUnits_ne_zero_of_normal {w : E64} (h : classOf w = .normal) : magUnits w ≠ 0 := by
  rw [magUnits, if_neg ((classOf_normal_iff w).mp h).1]
  positivity

/-- Finite elements of one sign and magnitude are equal (R122). -/
theorem eq_of_sign_of_magUnits {v w : E64} (hs : signOf v = signOf w) (hm : magUnits v = magUnits w) : v = w := by
  have hvw := mt (magUnits_lt_iff v w).mpr (by omega)
  have hwv := mt (magUnits_lt_iff w v).mpr (by omega)
  have hfv := fracOf_lt v
  have hfw := fracOf_lt w
  exact eq_of_fields hs (by omega) (by omega)

theorem eq_of_sign_of_units {v w : E64} (hs : signOf v = signOf w) (hm : magUnits v * 2 ^ 1074 = magUnits w * 2 ^ 1074) : v = w :=
  eq_of_sign_of_magUnits hs (Nat.eq_of_mul_eq_mul_right (Nat.two_pow_pos 1074) hm)

/-- A scaled significand of 53 bits lies in one binade. -/
theorem significand_bounds {f : ℕ} (h : f < 2 ^ 52) (n : ℕ) :
    2 ^ (52 + n) ≤ (2 ^ 52 + f) * 2 ^ n ∧ (2 ^ 52 + f) * 2 ^ n < 2 ^ (52 + n + 1) := by
  rw [show 52 + n + 1 = 53 + n by omega, pow_add, pow_add]
  exact ⟨Nat.mul_le_mul_right _ (Nat.le_add_right _ _), Nat.mul_lt_mul_of_pos_right (by omega) (Nat.two_pow_pos n)⟩

/-- The magnitude of a normal number has 53 significant bits and lies in the normal range (R122). -/
theorem normal_units {w : E64} (h : classOf w = .normal) :
    tinyUnits ≤ magUnits w * 2 ^ 1074 ∧ magUnits w * 2 ^ 1074 < overflowUnits ∧
      magUnits w * 2 ^ 1074 % 2 ^ (Nat.log2 (magUnits w * 2 ^ 1074) - 52) = 0 := by
  obtain ⟨he0, he1⟩ := (classOf_normal_iff w).mp h
  have hexp := expOf_lt w
  have hfrac := fracOf_lt w
  have hunits : magUnits w * 2 ^ 1074 = (2 ^ 52 + fracOf w) * 2 ^ (expOf w + 1073) := by
    rw [magUnits, if_neg he0, mul_assoc, ← pow_add, show expOf w - 1 + 1074 = expOf w + 1073 by omega]
  obtain ⟨hlo, hhi⟩ := significand_bounds hfrac (expOf w + 1073)
  rw [← hunits, show 52 + (expOf w + 1073) = expOf w + 1125 by omega] at hlo
  rw [← hunits, show 52 + (expOf w + 1073) + 1 = expOf w + 1125 + 1 by omega] at hhi
  refine ⟨?_, ?_, ?_⟩
  · exact (Nat.pow_le_pow_right two_pos (by omega)).trans hlo
  · exact hhi.trans_le (Nat.pow_le_pow_right two_pos (by omega))
  · rw [log2_eq_of_bounds hlo hhi, hunits, show expOf w + 1125 - 52 = expOf w + 1073 by omega]
    exact Nat.mul_mod_left _ _

/-- The value of a normal number is rounded to that number (R141 P1). -/
theorem roundNonzero_of_normal_value (p : FpControl) {w : E64} (h : classOf w = .normal) :
    roundNonzero p (signOf w) (magUnits w * 2 ^ 1074) = (w, .clear) := by
  obtain ⟨hlo, hhi, hsig⟩ := normal_units h
  have hround : roundUnbounded p.rc (signOf w) (magUnits w * 2 ^ 1074) = magUnits w * 2 ^ 1074 := roundUnbounded_exact _ _ hsig
  obtain ⟨hsign, _, hmag⟩ := encodeNormal_spec (signOf w) hlo hhi hsig
  have hcode := eq_of_sign_of_units hsign hmag
  rw [roundNonzero_of_normal (hlo.trans_eq hround.symm) (hround.trans_lt hhi), hround, hcode]
  simp only [ne_eq, not_true_eq_false, decide_false, PostFlags.clear]

/-- An exact value of a normal number is that number, without an exception (R141 P1). -/
theorem fmaFinite_of_normal_value (p : FpControl) {x y z w : E64} (hw : classOf w = .normal)
    (he : exactUnits x y z = valUnits w * 2 ^ 1074) : fmaFinite p x y z = (w, .clear) := by
  have hmag := magUnits_ne_zero_of_normal hw
  have hpos : 0 < magUnits w * 2 ^ 1074 := by positivity
  have hcast : exactUnits x y z =
      if signOf w then -((magUnits w * 2 ^ 1074 : ℕ) : ℤ) else ((magUnits w * 2 ^ 1074 : ℕ) : ℤ) := by
    rw [he, valUnits]
    split
    · push_cast; ring
    · push_cast; ring
  have hround := roundNonzero_of_normal_value p hw
  generalize magUnits w * 2 ^ 1074 = a at hpos hcast hround
  rw [fmaFinite]
  cases hs : signOf w with
  | true =>
    rw [hs] at hcast hround
    simp only [if_true] at hcast
    simp only [hcast, Int.natAbs_neg, Int.natAbs_natCast, show (-(a : ℤ) < 0) = True by simpa using hpos,
      show ¬(-(a : ℤ) = 0) by omega, if_false, decide_true, hround]
  | false =>
    rw [hs] at hcast hround
    simp only [Bool.false_eq_true, if_false] at hcast
    simp only [hcast, Int.natAbs_natCast, show ¬((a : ℤ) < 0) by omega, show ¬((a : ℤ) = 0) by omega, if_false, decide_false, hround]

/-- The exact value of an element, in the machine's units (R122, R131). -/
theorem exactUnits_of_realVal {x y z w : E64} (h : realVal w = exactVal x y z) : exactUnits x y z = valUnits w * 2 ^ 1074 := by
  have hscale : (2 : ℚ) ^ (-1074 : ℤ) = 2 ^ 1074 * 2 ^ (-2148 : ℤ) := by
    rw [← zpow_natCast, ← zpow_add₀ two_ne_zero]
    norm_num
  rw [realVal_eq, exactVal_units, hscale, ← mul_assoc, mul_left_inj' unit_pos.ne'] at h
  exact_mod_cast h.symm

theorem realVal_of_classOf_zero {w : E64} (h : classOf w = .zero) : realVal w = 0 := by
  obtain ⟨he, hf⟩ := (classOf_zero_iff w).mp h
  simp only [realVal, he, hf, if_true, Nat.cast_zero, zero_mul, mul_zero]

/-- Settles O44: a normal number's value is not moved by the rounding, and a zero is an exact zero. -/
theorem exactResult : Obligations.ExactResult := by
  intro p x y z w hd hx hy hz hw he
  rcases hw with hw | hw
  · rw [fma64_finite hd hx hy hz, fmaFinite_of_normal_value p hw (exactUnits_of_realVal he)]
    exact ⟨rfl, he, rfl⟩
  · have hzero : exactVal x y z = 0 := he.symm.trans (realVal_of_classOf_zero hw)
    rw [fma64_of_exact_zero hd hx hy hz hzero, hw, hzero]
    exact ⟨classOf_zeroE _, realVal_of_classOf_zero (classOf_zeroE _), rfl⟩

/-! ## Multiplying by one -/

theorem dazOperand_of_not_denormal (daz : Bool) {w : E64} (h : classOf w ≠ .denormal) : dazOperand daz w = w := by
  cases daz with
  | false => rfl
  | true => rw [dazOperand_on, if_neg h]

/-- A normal number times one, plus a zero, in the machine's units. -/
theorem exactUnits_one_zero (x : E64) {z : E64} (hz : classOf z = .zero) :
    exactUnits x 0x3FF0000000000000#64 z = valUnits x * 2 ^ 1074 := by
  have hone : valUnits 0x3FF0000000000000#64 = 2 ^ 1074 := by decide +kernel
  obtain ⟨he, hf⟩ := (classOf_zero_iff z).mp hz
  have hzero : valUnits z = 0 := by simp only [valUnits, magUnits, he, hf, if_true, Nat.cast_zero, neg_zero, ite_self]
  rw [exactUnits, hone, hzero, zero_mul, add_zero]

theorem eq_infE_of_classOf_infinity {x : E64} (h : classOf x = .infinity) : x = infE (signOf x) := by
  obtain ⟨he, hf⟩ := (classOf_infinity_iff x).mp h
  refine eq_of_fields ?_ ?_ ?_
  · rw [infE, signOf_withSign]
  · rw [he, infE, expOf_withSign]; rfl
  · rw [hf, infE, fracOf_withSign]; rfl

theorem fmaCases_one_zero (p : FpControl) {x z : E64} (hx : classOf x = .normal ∨ classOf x = .infinity) (hz : classOf z = .zero) :
    fmaCases p x 0x3FF0000000000000#64 z = ⟨x, ⟨false, false⟩, .clear⟩ := by
  have hone : classOf 0x3FF0000000000000#64 = .normal := by decide
  have hzf : isFinite z = true := by rw [isFinite, hz]; rfl
  have honef : isFinite 0x3FF0000000000000#64 = true := isFinite_of_classOf_normal hone
  rcases hx with hx | hx
  · have hden : someDenormal x 0x3FF0000000000000#64 z = false := by rw [someDenormal, hx, hone, hz]; rfl
    rw [fmaCases_of_finite p (isFinite_of_classOf_normal hx) honef hzf, hden,
      fmaFinite_of_normal_value p hx (exactUnits_one_zero x hz)]
  · have hvalid : invalidOp x 0x3FF0000000000000#64 z = false := by
      rw [invalidOp, infTimesZero, infMinusInf, hx, hone, hz]
      rfl
    have hden : someDenormal x 0x3FF0000000000000#64 z = false := by rw [someDenormal, hx, hone, hz]; rfl
    have hsign : productSign x 0x3FF0000000000000#64 = signOf x := Bool.xor_false _
    rw [fmaCases_of_infinite_factor p (isNaN_of_classOf_infinity hx) (isNaN_of_isFinite honef) (isNaN_of_isFinite hzf) hvalid
      (.inl hx), hsign, hden, ← eq_infE_of_classOf_infinity hx]

/-- Settles O47: none of the operands is a denormal, so denormals-are-zero does not matter; the exact value is that of `x`. -/
theorem multiplyByOne : Obligations.MultiplyByOne := by
  intro p x z hx hz
  have hxd : classOf x ≠ .denormal := by rcases hx with h | h <;> rw [h] <;> decide
  have hzd : classOf z ≠ .denormal := by rw [hz]; decide
  rw [fma64, dazOperand_of_not_denormal p.daz hxd, dazOperand_of_not_denormal p.daz (by decide),
    dazOperand_of_not_denormal p.daz hzd, fmaCases_one_zero p hx hz]
  rfl

end Sys2Proof.Machine
end

section
/-! The results of finite operands compared with each other and with the exact value (R141 P5, P6): the result as a function of the
mode, the sign and the magnitude that is rounded, its growth with the magnitude, and the modes that round inward and outward. -/

namespace Sys2Proof.Machine

/-! ## The rounded magnitude of a masked, unflushed result -/

/-- The magnitude that is encoded when the result does not overflow, is masked and not flushed (R135 c, R137). -/
def roundedMagnitude (rc : RoundingMode) (neg : Bool) (a : ℕ) : ℕ :=
  if roundUnbounded rc neg a < tinyUnits then roundDenormal rc neg a else roundUnbounded rc neg a

/-- Below overflow the result is the finite element of the sign and of the rounded magnitude (R135 c, R137). -/
theorem roundNonzero_finite {p : FpControl} (hum : p.um = true) (hftz : p.ftz = false) {neg : Bool} {a : ℕ} (ha : a ≠ 0)
    (h : roundUnbounded p.rc neg a < overflowUnits) :
    signOf (roundNonzero p neg a).1 = neg ∧ isFinite (roundNonzero p neg a).1 = true ∧
      magUnits (roundNonzero p neg a).1 * 2 ^ 1074 = roundedMagnitude p.rc neg a := by
  rcases Nat.lt_or_ge (roundUnbounded p.rc neg a) tinyUnits with htiny | hlo
  · rw [roundNonzero_of_masked_tiny htiny hum hftz, roundedMagnitude, if_pos htiny]
    exact encodeDenormal_of_tiny ha htiny
  · obtain ⟨hsign, hclass, hmag⟩ := encodeNormal_spec neg hlo h (roundUnbounded_significant p.rc neg ha)
    rw [roundNonzero_of_normal hlo h, roundedMagnitude, if_neg hlo.not_gt]
    exact ⟨hsign, isFinite_of_classOf_normal hclass, hmag⟩

theorem signOf_overflowResult (rc : RoundingMode) (neg : Bool) : signOf (overflowResult rc neg) = neg := by
  rcases overflowResult_cases rc neg with h | h
  · rw [h, infE, signOf_withSign]
  · rw [h, maxE, signOf_withSign]

/-- The result has the sign of the exact value (R134 to R137). -/
theorem signOf_roundNonzero {p : FpControl} (hum : p.um = true) (hftz : p.ftz = false) (neg : Bool) {a : ℕ} (ha : a ≠ 0) :
    signOf (roundNonzero p neg a).1 = neg := by
  rcases Nat.lt_or_ge (roundUnbounded p.rc neg a) overflowUnits with hfin | hover
  · exact (roundNonzero_finite hum hftz ha hfin).1
  · rw [roundNonzero_of_overflow hover, signOf_overflowResult]

/-- A larger magnitude is not rounded to a smaller one, across the end of the normal range too (R141 P5). -/
theorem roundedMagnitude_mono (rc : RoundingMode) (neg : Bool) {a b : ℕ} (ha : a ≠ 0) (h : a ≤ b) :
    roundedMagnitude rc neg a ≤ roundedMagnitude rc neg b := by
  have hunbounded := roundUnbounded_mono rc neg ha h
  unfold roundedMagnitude
  split
  · next htiny =>
    split
    · exact roundMag_mono rc neg 1074 h
    · next hnormal =>
      exact (roundDenormal_le_tinyUnits rc neg (lt_tinyUnits_of_tiny ha htiny).le).trans (not_lt.mp hnormal)
  · next hnormal => rwa [if_neg (by omega)]

/-! ## The order of the results -/

/-- The magnitude bits of an element. -/
def magnitudeBits (w : E64) : ℕ := expOf w * 2 ^ 52 + fracOf w

theorem orderKey_eq (w : E64) : orderKey w = if signOf w then -(magnitudeBits w : ℤ) else (magnitudeBits w : ℤ) := by
  rw [orderKey, low63_eq, magnitudeBits]

theorem orderKey_zeroE (neg : Bool) : orderKey (zeroE neg) = 0 := by
  cases neg <;> rfl

theorem magnitudeBits_le_of_units {v w : E64} {m n : ℕ} (hv : magUnits v * 2 ^ 1074 = m) (hw : magUnits w * 2 ^ 1074 = n)
    (h : m ≤ n) : magnitudeBits v ≤ magnitudeBits w := by
  have hle : magUnits v ≤ magUnits w := Nat.le_of_mul_le_mul_right (hv.trans_le (h.trans_eq hw.symm)) (Nat.two_pow_pos 1074)
  exact not_lt.mp (mt (magUnits_lt_iff w v).mpr hle.not_gt)

/-- No finite element passes the result of an overflow, in any mode (R134). -/
theorem magnitudeBits_le_overflowResult {w : E64} (h : isFinite w = true) (rc : RoundingMode) (neg : Bool) :
    magnitudeBits w ≤ magnitudeBits (overflowResult rc neg) := by
  have hexp := (isFinite_iff w).mp h
  have hexp' := expOf_lt w
  have hfrac := fracOf_lt w
  have hmax : magnitudeBits (maxE neg) = 2046 * 2 ^ 52 + (2 ^ 52 - 1) := by cases neg <;> decide
  have hinf : magnitudeBits (infE neg) = 2047 * 2 ^ 52 := by cases neg <;> decide
  have hw : magnitudeBits w ≤ 2046 * 2 ^ 52 + (2 ^ 52 - 1) := by unfold magnitudeBits; omega
  rcases overflowResult_cases rc neg with h | h
  · rw [h, hinf]; omega
  · rwa [h, hmax]

/-- For one sign the magnitude bits of the result grow with the magnitude that is rounded (R141 P5). -/
theorem magnitudeBits_roundNonzero_mono {p : FpControl} (hum : p.um = true) (hftz : p.ftz = false) (neg : Bool) {a b : ℕ}
    (ha : a ≠ 0) (h : a ≤ b) : magnitudeBits (roundNonzero p neg a).1 ≤ magnitudeBits (roundNonzero p neg b).1 := by
  have hb : b ≠ 0 := by omega
  have hmono := roundUnbounded_mono p.rc neg ha h
  rcases Nat.lt_or_ge (roundUnbounded p.rc neg b) overflowUnits with hfin | hover
  · obtain ⟨_, _, hmaga⟩ := roundNonzero_finite hum hftz ha (hmono.trans_lt hfin)
    obtain ⟨_, _, hmagb⟩ := roundNonzero_finite hum hftz hb hfin
    exact magnitudeBits_le_of_units hmaga hmagb (roundedMagnitude_mono p.rc neg ha h)
  · rw [roundNonzero_of_overflow hover]
    rcases Nat.lt_or_ge (roundUnbounded p.rc neg a) overflowUnits with hfin | hover'
    · exact magnitudeBits_le_overflowResult (roundNonzero_finite hum hftz ha hfin).2.1 p.rc neg
    · rw [roundNonzero_of_overflow hover']

/-- The order key of the result, from the integer that is rounded. -/
def roundedKey (p : FpControl) (e : ℤ) : ℤ :=
  if e = 0 then 0
  else if e < 0 then -(magnitudeBits (roundNonzero p true e.natAbs).1 : ℤ)
  else (magnitudeBits (roundNonzero p false e.natAbs).1 : ℤ)

theorem orderKey_fmaFinite {p : FpControl} (hum : p.um = true) (hftz : p.ftz = false) (x y z : E64) :
    orderKey (fmaFinite p x y z).1 = roundedKey p (exactUnits x y z) := by
  simp only [fmaFinite, roundedKey]
  split
  · exact orderKey_zeroE _
  · next hne =>
    rw [orderKey_eq, signOf_roundNonzero hum hftz _ (Int.natAbs_ne_zero.mpr hne)]
    by_cases hneg : exactUnits x y z < 0
    · simp only [hneg, decide_true, if_true]
    · simp only [hneg, decide_false, Bool.false_eq_true, if_false]

/-- The order key of the result grows with the integer that is rounded (R141 P5). -/
theorem roundedKey_mono {p : FpControl} (hum : p.um = true) (hftz : p.ftz = false) {e e' : ℤ} (h : e ≤ e') :
    roundedKey p e ≤ roundedKey p e' := by
  unfold roundedKey
  rcases lt_trichotomy e 0 with hneg | rfl | hpos
  · rw [if_neg hneg.ne, if_pos hneg]
    rcases lt_trichotomy e' 0 with hneg' | rfl | hpos'
    · rw [if_neg hneg'.ne, if_pos hneg', neg_le_neg_iff, Nat.cast_le]
      exact magnitudeBits_roundNonzero_mono hum hftz true (by omega) (by omega)
    · rw [if_pos rfl]; omega
    · rw [if_neg hpos'.ne', if_neg hpos'.not_gt]; omega
  · rw [if_pos rfl]
    split
    · exact le_rfl
    · rw [if_neg (by omega)]; omega
  · have hpos' : 0 < e' := hpos.trans_le h
    rw [if_neg hpos.ne', if_neg hpos.not_gt, if_neg hpos'.ne', if_neg hpos'.not_gt, Nat.cast_le]
    exact magnitudeBits_roundNonzero_mono hum hftz false (by omega) (by omega)

/-- The exact values are ordered as the integers that are rounded (R131). -/
theorem exactUnits_le_of_exactVal_le {x y z x' y' z' : E64} (h : exactVal x y z ≤ exactVal x' y' z') :
    exactUnits x y z ≤ exactUnits x' y' z' := by
  rw [exactVal_units, exactVal_units, mul_le_mul_iff_left₀ unit_pos] at h
  exact_mod_cast h

/-- Settles O43: the order key of the result grows with the integer that is rounded. -/
theorem monotoneRounding : Obligations.MonotoneRounding := by
  intro p x y z x' y' z' hd hftz _ hum hx hy hz hx' hy' hz' h
  rw [fma64_finite hd hx hy hz, fma64_finite hd hx' hy' hz', orderKey_fmaFinite hum hftz, orderKey_fmaFinite hum hftz]
  exact roundedKey_mono hum hftz (exactUnits_le_of_exactVal_le h)

/-! ## Rounding inward and outward -/

/-- The directed mode that takes the candidate of smaller magnitude. -/
def inwardMode (neg : Bool) : RoundingMode := if neg then .ru else .rd

/-- The directed mode that takes the candidate of larger magnitude. -/
def outwardMode (neg : Bool) : RoundingMode := if neg then .rd else .ru

theorem roundIndex_inward (neg : Bool) (g a : ℕ) : roundIndex (inwardMode neg) neg g a = a / 2 ^ g := by
  cases neg <;> simp [roundIndex, inwardMode, roundsAway]

theorem roundIndex_outward (neg : Bool) (g a : ℕ) :
    roundIndex (outwardMode neg) neg g a = if a % 2 ^ g = 0 then a / 2 ^ g else a / 2 ^ g + 1 := by
  cases neg <;> simp [roundIndex, outwardMode, roundsAway]

theorem roundMag_inward_le (neg : Bool) (g a : ℕ) : roundMag (inwardMode neg) neg g a ≤ a := by
  rw [roundMag, roundIndex_inward]
  exact Nat.div_mul_le_self a (2 ^ g)

theorem le_roundMag_outward (neg : Bool) (g a : ℕ) : a ≤ roundMag (outwardMode neg) neg g a := by
  rw [roundMag, roundIndex_outward]
  split
  · next hexact => exact (Nat.div_mul_cancel (Nat.dvd_of_mod_eq_zero hexact)).ge
  · exact (Nat.lt_mul_of_div_lt (Nat.lt_succ_self _) (Nat.two_pow_pos g)).le

/-- Every mode's choice is the inward or the outward one (R133). -/
theorem roundMag_inward_or_outward (rc : RoundingMode) (neg : Bool) (g a : ℕ) :
    roundMag rc neg g a = roundMag (inwardMode neg) neg g a ∨ roundMag rc neg g a = roundMag (outwardMode neg) neg g a := by
  unfold roundMag
  rw [roundIndex_inward, roundIndex_outward]
  rcases roundIndex_cases rc neg g a with h | ⟨hinexact, h⟩
  · exact .inl (by rw [h])
  · exact .inr (by rw [h, if_neg hinexact])

theorem roundMag_le_outward (rc : RoundingMode) (neg : Bool) (g a : ℕ) :
    roundMag rc neg g a ≤ roundMag (outwardMode neg) neg g a := by
  rcases roundMag_inward_or_outward rc neg g a with h | h
  · rw [h]
    exact (roundMag_inward_le neg g a).trans (le_roundMag_outward neg g a)
  · exact h.le

theorem roundMag_inward_le_mode (rc : RoundingMode) (neg : Bool) (g a : ℕ) :
    roundMag (inwardMode neg) neg g a ≤ roundMag rc neg g a := by
  rcases roundMag_inward_or_outward rc neg g a with h | h
  · exact h.ge
  · rw [h]
    exact (roundMag_inward_le neg g a).trans (le_roundMag_outward neg g a)

theorem roundedMagnitude_inward_le (neg : Bool) (a : ℕ) : roundedMagnitude (inwardMode neg) neg a ≤ a := by
  unfold roundedMagnitude
  split
  · exact roundMag_inward_le neg _ a
  · exact roundMag_inward_le neg _ a

theorem le_roundedMagnitude_outward (neg : Bool) (a : ℕ) : a ≤ roundedMagnitude (outwardMode neg) neg a := by
  unfold roundedMagnitude
  split
  · exact le_roundMag_outward neg _ a
  · exact le_roundMag_outward neg _ a

theorem overflowResult_inward (neg : Bool) : overflowResult (inwardMode neg) neg = maxE neg := by
  cases neg <;> rfl

theorem overflowResult_outward (neg : Bool) : overflowResult (outwardMode neg) neg = infE neg := by
  cases neg <;> rfl

/-- Below the normal range, rounding outward to 53 bits does not pass rounding outward to a multiple of `2^-1074`, as the multiples of
`2^-1074` have at most 53 bits there. -/
theorem roundUnbounded_outward_le_roundDenormal (neg : Bool) {a : ℕ} (ha : a ≠ 0) (h : a < tinyUnits) :
    roundUnbounded (outwardMode neg) neg a ≤ roundDenormal (outwardMode neg) neg a := by
  have hlog : Nat.log2 a < 1126 := (Nat.log2_lt ha).mpr h
  set m := roundDenormal (outwardMode neg) neg a with hm
  have hdvd : 2 ^ (Nat.log2 a - 52) ∣ m := calc
    2 ^ (Nat.log2 a - 52) ∣ 2 ^ 1074 := Nat.pow_dvd_pow 2 (by omega)
    _ ∣ m := Nat.dvd_of_mod_eq_zero (roundMag_mod _ _ _ _)
  calc roundMag (outwardMode neg) neg (Nat.log2 a - 52) a
    _ ≤ roundMag (outwardMode neg) neg (Nat.log2 a - 52) m := roundMag_mono _ _ _ (le_roundMag_outward neg 1074 a)
    _ = m := roundMag_exact _ _ _ _ (Nat.mod_eq_zero_of_dvd hdvd)

/-! ## The results of the four modes -/

/-- The control inputs of R141 P6: a mode, masked and without flushing. -/
def maskedControl (nan : NaNRule) (rc : RoundingMode) : FpControl := ⟨rc, false, false, true, true, nan⟩

section Modes
variable (nan : NaNRule) (neg : Bool) {a : ℕ}

/-- The result of the inward mode is finite and not above the magnitude that is rounded (R134, R141 P6). -/
theorem inward_result_le (ha : a ≠ 0) :
    isFinite (roundNonzero (maskedControl nan (inwardMode neg)) neg a).1 = true ∧
      magUnits (roundNonzero (maskedControl nan (inwardMode neg)) neg a).1 * 2 ^ 1074 ≤ a := by
  rcases Nat.lt_or_ge (roundUnbounded (inwardMode neg) neg a) overflowUnits with hfin | hover
  · obtain ⟨_, hfinite, hmag⟩ := roundNonzero_finite (p := maskedControl nan (inwardMode neg)) rfl rfl ha hfin
    exact ⟨hfinite, hmag.trans_le (roundedMagnitude_inward_le neg a)⟩
  · have hmax : isFinite (maxE neg) = true ∧ magUnits (maxE neg) * 2 ^ 1074 ≤ overflowUnits := by
      cases neg <;> decide +kernel
    rw [roundNonzero_of_overflow (p := maskedControl nan (inwardMode neg)) hover]
    simp only [maskedControl, overflowResult_inward]
    exact ⟨hmax.1, hmax.2.trans (hover.trans (roundMag_inward_le neg _ a))⟩

/-- The result of the outward mode is the infinity, or finite and not below the magnitude that is rounded (R134, R141 P6). -/
theorem le_outward_result (ha : a ≠ 0) :
    (roundNonzero (maskedControl nan (outwardMode neg)) neg a).1 = infE neg ∨
      (isFinite (roundNonzero (maskedControl nan (outwardMode neg)) neg a).1 = true ∧
        a ≤ magUnits (roundNonzero (maskedControl nan (outwardMode neg)) neg a).1 * 2 ^ 1074) := by
  rcases Nat.lt_or_ge (roundUnbounded (outwardMode neg) neg a) overflowUnits with hfin | hover
  · obtain ⟨_, hfinite, hmag⟩ := roundNonzero_finite (p := maskedControl nan (outwardMode neg)) rfl rfl ha hfin
    exact .inr ⟨hfinite, (le_roundedMagnitude_outward neg a).trans_eq hmag.symm⟩
  · rw [roundNonzero_of_overflow (p := maskedControl nan (outwardMode neg)) hover]
    exact .inl (overflowResult_outward neg)

/-- Round-to-zero gives the result of the inward mode (R141 P6). -/
theorem roundNonzero_rz : roundNonzero (maskedControl nan .rz) neg a = roundNonzero (maskedControl nan (inwardMode neg)) neg a := by
  have hmag (g : ℕ) : roundMag .rz neg g a = roundMag (inwardMode neg) neg g a := by
    rw [roundMag, roundMag, roundIndex_inward]
    simp [roundIndex, roundsAway]
  simp only [roundNonzero, maskedControl, roundUnbounded, roundDenormal, hmag, overflowResult_inward]
  rfl

/-- A tiny round-to-nearest result is that of the inward or of the outward mode; where the outward mode rounds up to the least normal
number, both encodings are of that number. -/
theorem rn_result_of_tiny (ha : a ≠ 0) (htiny : roundUnbounded .rn neg a < tinyUnits) :
    (roundNonzero (maskedControl nan .rn) neg a).1 = (roundNonzero (maskedControl nan (inwardMode neg)) neg a).1 ∨
      (roundNonzero (maskedControl nan .rn) neg a).1 = (roundNonzero (maskedControl nan (outwardMode neg)) neg a).1 := by
  have hbelow := lt_tinyUnits_of_tiny ha htiny
  rw [roundNonzero_of_masked_tiny (p := maskedControl nan .rn) htiny rfl rfl]
  rcases roundMag_inward_or_outward .rn neg 1074 a with hin | hout
  · have hinward : roundUnbounded (inwardMode neg) neg a < tinyUnits := (roundMag_inward_le_mode .rn neg _ a).trans_lt htiny
    rw [roundNonzero_of_masked_tiny (p := maskedControl nan (inwardMode neg)) hinward rfl rfl]
    exact .inl (congrArg (encodeDenormal neg) hin)
  · right
    rcases Nat.lt_or_ge (roundUnbounded (outwardMode neg) neg a) tinyUnits with houtward | hge
    · rw [roundNonzero_of_masked_tiny (p := maskedControl nan (outwardMode neg)) houtward rfl rfl]
      exact congrArg (encodeDenormal neg) hout
    · have hle := roundUnbounded_outward_le_roundDenormal neg ha hbelow
      have hle' := roundDenormal_le_tinyUnits (outwardMode neg) neg hbelow.le
      have hunbounded : roundUnbounded (outwardMode neg) neg a = tinyUnits := by omega
      have hdenormal : roundDenormal .rn neg a = tinyUnits := hout.trans (le_antisymm hle' (hge.trans hle))
      have hcodes : encodeDenormal neg tinyUnits = encodeNormal neg tinyUnits := by cases neg <;> decide +kernel
      rw [roundNonzero_of_normal (p := maskedControl nan (outwardMode neg)) hge (hunbounded.trans_lt tinyUnits_lt_overflowUnits)]
      simp only [maskedControl, hunbounded, hdenormal, hcodes]

/-- Round-to-nearest gives the result of the inward or of the outward mode (R141 P6). -/
theorem rn_result (ha : a ≠ 0) :
    (roundNonzero (maskedControl nan .rn) neg a).1 = (roundNonzero (maskedControl nan (inwardMode neg)) neg a).1 ∨
      (roundNonzero (maskedControl nan .rn) neg a).1 = (roundNonzero (maskedControl nan (outwardMode neg)) neg a).1 := by
  rcases Nat.lt_or_ge (roundUnbounded .rn neg a) tinyUnits with htiny | hlo
  · exact rn_result_of_tiny nan neg ha htiny
  rcases Nat.lt_or_ge (roundUnbounded .rn neg a) overflowUnits with hhi | hover
  · have hsame {rc : RoundingMode} (h : roundUnbounded .rn neg a = roundUnbounded rc neg a) :
        (roundNonzero (maskedControl nan .rn) neg a).1 = (roundNonzero (maskedControl nan rc) neg a).1 := by
      rw [roundNonzero_of_normal (p := maskedControl nan .rn) hlo hhi,
        roundNonzero_of_normal (p := maskedControl nan rc) (hlo.trans_eq h) (h.symm.trans_lt hhi)]
      exact congrArg (encodeNormal neg) h
    exact (roundMag_inward_or_outward .rn neg _ a).imp hsame hsame
  · have houtward : overflowUnits ≤ roundUnbounded (outwardMode neg) neg a := hover.trans (roundMag_le_outward .rn neg _ a)
    rw [roundNonzero_of_overflow (p := maskedControl nan .rn) hover,
      roundNonzero_of_overflow (p := maskedControl nan (outwardMode neg)) houtward]
    exact .inr (overflowResult_outward neg).symm

end Modes

/-! ## Values of the directed modes -/

theorem withSignOf_le_iff (e s t : ℚ) : withSignOf e s ≤ withSignOf e t ↔ if e < 0 then t ≤ s else s ≤ t := by
  unfold withSignOf
  split
  · exact neg_le_neg_iff
  · exact Iff.rfl

/-- A finite element of the sign of `e` against `e`, by their magnitudes in units of `2^-2148`. -/
theorem realVal_compare {w : E64} {e : ℚ} {a : ℕ} (he : |e| = a * 2 ^ (-2148 : ℤ)) (hs : signOf w = decide (e < 0)) :
    (realVal w ≤ e ↔ if e < 0 then a ≤ magUnits w * 2 ^ 1074 else magUnits w * 2 ^ 1074 ≤ a) ∧
      (e ≤ realVal w ↔ if e < 0 then magUnits w * 2 ^ 1074 ≤ a else a ≤ magUnits w * 2 ^ 1074) := by
  have hunits (m n : ℕ) : (m : ℚ) * 2 ^ (-2148 : ℤ) ≤ n * 2 ^ (-2148 : ℤ) ↔ m ≤ n := by
    rw [mul_le_mul_iff_left₀ unit_pos, Nat.cast_le]
  have hw := realVal_of_units hs (rfl : magUnits w * 2 ^ 1074 = magUnits w * 2 ^ 1074)
  have hself : e = withSignOf e (a * 2 ^ (-2148 : ℤ)) := (withSignOf_eq_self_iff.mpr he.symm).symm
  generalize magUnits w * 2 ^ 1074 = m at hw ⊢
  constructor
  · calc realVal w ≤ e ↔ withSignOf e (m * 2 ^ (-2148 : ℤ)) ≤ withSignOf e (a * 2 ^ (-2148 : ℤ)) := by rw [hw, ← hself]
      _ ↔ _ := by rw [withSignOf_le_iff, hunits, hunits]
  · calc e ≤ realVal w ↔ withSignOf e (a * 2 ^ (-2148 : ℤ)) ≤ withSignOf e (m * 2 ^ (-2148 : ℤ)) := by rw [hw, ← hself]
      _ ↔ _ := by rw [withSignOf_le_iff, hunits, hunits]

/-- The round-down result of a nonzero exact value is at most it (R141 P6). -/
theorem rd_result_below (nan : NaNRule) {e : ℚ} {a : ℕ} (ha : a ≠ 0) (he : |e| = a * 2 ^ (-2148 : ℤ)) :
    belowOrEqual (roundNonzero (maskedControl nan .rd) (decide (e < 0)) a).1 e := by
  have hsign := signOf_roundNonzero (p := maskedControl nan .rd) rfl rfl (decide (e < 0)) ha
  have hcompare := (realVal_compare he hsign).1
  by_cases hneg : e < 0
  · rw [if_pos hneg] at hcompare
    rw [decide_eq_true hneg] at hcompare ⊢
    exact (le_outward_result nan true ha).imp_right (And.imp_right hcompare.mpr)
  · rw [if_neg hneg] at hcompare
    rw [decide_eq_false hneg] at hcompare ⊢
    exact .inr ((inward_result_le nan false ha).imp_right hcompare.mpr)

/-- The round-up result of a nonzero exact value is at least it (R141 P6). -/
theorem ru_result_above (nan : NaNRule) {e : ℚ} {a : ℕ} (ha : a ≠ 0) (he : |e| = a * 2 ^ (-2148 : ℤ)) :
    aboveOrEqual (roundNonzero (maskedControl nan .ru) (decide (e < 0)) a).1 e := by
  have hsign := signOf_roundNonzero (p := maskedControl nan .ru) rfl rfl (decide (e < 0)) ha
  have hcompare := (realVal_compare he hsign).2
  by_cases hneg : e < 0
  · rw [if_pos hneg] at hcompare
    rw [decide_eq_true hneg] at hcompare ⊢
    exact .inr ((inward_result_le nan true ha).imp_right hcompare.mpr)
  · rw [if_neg hneg] at hcompare
    rw [decide_eq_false hneg] at hcompare ⊢
    exact (le_outward_result nan false ha).imp_right (And.imp_right hcompare.mpr)

/-- The inward and the outward mode are round-down and round-up, in the order of the sign. -/
theorem down_or_up_of_inward_or_outward {R : RoundingMode → E64} {w : E64} (neg : Bool)
    (h : w = R (inwardMode neg) ∨ w = R (outwardMode neg)) : w = R .rd ∨ w = R .ru := by
  cases neg with
  | true => exact h.symm
  | false => exact h

/-- R141 P6 for a zero exact value: the results are zeros, and only round-down gives another sign. -/
theorem directed_modes_of_zero (nan : NaNRule) {x y z : E64} (hx : isFinite x = true) (hy : isFinite y = true) (hz : isFinite z = true)
    (he : exactVal x y z = 0) :
    belowOrEqual (fma64 (maskedControl nan .rd) x y z).res 0 ∧ aboveOrEqual (fma64 (maskedControl nan .ru) x y z).res 0 ∧
      (fma64 (maskedControl nan .rn) x y z).res = (fma64 (maskedControl nan .ru) x y z).res ∧
      (fma64 (maskedControl nan .rz) x y z).res = (fma64 (maskedControl nan .ru) x y z).res := by
  have hres (rc : RoundingMode) : (fma64 (maskedControl nan rc) x y z).res = zeroE (exactZeroSign rc (productSign x y) (signOf z)) := by
    rw [fma64_of_exact_zero rfl hx hy hz he]
    rfl
  have hfinite (neg : Bool) : isFinite (zeroE neg) = true := by rw [isFinite, classOf_zeroE]; rfl
  have hvalue (neg : Bool) : realVal (zeroE neg) = 0 := realVal_of_classOf_zero (classOf_zeroE neg)
  rw [hres, hres, hres, hres]
  exact ⟨.inr ⟨hfinite _, (hvalue _).le⟩, .inr ⟨hfinite _, (hvalue _).ge⟩, rfl, rfl⟩

/-- R141 P6 for a nonzero exact value: round-down and round-up are the inward and the outward mode, in the order of the sign, and the
other modes take one of the two. -/
theorem directed_modes_of_nonzero (nan : NaNRule) {x y z : E64} (hx : isFinite x = true) (hy : isFinite y = true)
    (hz : isFinite z = true) (he : exactVal x y z ≠ 0) :
    belowOrEqual (fma64 (maskedControl nan .rd) x y z).res (exactVal x y z) ∧
      aboveOrEqual (fma64 (maskedControl nan .ru) x y z).res (exactVal x y z) ∧
      ((fma64 (maskedControl nan .rn) x y z).res = (fma64 (maskedControl nan .rd) x y z).res ∨
        (fma64 (maskedControl nan .rn) x y z).res = (fma64 (maskedControl nan .ru) x y z).res) ∧
      ((fma64 (maskedControl nan .rz) x y z).res = (fma64 (maskedControl nan .rd) x y z).res ∨
        (fma64 (maskedControl nan .rz) x y z).res = (fma64 (maskedControl nan .ru) x y z).res) := by
  have ha := natAbs_exactUnits_ne_zero he
  have habs := abs_exactVal x y z
  have hres (rc : RoundingMode) : (fma64 (maskedControl nan rc) x y z).res =
      (roundNonzero (maskedControl nan rc) (decide (exactVal x y z < 0)) (exactUnits x y z).natAbs).1 := by
    rw [fma64_nonzero rfl hx hy hz he]
  rw [hres, hres, hres, hres]
  generalize (exactUnits x y z).natAbs = a at ha habs ⊢
  refine ⟨rd_result_below nan ha habs, ru_result_above nan ha habs, ?_, ?_⟩
  · exact down_or_up_of_inward_or_outward (R := fun rc => (roundNonzero (maskedControl nan rc) _ a).1) _ (rn_result nan _ ha)
  · exact down_or_up_of_inward_or_outward (R := fun rc => (roundNonzero (maskedControl nan rc) _ a).1) _
      (.inl (congrArg Prod.fst (roundNonzero_rz nan _)))

/-- Settles O42: the results for a zero and for a nonzero exact value. -/
theorem directedModesBracket : Obligations.DirectedModesBracket := by
  intro nan x y z hx hy hz
  by_cases he : exactVal x y z = 0
  · obtain ⟨hbelow, habove, hrn, hrz⟩ := directed_modes_of_zero nan hx hy hz he
    rw [he]
    exact ⟨hbelow, habove, .inr hrn, .inr hrz⟩
  · exact directed_modes_of_nonzero nan hx hy hz he

end Sys2Proof.Machine
end
